-- ==== Sys2Proof/Word.lean ====
section
/-! DEFINITION. The value types of the block: 32-bit registers and words, 16-bit header fields, bytes, and the
direction that selects a cipher instance and a frame buffer (spec rules R7, R9, R51). Every value is unsigned (R9);
`+` on `Word` is the spec's `+32`, `^^^` its `^`, `<<<` and `>>>` its logical shifts (R10, R12). -/
namespace Sys2Proof

/-- A 32-bit register or word (R7: "Register width is 32 bits"). -/
abbrev Word := BitVec 32

/-- A 16-bit header field (R7, R58). -/
abbrev Half := BitVec 16

/-- One byte of a frame buffer (R36). -/
abbrev Byte := BitVec 8

/-- The D bit of a command (R51): `tx` (D = 0) selects cipher `C_0` and TXBUF, `rx` (D = 1) selects `C_1` and RXBUF. -/
inductive Dir where
  | tx
  | rx
  deriving DecidableEq, Repr

end Sys2Proof
end

