-- ==== Sys2Proof/Machine/Keystream.lean ====
section
/-! DEFINITION. The keystream cipher ISAAC: the instance's fields (R31) and the procedures `Mix` (R66), `Scramble`
(R67), `Init` (R68), `Peek` and `Advance` (R69). The algorithm is the spec's own general-knowledge default (G1 to G4 of
93_implementation_defined.md); `Config` takes `Init` as the parameter `ISAAC_INIT` (R7). -/
namespace Sys2Proof.Machine

/-- The 256-word arrays of ISAAC (R31). -/
abbrev Words256 := Vector Word 256

/-- A PRESENT cipher instance (R31). An absent one holds no value at all: 93_implementation_defined.md U2. -/
structure Cipher where
  mem : Words256
  rsl : Words256
  a   : Word
  b   : Word
  c   : Word
  idx : Fin 256
  deriving DecidableEq, Repr

/-- The eight words `(a,b,c,d,e,f,g,h)` that `Mix` maps (R66). -/
structure Octet where
  a : Word
  b : Word
  c : Word
  d : Word
  e : Word
  f : Word
  g : Word
  h : Word
  deriving DecidableEq, Repr

/-- `n mod 256` as an array index (R67). -/
def cell (n : Nat) : Fin 256 := Fin.ofNat 256 n

/-- `v[n] <- w`. -/
def putWord (v : Words256) (n : Nat) (w : Word) : Words256 := v.set (cell n).val w (cell n).isLt

/-- `v[n]`. -/
def getWord (v : Words256) (n : Nat) : Word := v.get (cell n)

/-- R65. -/
def golden : Word := 0x9E3779B9

/-- `Mix(s)`: the 24 assignments of R66, in order. -/
def mix (s : Octet) : Octet :=
  let ⟨a, b, c, d, e, f, g, h⟩ := s
  let a := a ^^^ (b <<< 11); let d := d + a; let b := b + c
  let b := b ^^^ (c >>> 2);  let e := e + b; let c := c + d
  let c := c ^^^ (d <<< 8);  let f := f + c; let d := d + e
  let d := d ^^^ (e >>> 16); let g := g + d; let e := e + f
  let e := e ^^^ (f <<< 10); let h := h + e; let f := f + g
  let f := f ^^^ (g >>> 4);  let a := a + f; let g := g + h
  let g := g ^^^ (h <<< 8);  let b := b + g; let h := h + a
  let h := h ^^^ (a >>> 9);  let c := c + h; let a := a + b
  ⟨a, b, c, d, e, f, g, h⟩

/-- The shift of `C.a` that `i mod 4` selects in `Scramble` (R67). -/
def scrambleShift (i : Nat) (a : Word) : Word :=
  match i % 4 with
  | 0 => a ^^^ (a <<< 13)
  | 1 => a ^^^ (a >>> 6)
  | 2 => a ^^^ (a <<< 2)
  | _ => a ^^^ (a >>> 16)

/-- One iteration `i` of the loop of `Scramble` (R67); every read of `mem` sees the earlier iterations' writes. -/
def scrambleStep (C : Cipher) (i : Nat) : Cipher :=
  let x := getWord C.mem i
  let a := getWord C.mem (i + 128) + scrambleShift i C.a
  let y := getWord C.mem (x >>> 2).toNat + a + C.b
  let mem := putWord C.mem i y
  let b := getWord mem (y >>> 10).toNat + x
  { C with mem := mem, rsl := putWord C.rsl i b, a := a, b := b }

/-- The state of the loop of `Scramble` before its first iteration: `c <- c + 1`, then `b <- b + c` (R67). -/
def scrambleStart (C : Cipher) : Cipher := { C with c := C.c + 1, b := C.b + (C.c + 1) }

/-- `Scramble(C)`: the next block of 256 keystream words (R67). -/
def scramble (C : Cipher) : Cipher := (List.range 256).foldl scrambleStep (scrambleStart C)

/-- `s[k] <- s[k] + v[j+k]` for `k` in 0 to 7 (R68). -/
def addBlock (s : Octet) (v : Words256) (j : Nat) : Octet :=
  ⟨s.a + getWord v j, s.b + getWord v (j + 1), s.c + getWord v (j + 2), s.d + getWord v (j + 3),
   s.e + getWord v (j + 4), s.f + getWord v (j + 5), s.g + getWord v (j + 6), s.h + getWord v (j + 7)⟩

/-- `v[j+k] <- s[k]` for `k` in 0 to 7 (R68). -/
def storeBlock (v : Words256) (j : Nat) (s : Octet) : Words256 :=
  let v := putWord v j s.a
  let v := putWord v (j + 1) s.b
  let v := putWord v (j + 2) s.c
  let v := putWord v (j + 3) s.d
  let v := putWord v (j + 4) s.e
  let v := putWord v (j + 5) s.f
  let v := putWord v (j + 6) s.g
  putWord v (j + 7) s.h

/-- The 256 zero words that `Init` puts into `rsl` and `mem` first (R68). -/
def zeroWords : Words256 := Vector.replicate 256 0

/-- Pass 0 of `Init`, block `q` (`j = 8q`): add `rsl`, which is all zero, mix, store (R68). -/
def initPass0 (p : Octet × Words256) (q : Nat) : Octet × Words256 :=
  let s := mix (addBlock p.1 zeroWords (8 * q))
  (s, storeBlock p.2 (8 * q) s)

/-- Pass 1 of `Init`, block `q` (`j = 8q`): add `mem`, mix, store (R68). -/
def initPass1 (p : Octet × Words256) (q : Nat) : Octet × Words256 :=
  let s := mix (addBlock p.1 p.2 (8 * q))
  (s, storeBlock p.2 (8 * q) s)

/-- The array `mem` that the two passes of `Init` leave; the seed does not enter it (R68). -/
def initMem : Words256 :=
  let g : Octet := ⟨golden, golden, golden, golden, golden, golden, golden, golden⟩
  let p := (mix (mix (mix (mix g))), zeroWords)
  let p := (List.range 32).foldl initPass0 p
  ((List.range 32).foldl initPass1 p).2

/-- `Init(C, seed)`: the default of the parameter `ISAAC_INIT` (R68, R7). -/
def isaacInit (seed : Word) : Cipher :=
  { scramble { mem := initMem, rsl := zeroWords, a := seed, b := seed, c := seed, idx := 255 } with idx := 255 }

/-- `Peek(C)`: the current key (R69). -/
def peek (C : Cipher) : Word := C.rsl.get C.idx

/-- `Advance(C)`: consume one key, from `rsl[255]` down to `rsl[0]`, then a new block (R69). -/
def advance (C : Cipher) : Cipher :=
  if C.idx.val > 0 then { C with idx := cell (C.idx.val - 1) } else { scramble C with idx := 255 }

end Sys2Proof.Machine
end

