-- ==== Sys2Proof/Config.lean ====
section
/-! DEFINITION. What an implementation fixes: the parameters of R7 as fields of one structure, and the free values the
spec leaves open. The parameters' default values stand in `Sys2Proof/Machine/Params.lean` (`Config.chip`), their
constraints (R8) in `Sys2Proof/WellFormed.lean`. -/
namespace Sys2Proof

/-- The parameter family `FLAG_*` (R7, R59): one bit value per header flag. -/
structure HeaderFlags where
  retransmission    : Word
  encryptedChecksum : Word
  blobFragments     : Word
  serverSwitch      : Word
  requestRetransmit : Word
  rejectRetransmit  : Word
  ackSequence       : Word
  disconnect        : Word
  loginRequest      : Word
  connectRequest    : Word
  connectResponse   : Word
  ciCmd             : Word
  timeSync          : Word
  echoRequest       : Word
  echoResponse      : Word
  flow              : Word
  deriving DecidableEq, Repr

/-- The keystream generator: the contract `new(seed)`, `peek()`, `advance()` of the source (R5, R31). Together its
three members are the parameter `ISAAC_INIT` of R7 with the parts G1 to G4 (93_implementation_defined.md). -/
structure Keystream where
  init    : Word → Machine.Cipher
  peek    : Machine.Cipher → Word
  advance : Machine.Cipher → Machine.Cipher

/-- The implementation parameters of R7. -/
structure Config where
  /-- `BUF_SIZE`: bytes in each frame buffer. -/
  bufSize : Nat
  /-- `SENTINEL`: the value forced into the checksum field before the header hash. -/
  sentinel : Word
  /-- `HASH32`: the 32-bit hash function. -/
  hash32 : List Byte → Word
  /-- `ISAAC_INIT`: the keystream generator. -/
  isaac : Keystream
  /-- `FLAG_*`: the bit values of the header flags. -/
  flags : HeaderFlags
  /-- `CR_LEN`: bytes of the connect-request section. -/
  crLen : Nat
  /-- `ECHO_RESP_LEN`: bytes of the echo-response section. -/
  echoRespLen : Nat
  /-- `SEQ_INIT`: the reset value of the transmit sequence counter. -/
  seqInit : Word
  /-- `HS_MASK`: the flag bits that mark a packet as sent with a cleartext checksum. -/
  hsMask : Word
  /-- `CONNECT_REPLY_DELAY` (OPEN, R123): the host's delay; no rule of the block reads it. -/
  connectReplyDelay : Nat
  /-- `REG_BASE` (R46): where the platform puts the register window; no rule of the block reads it. -/
  regBase : Nat

/-- FREE VALUE: what a buffer byte reads as while nothing has written it since reset (R40; U1: "One draw per byte, fixed
until the byte is written"). The arguments are the number of the reset, the buffer and the address. DESIGN CHOICE
(log 2). -/
opaque Config.unwrittenByte : Nat → Dir → Nat → Byte

/-- OPEN parameter `CONNECT_REPLY_DELAY` (R7, R123, D35): no value is given (log 13). -/
opaque Config.openReplyDelay : Nat

/-- OPEN parameter `REG_BASE` (R46, U16): no value is given (log 13). -/
opaque Config.openRegBase : Nat

end Sys2Proof
end

