-- ==== Sys2Proof/Syntax.lean ====
section
/-! DEFINITION. The block's commands: one constructor per row of spec/opcode_table.json. A command word carries no
operand (R52), so no constructor has an argument; the suffix `Tx` or `Rx` is the row's D bit (R51, R53). -/
namespace Sys2Proof

/-- The 25 commands of the command map (R53). -/
inductive Instr where
  | nop
  | cinitTx
  | cinitRx
  | cpeekTx
  | cpeekRx
  | cadvTx
  | cadvRx
  | hpackTx
  | hpackRx
  | hunpackTx
  | hunpackRx
  | fpackTx
  | fpackRx
  | funpackTx
  | funpackRx
  | hash32Tx
  | hash32Rx
  | hdrhashTx
  | hdrhashRx
  | payhashTx
  | payhashRx
  | craccept
  | txframe
  | rxframe
  | sreset
  deriving DecidableEq, Repr

end Sys2Proof
end

