-- ==== Sys2Proof/WellFormed.lean ====
section
/-! DEFINITION. The well-formedness checks: of a command word's three fields (R51, R53, R54) and of a configuration
(R8). A constructor of `Instr` has no operand, so what can be ill-formed is the word a command is written as. -/
namespace Sys2Proof

/-- The fields of the one command format CMD32 (R51). -/
structure CmdFields where
  op  : BitVec 8
  d   : BitVec 1
  rsv : BitVec 23
  deriving DecidableEq, Repr

/-- The D values a row of the command map allows (R53, column D). -/
inductive DirRule where
  | txOnly
  | rxOnly
  | both
  deriving DecidableEq, Repr

/-- The command map's columns OP and D (R53). -/
def dirRules : List (BitVec 8 × DirRule) :=
  [(0x00, .txOnly), (0x01, .both), (0x02, .both), (0x03, .both),
   (0x10, .both), (0x11, .both), (0x12, .both), (0x13, .both),
   (0x20, .both), (0x21, .both), (0x22, .both), (0x23, .rxOnly),
   (0x30, .txOnly), (0x31, .rxOnly), (0x3F, .txOnly)]

/-- Does the rule allow this D bit? -/
def DirRule.allows (r : DirRule) (d : BitVec 1) : Bool :=
  match r with
  | .txOnly => d == 0
  | .rxOnly => d == 1
  | .both   => true

/-- The reserved field is 0 (R51, R54). -/
def CmdFields.rsvOk (f : CmdFields) : Bool := f.rsv == 0

/-- The OP value is in the command map (R53, R54). -/
def CmdFields.opOk (f : CmdFields) : Bool := (dirRules.lookup f.op).isSome

/-- The row of this OP value allows the D value; true where no row has the OP value, which `opOk` reports (R54). -/
def CmdFields.dirOk (f : CmdFields) : Bool := ((dirRules.lookup f.op).map (·.allows f.d)).getD true

/-- A legal command word's fields: the three cases of R54 do not hold. -/
def CmdFields.wf (f : CmdFields) : Bool := f.rsvOk && f.opOk && f.dirOk

/-- `BUF_SIZE >= 20` (R8). -/
def Config.bufSizeOk (cfg : Config) : Bool := decide (20 ≤ cfg.bufSize)

/-- `CR_LEN >= 28` (R8). -/
def Config.crLenOk (cfg : Config) : Bool := decide (28 ≤ cfg.crLen)

/-- `ECHO_RESP_LEN` is in {4, 8} (R8). -/
def Config.echoRespLenOk (cfg : Config) : Bool := cfg.echoRespLen == 4 || cfg.echoRespLen == 8

/-- The parameter constraints (R8); a configuration that breaks one is refused. -/
def Config.wf (cfg : Config) : Bool := cfg.bufSizeOk && cfg.crLenOk && cfg.echoRespLenOk

end Sys2Proof
end

