-- ==== Sys2Proof/Decode.lean ====
section
/-! DEFINITION. The decoder, total on every 32-bit word, and the encoder (R51, R53, R54). -/
namespace Sys2Proof

/-- Why a word is no command: the three cases of R54. -/
inductive DecodeReject where
  /-- Some reserved bit [31:9] is set. -/
  | reservedBits
  /-- The OP value is in no row of the command map. -/
  | unknownOp
  /-- The row of this OP value does not allow this D value. -/
  | directionNotAllowed
  deriving DecidableEq, Repr

/-- The fields of a command word: OP = [7:0], D = [8], RSV = [31:9] (R51). -/
def cmdFields (w : Word) : CmdFields :=
  { op := w.extractLsb' 0 8, d := w.extractLsb' 8 1, rsv := w.extractLsb' 9 23 }

/-- The command a row with two D values stands for at this D (R53). -/
def byDir (d : BitVec 1) (tx rx : Instr) : Except DecodeReject Instr := .ok (if d = 0 then tx else rx)

/-- The command of a row that requires D = 0 (R53). -/
def txRow (d : BitVec 1) (i : Instr) : Except DecodeReject Instr :=
  if d = 0 then .ok i else .error .directionNotAllowed

/-- The command of a row that requires D = 1 (R53). -/
def rxRow (d : BitVec 1) (i : Instr) : Except DecodeReject Instr :=
  if d = 1 then .ok i else .error .directionNotAllowed

/-- The command map of R53, row by row. -/
def decodeOp (op : BitVec 8) (d : BitVec 1) : Except DecodeReject Instr :=
  if op = 0x00 then txRow d .nop
  else if op = 0x01 then byDir d .cinitTx .cinitRx
  else if op = 0x02 then byDir d .cpeekTx .cpeekRx
  else if op = 0x03 then byDir d .cadvTx .cadvRx
  else if op = 0x10 then byDir d .hpackTx .hpackRx
  else if op = 0x11 then byDir d .hunpackTx .hunpackRx
  else if op = 0x12 then byDir d .fpackTx .fpackRx
  else if op = 0x13 then byDir d .funpackTx .funpackRx
  else if op = 0x20 then byDir d .hash32Tx .hash32Rx
  else if op = 0x21 then byDir d .hdrhashTx .hdrhashRx
  else if op = 0x22 then byDir d .payhashTx .payhashRx
  else if op = 0x23 then rxRow d .craccept
  else if op = 0x30 then txRow d .txframe
  else if op = 0x31 then rxRow d .rxframe
  else if op = 0x3F then txRow d .sreset
  else .error .unknownOp

/-- The command a word written to CMD stands for, or why there is none (R51, R53, R54). -/
def decodeWord (w : Word) : Except DecodeReject Instr :=
  let f := cmdFields w
  if f.rsv = 0 then decodeOp f.op f.d else .error .reservedBits

/-- The OP value of a command (R53). -/
def opOf : Instr → BitVec 8
  | .nop       => 0x00
  | .cinitTx   => 0x01
  | .cinitRx   => 0x01
  | .cpeekTx   => 0x02
  | .cpeekRx   => 0x02
  | .cadvTx    => 0x03
  | .cadvRx    => 0x03
  | .hpackTx   => 0x10
  | .hpackRx   => 0x10
  | .hunpackTx => 0x11
  | .hunpackRx => 0x11
  | .fpackTx   => 0x12
  | .fpackRx   => 0x12
  | .funpackTx => 0x13
  | .funpackRx => 0x13
  | .hash32Tx  => 0x20
  | .hash32Rx  => 0x20
  | .hdrhashTx => 0x21
  | .hdrhashRx => 0x21
  | .payhashTx => 0x22
  | .payhashRx => 0x22
  | .craccept  => 0x23
  | .txframe   => 0x30
  | .rxframe   => 0x31
  | .sreset    => 0x3F

/-- The D value of a command (R53). -/
def dirBitOf : Instr → BitVec 1
  | .nop       => 0
  | .cinitTx   => 0
  | .cinitRx   => 1
  | .cpeekTx   => 0
  | .cpeekRx   => 1
  | .cadvTx    => 0
  | .cadvRx    => 1
  | .hpackTx   => 0
  | .hpackRx   => 1
  | .hunpackTx => 0
  | .hunpackRx => 1
  | .fpackTx   => 0
  | .fpackRx   => 1
  | .funpackTx => 0
  | .funpackRx => 1
  | .hash32Tx  => 0
  | .hash32Rx  => 1
  | .hdrhashTx => 0
  | .hdrhashRx => 1
  | .payhashTx => 0
  | .payhashRx => 1
  | .craccept  => 1
  | .txframe   => 0
  | .rxframe   => 1
  | .sreset    => 0

/-- The command word: `OP | (D << 8)`, the reserved bits 0 (R51, R55). -/
def encode (i : Instr) : Word := (0 : BitVec 23) ++ dirBitOf i ++ opOf i

/-- What the decoder reads from a word numbered as spec/opcode_table.json numbers it: one 32-bit word, bit 0 the least
significant. A command is one word long whatever `nbits` (R51: "There is no other length").
DEDUCED (log 16). -/
def decodeTableWord (nbits w : Nat) : Option Instr :=
  if nbits ≤ 32 ∧ w < 2 ^ 32 then (decodeWord (BitVec.ofNat 32 w)).toOption else none

end Sys2Proof
end

