-- ==== Sys2Proof/Machine/Bytes.lean ====
section
/-! DEFINITION. Byte order (R41: little-endian throughout), byte strings (R10) and `align4`. -/
namespace Sys2Proof.Machine

/-- `LE_16` of two bytes, the lower address first (R41). -/
def le16 (b0 b1 : Byte) : Half := b1 ++ b0

/-- `LE_32` of four bytes, the lowest address first (R41). -/
def le32 (b0 b1 b2 b3 : Byte) : Word := le16 b2 b3 ++ le16 b0 b1

/-- `LEBYTES_16(v)` (R10). -/
def leBytes16 (v : Half) : List Byte := [v.extractLsb' 0 8, v.extractLsb' 8 8]

/-- `LEBYTES_32(v)` (R10). -/
def leBytes32 (v : Word) : List Byte :=
  [v.extractLsb' 0 8, v.extractLsb' 8 8, v.extractLsb' 16 8, v.extractLsb' 24 8]

/-- `v[15:0]` (R9). -/
def lowHalf (v : Word) : Half := v.extractLsb' 0 16

/-- `v[31:16]` (R9). -/
def highHalf (v : Word) : Half := v.extractLsb' 16 16

/-- The register that packs two 16-bit wire fields: the field at the lower wire address in bits [15:0] (R42). -/
def packHalves (lo hi : Half) : Word := hi ++ lo

/-- `LE_16(B, o)`, where `rd` reads one byte of the buffer (R10, R41). -/
def readLe16 (rd : Nat → Byte) (o : Nat) : Half := le16 (rd o) (rd (o + 1))

/-- `LE_32(B, o)`, where `rd` reads one byte of the buffer (R10, R41). -/
def readLe32 (rd : Nat → Byte) (o : Nat) : Word := le32 (rd o) (rd (o + 1)) (rd (o + 2)) (rd (o + 3))

/-- `MemRead(B, a, n)`: the `n` bytes at `a .. a+n-1` as a byte string (R10). -/
def memRead (rd : Nat → Byte) (a n : Nat) : List Byte := (List.range n).map fun k => rd (a + k)

/-- `align4(n) = n + ((4 - n mod 4) mod 4)` (R10). -/
def align4 (n : Nat) : Nat := n + (4 - n % 4) % 4

end Sys2Proof.Machine
end

