-- ==== Sys2Proof/Machine/Hash.lean ====
section
/-! DEFINITION. The 32-bit hash (R75) and the header hash (R77). -/
namespace Sys2Proof.Machine

/-- The loops of `Hash32`, `h` being the sum so far: every whole little-endian word, then the 1 to 3 trailing bytes
placed from bits [31:24] downward (R75). -/
def hashFrom (h : Word) : List Byte → Word
  | b0 :: b1 :: b2 :: b3 :: rest => hashFrom (h + le32 b0 b1 b2 b3) rest
  | [b0, b1, b2] => h + (b0.zeroExtend 32 <<< 24) + (b1.zeroExtend 32 <<< 16) + (b2.zeroExtend 32 <<< 8)
  | [b0, b1] => h + (b0.zeroExtend 32 <<< 24) + (b1.zeroExtend 32 <<< 16)
  | [b0] => h + (b0.zeroExtend 32 <<< 24)
  | [] => h

/-- `Hash32(s)`: the default of the parameter `HASH32` (R75, R7). -/
def hash32 (s : List Byte) : Word := hashFrom (BitVec.ofNat 32 (s.length * 65536)) s

/-- `HdrHash(hb)`: the hash of the 20 header bytes with the checksum field replaced by `SENTINEL` (R77). -/
def hdrHash (cfg : Config) (hb : List Byte) : Word :=
  cfg.hash32 (hb.take 8 ++ leBytes32 cfg.sentinel ++ (hb.drop 12).take 8)

end Sys2Proof.Machine
end

