-- ==== Sys2Proof/Machine/Params.lean ====
section
/-! DEFINITION. The parameter values of the modelled chip: the defaults of R7 and R59. -/
namespace Sys2Proof

/-- The header flag values of R59. PRESUMED by the spec itself (general knowledge, G7; log 5). -/
def HeaderFlags.default : HeaderFlags where
  retransmission    := 0x00000001
  encryptedChecksum := 0x00000002
  blobFragments     := 0x00000004
  serverSwitch      := 0x00000100
  requestRetransmit := 0x00001000
  rejectRetransmit  := 0x00002000
  ackSequence       := 0x00004000
  disconnect        := 0x00008000
  loginRequest      := 0x00010000
  connectRequest    := 0x00040000
  connectResponse   := 0x00080000
  ciCmd             := 0x00400000
  timeSync          := 0x01000000
  echoRequest       := 0x02000000
  echoResponse      := 0x04000000
  flow              := 0x08000000

/-- The configuration the machine runs with: every parameter at the default of R7. PRESUMED (log 5): the spec takes
SENTINEL, HASH32, ISAAC_INIT, FLAG_* and CR_LEN from general knowledge. -/
def Config.chip : Config where
  bufSize           := 65555
  sentinel          := 0xBADD70DD
  hash32            := Machine.hash32
  isaac             := { init := Machine.isaacInit, peek := Machine.peek, advance := Machine.advance }
  flags             := HeaderFlags.default
  crLen             := 32
  echoRespLen       := 8
  seqInit           := 0
  hsMask            := HeaderFlags.default.loginRequest ||| HeaderFlags.default.connectRequest
                        ||| HeaderFlags.default.connectResponse
  connectReplyDelay := Config.openReplyDelay
  regBase           := Config.openRegBase

end Sys2Proof
end

