-- ==== Sys2Proof/Machine/State.lean ====
section
/-! DEFINITION. The state of the block (R14): the host-visible registers (R17), two cipher instances (R31) and two frame
buffers (R36), as plain data; beside it the model's own fields: the host's pending events (R116), what its reads
returned, and the number of the next free value (R40). The reset values are those of R35. -/
namespace Sys2Proof.Machine

/-- A frame buffer's written bytes: (address, byte) pairs, addresses strictly rising. An address that is not listed
has not been written since reset and holds NO value of its own; the read operation gives it a free value (R40).
DESIGN CHOICE (log 3). -/
abbrev Memory := List Host.Cell

/-- The header field registers (R28). `w3` packs HDR_CID [15:0] and HDR_TIME [31:16], `w4` packs HDR_SIZE [15:0] and
HDR_ITER [31:16] (R17). -/
structure HeaderRegs where
  seq   : Word
  flags : Word
  cksum : Word
  w3    : Word
  w4    : Word
  deriving DecidableEq, Repr

/-- The fragment field registers (R29). `w2` packs FRG_COUNT [15:0] and FRG_SIZE [31:16], `w3` packs FRG_INDEX [15:0]
and FRG_QUEUE [31:16] (R17). -/
structure FragmentRegs where
  seq : Word
  id  : Word
  w2  : Word
  w3  : Word
  deriving DecidableEq, Repr

/-- The connect-request registers (R30). -/
structure ConnectRegs where
  timeLo     : Word
  timeHi     : Word
  cookieLo   : Word
  cookieHi   : Word
  cid        : Word
  serverSeed : Word
  clientSeed : Word
  deriving DecidableEq, Repr

/-- One event of the host (R48, R116): an access or a reset. A command is a `regWrite` to CMD (R17). -/
inductive HostEvent where
  /-- A register write of `width` bytes at byte offset `offset` of the register window (R18). -/
  | regWrite (offset width : Nat) (value : Word)
  /-- A register read of `width` bytes at byte offset `offset` of the register window (R18). -/
  | regRead (offset width : Nat)
  /-- A write of one byte of a frame buffer (R38). -/
  | bufWrite (d : Dir) (addr : Nat) (value : Byte)
  /-- A read of one byte of a frame buffer (R38). -/
  | bufRead (d : Dir) (addr : Nat)
  /-- Reset (R110). -/
  | reset
  /-- An access of a second host, or one made while a command is in progress (R49, R115, U5). -/
  | concurrent
  deriving DecidableEq, Repr

/-- What a read of the host returned. -/
inductive HostAnswer where
  | word (w : Word)
  | byte (b : Byte)
  deriving DecidableEq, Repr

/-- The state of the block (R14) and the model's own fields `pending`, `answers` and `draws`. STATUS is stored by its
fields, its derived and hardwired bits not at all; ERR_STICKY, CLIENT_ID and TX_PLEN by their implemented bits (DEDUCED,
log 14). -/
structure State where
  /-- STATUS.ERR (R19). -/
  err       : BitVec 4
  /-- STATUS.RX_SEEN (R19). -/
  rxSeen    : Bool
  /-- STATUS.LAST_TX_ENC (R19). -/
  lastTxEnc : Bool
  /-- STATUS.LAST_RX_ENC (R19). -/
  lastRxEnc : Bool
  /-- ARG0, `x[0]` (R15). -/
  arg0      : Word
  /-- ARG1, `x[1]` (R15). -/
  arg1      : Word
  /-- ARG2, `x[2]` (R15). -/
  arg2      : Word
  /-- RES (R15). -/
  res       : Word
  /-- ERR_INFO (R20). -/
  errInfo   : Word
  /-- ERR_STICKY bits [15:0] (R21). -/
  errSticky : BitVec 16
  /-- TX_SEQ (R22). -/
  txSeq     : Word
  /-- LAST_RX_SEQ (R23). -/
  lastRxSeq : Word
  /-- CLIENT_ID bits [15:0] (R24). -/
  clientId  : Half
  /-- TX_PLEN bits [15:0] (R25). -/
  txPlen    : Half
  /-- TX_LEN (R26). -/
  txLen     : Word
  /-- RX_LEN (R27). -/
  rxLen     : Word
  /-- HDR_SEQ, HDR_FLAGS, HDR_CKSUM, HDR_W3, HDR_W4 (R28). -/
  hdr       : HeaderRegs
  /-- FRG_SEQ, FRG_ID, FRG_W2, FRG_W3 (R29). -/
  frg       : FragmentRegs
  /-- CR_TIME_LO to CR_CSEED (R30). -/
  cr        : ConnectRegs
  /-- `C_0`; `none` while absent (R31, R32, U2). DESIGN CHOICE (log 4). -/
  txCipher  : Option Cipher
  /-- `C_1`; `none` while absent (R31, R32, U2). DESIGN CHOICE (log 4). -/
  rxCipher  : Option Cipher
  /-- `B_0`, TXBUF (R36). -/
  txBuf     : Memory
  /-- `B_1`, RXBUF (R36). -/
  rxBuf     : Memory
  /-- The model's own: the host's events not yet taken, oldest first (R48, R116). DESIGN CHOICE (log 1). -/
  pending   : List HostEvent
  /-- The model's own: what the host's reads returned, newest first (R45). DESIGN CHOICE (log 10). -/
  answers   : List HostAnswer
  /-- The model's own: the number of the draw that the unwritten buffer bytes hold; only a reset begins a new one (R40,
  U1). DESIGN CHOICE (log 2). -/
  draws     : Nat
  deriving DecidableEq, Repr

/-- The state right after reset with the configuration `cfg` (R35, R110). -/
def State.resetWith (cfg : Config) : State where
  err       := 0
  rxSeen    := false
  lastTxEnc := false
  lastRxEnc := false
  arg0      := 0
  arg1      := 0
  arg2      := 0
  res       := 0
  errInfo   := 0
  errSticky := 0
  txSeq     := cfg.seqInit
  lastRxSeq := 0
  clientId  := 0
  txPlen    := 0
  txLen     := 0
  rxLen     := 0
  hdr       := { seq := 0, flags := 0, cksum := 0, w3 := 0, w4 := 0 }
  frg       := { seq := 0, id := 0, w2 := 0, w3 := 0 }
  cr        := { timeLo := 0, timeHi := 0, cookieLo := 0, cookieHi := 0, cid := 0, serverSeed := 0, clientSeed := 0 }
  txCipher  := none
  rxCipher  := none
  txBuf     := []
  rxBuf     := []
  pending   := []
  answers   := []
  draws     := 0

/-- The state right after reset: R35 with the default parameters of R7. -/
def State.reset : State := State.resetWith Config.chip

/-- Why the machine stops with a fault. Only an access of the HOST raises one; no command does (R102). -/
inductive Fault where
  /-- A host access to an address outside the three address spaces: a register offset of 256 or more, or a buffer
  address of `BUF_SIZE` or more (R36, R37). Raised by `takeEvent`. Safe: the spec gives such an access no effect.
  DESIGN CHOICE (log 7). -/
  | noSuchAddress
  deriving DecidableEq, Repr

/-- Why the machine has no meaning for a step. -/
inductive Refusal where
  /-- An instruction that has no meaning yet, raised by an arm of `exec`. Safe. -/
  | notModelled (mnemonic : String)
  /-- The configuration breaks a parameter constraint (R8: "refused by the model"). Raised by `runCommand` and
  `takeEvent`. Safe; it cannot happen with `Config.chip` (DEDUCED, log 6). -/
  | badConfiguration
  /-- A host register access that is not an aligned 32-bit one (R18: "a model refuses them"). Raised by `takeEvent`.
  Safe. -/
  | registerAccessForm
  /-- A second host's access, or one made while a command is in progress (R49: "a model refuses them"). Raised by
  `takeEvent`. Safe. DESIGN CHOICE (log 8). -/
  | concurrentAccess
  deriving DecidableEq, Repr

/-- The outcome of one command or step. -/
abbrev Result := Host.Outcome State Fault Refusal

end Sys2Proof.Machine
end

