-- ==== Sys2Proof/Machine/Ops.lean ====
section
/-! DEFINITION. The shared operations: bytes of the frame buffers (R10, R36, R40), the cipher instances (R31), reporting
an error and completing a command (R100, R101), and running one command (R44). -/
namespace Sys2Proof.Machine

/-! ### Frame buffers -/

/-- The byte last written at address `a`; none if nothing has written it since reset. -/
def Memory.get : Memory → Nat → Option Byte
  | [], _ => none
  | (k, b) :: rest, a => if k = a then some b else Memory.get rest a

/-- Write one byte, keeping the addresses strictly rising. -/
def Memory.set : Memory → Nat → Byte → Memory
  | [], a, v => [(a, v)]
  | (k, b) :: rest, a, v =>
    if a < k then (a, v) :: (k, b) :: rest
    else if a = k then (a, v) :: rest
    else (k, b) :: Memory.set rest a v

/-- `MemWrite(B, a, |s|, s)`: the byte string `s` at `a` upward (R10). -/
def Memory.write : Memory → Nat → List Byte → Memory
  | m, _, [] => m
  | m, a, b :: s => Memory.write (m.set a b) (a + 1) s

/-- The canonical form: addresses strictly rising. -/
def Memory.wf : Memory → Bool
  | [] => true
  | [_] => true
  | (a, _) :: (k, b) :: rest => decide (a < k) && Memory.wf ((k, b) :: rest)

/-- Every written address lies in the buffer (R37). -/
def Memory.below (limit : Nat) (m : Memory) : Bool := m.all fun c => decide (c.1 < limit)

/-- `B_d` (R10). -/
def State.buf (s : State) (d : Dir) : Memory :=
  match d with
  | .tx => s.txBuf
  | .rx => s.rxBuf

/-- Replace `B_d`. -/
def State.setBuf (s : State) (d : Dir) (m : Memory) : State :=
  match d with
  | .tx => { s with txBuf := m }
  | .rx => { s with rxBuf := m }

/-- THE read of one buffer byte: the byte written last, or, where nothing has written it since reset, its free value
(R40): one draw per byte, fixed until the byte is written (U1), so that a read can be repeated (R45). -/
def State.byteAt (s : State) (d : Dir) (a : Nat) : Byte :=
  match (s.buf d).get a with
  | some b => b
  | none => Config.unwrittenByte s.draws d a

/-- `MemWrite(B_d, a, |bs|, bs)` (R10). -/
def State.memWrite (s : State) (d : Dir) (a : Nat) (bs : List Byte) : State := s.setBuf d ((s.buf d).write a bs)

/-! ### Cipher instances -/

/-- `C_d`; none while absent (R31, R32). -/
def State.cipher (s : State) (d : Dir) : Option Cipher :=
  match d with
  | .tx => s.txCipher
  | .rx => s.rxCipher

/-- Replace `C_d`. -/
def State.setCipher (s : State) (d : Dir) (c : Option Cipher) : State :=
  match d with
  | .tx => { s with txCipher := c }
  | .rx => { s with rxCipher := c }

/-! ### Result registers -/

/-- `RES <- w` (R15). -/
def State.setRes (s : State) (w : Word) : State := { s with res := w }

/-- Write the five header field registers (R28). -/
def State.setHdr (s : State) (h : HeaderRegs) : State := { s with hdr := h }

/-- Write the four fragment field registers (R29). -/
def State.setFrg (s : State) (g : FragmentRegs) : State := { s with frg := g }

/-! ### Errors -/

/-- The errors a command raises, each with the value it records (R99). -/
inductive CmdError where
  | illegalCmd (word : Word)
  | cipherAbsent (d : Dir)
  | cipherPresent (d : Dir)
  | truncated (info : Word)
  | badChecksum (expected : Word)
  | range (info : Word)
  | noSection (flag : Word)
  deriving DecidableEq, Repr

/-- D as a number (R51, R99). -/
def dirWord (d : Dir) : Word :=
  match d with
  | .tx => 0
  | .rx => 1

/-- A buffer address as an ERR_INFO value (R99); exact where `BUF_SIZE` fits 32 bits. DEDUCED (log 11). -/
def addressWord (a : Nat) : Word := BitVec.ofNat 32 a

/-- The code of an error: the value of STATUS.ERR (R99). -/
def CmdError.code (e : CmdError) : BitVec 4 :=
  match e with
  | .illegalCmd _ => 1
  | .cipherAbsent _ => 2
  | .cipherPresent _ => 3
  | .truncated _ => 4
  | .badChecksum _ => 5
  | .range _ => 6
  | .noSection _ => 7

/-- The value an error records in ERR_INFO (R99). -/
def CmdError.info (e : CmdError) : Word :=
  match e with
  | .illegalCmd w => w
  | .cipherAbsent d => dirWord d
  | .cipherPresent d => dirWord d
  | .truncated i => i
  | .badChecksum x => x
  | .range i => i
  | .noSection f => f

/-- The ERR_STICKY bit of an error code (R21). -/
def stickyBit (code : BitVec 4) : BitVec 16 := 1 <<< code.toNat

/-- THE entry of an error, the block's whole exception mechanism: `STATUS.ERR <- E; ERR_INFO <- info;
ERR_STICKY[E] <- 1`, and nothing else changes (R100, R101). There is no handler and no return (R105, R106). -/
def State.raise (s : State) (e : CmdError) : State :=
  { s with err := e.code, errInfo := e.info, errSticky := s.errSticky ||| stickyBit e.code }

/-- The end of a successful command: `STATUS.ERR <- 0; ERR_INFO <- 0` (R101). -/
def State.succeed (s : State) : State := { s with err := 0, errInfo := 0 }

/-! ### Running a command -/

/-- The body of a command: the state its rule's pseudocode leaves, or the error it raises (R10: `return`, `raise`). -/
abbrev Body := State → Except CmdError State

/-- The end of every command: all or nothing (R100, R101). -/
def finish (s : State) (r : Except CmdError State) : State :=
  match r with
  | .ok t => t.succeed
  | .error e => s.raise e

/-- One command, as one indivisible step (R44); a configuration that breaks R8 is refused (log 6). -/
def runCommand (cfg : Config) (body : Body) (s : State) : Result :=
  if cfg.wf then .next (finish s (body s)) else .refused .badConfiguration

end Sys2Proof.Machine
end

