-- ==== Sys2Proof/Machine/Operands.lean ====
section
/-! DEFINITION. The operand forms of R52: the argument registers `x[0]`, `x[1]`, `x[2]` as 32-bit values and as exact
non-negative integers, the bounds check of a buffer range, the header and fragment field registers as byte strings and
back, and the 16-bit sub-fields of the packed registers (R17, R28, R29, R42). -/
namespace Sys2Proof.Machine

/-- `x[i]` (R10, R15). -/
def State.x (s : State) (i : Fin 3) : Word :=
  match i with
  | 0 => s.arg0
  | 1 => s.arg1
  | 2 => s.arg2

/-- An ARG taken as a buffer address or a length: an exact non-negative integer (R52). -/
def State.xNat (s : State) (i : Fin 3) : Nat := (s.x i).toNat

/-- The bounds check of a buffer range: `a + n > BUF_SIZE` raises RANGE with the given info; the sum does not wrap
(R37, R52). -/
def checkRange (cfg : Config) (a n : Nat) (info : Word) : Except CmdError Unit :=
  if a + n > cfg.bufSize then .error (.range info) else .ok ()

/-- The 20 header bytes that the header field registers stand for (R58, R78). -/
def headerBytes (h : HeaderRegs) : List Byte :=
  leBytes32 h.seq ++ leBytes32 h.flags ++ leBytes32 h.cksum ++ leBytes32 h.w3 ++ leBytes32 h.w4

/-- The five header words at address `a` (R58, R79). -/
def readHeader (rd : Nat → Byte) (a : Nat) : HeaderRegs :=
  { seq := readLe32 rd a, flags := readLe32 rd (a + 4), cksum := readLe32 rd (a + 8),
    w3 := readLe32 rd (a + 12), w4 := readLe32 rd (a + 16) }

/-- The 16 fragment-header bytes that the fragment field registers stand for (R62, R80). -/
def fragmentBytes (g : FragmentRegs) : List Byte :=
  leBytes32 g.seq ++ leBytes32 g.id ++ leBytes32 g.w2 ++ leBytes32 g.w3

/-- The four fragment-header words at address `a` (R62, R81). -/
def readFragment (rd : Nat → Byte) (a : Nat) : FragmentRegs :=
  { seq := readLe32 rd a, id := readLe32 rd (a + 4), w2 := readLe32 rd (a + 8), w3 := readLe32 rd (a + 12) }

/-- HDR_CID (R28). -/
def hdrCid (h : HeaderRegs) : Half := lowHalf h.w3

/-- HDR_TIME (R28). -/
def hdrTime (h : HeaderRegs) : Half := highHalf h.w3

/-- HDR_SIZE (R28). -/
def hdrSize (h : HeaderRegs) : Half := lowHalf h.w4

/-- HDR_ITER (R28). -/
def hdrIter (h : HeaderRegs) : Half := highHalf h.w4

/-- FRG_COUNT (R29). -/
def frgCount (g : FragmentRegs) : Half := lowHalf g.w2

/-- FRG_SIZE (R29). -/
def frgSize (g : FragmentRegs) : Half := highHalf g.w2

/-- FRG_INDEX (R29). -/
def frgIndex (g : FragmentRegs) : Half := lowHalf g.w3

/-- FRG_QUEUE (R29). -/
def frgQueue (g : FragmentRegs) : Half := highHalf g.w3

end Sys2Proof.Machine
end

