-- ==== Sys2Proof/Machine/Flags.lean ====
section
/-! DEFINITION. Every flag the block has (R34): the STATUS word (R19) and ERR_STICKY (R21) as the host reads them, the
tests and the forcing of header flag bits (R59, R92), and when a checksum is encrypted (R90, R93). The block has no
condition codes and no arithmetic flags (R34). -/
namespace Sys2Proof.Machine

/-- The word with bit `n` set to `b` and every other bit 0. -/
def bitAt (n : Nat) (b : Bool) : Word := if b then 1 <<< n else 0

/-- STATUS.TXC_PRESENT (R19, R31). -/
def State.txcPresent (s : State) : Bool := s.txCipher.isSome

/-- STATUS.RXC_PRESENT (R19, R31). -/
def State.rxcPresent (s : State) : Bool := s.rxCipher.isSome

/-- STATUS.ENC_ACTIVE = TXC_PRESENT & RXC_PRESENT (R19). -/
def State.encActive (s : State) : Bool := s.txcPresent && s.rxcPresent

/-- STATUS as the host reads it (R19); bits [31:10] are 0. -/
def State.statusWord (s : State) : Word :=
  s.err.zeroExtend 32 ||| bitAt 4 s.txcPresent ||| bitAt 5 s.rxcPresent ||| bitAt 6 s.encActive
    ||| bitAt 7 s.rxSeen ||| bitAt 8 s.lastTxEnc ||| bitAt 9 s.lastRxEnc

/-- ERR_STICKY as the host reads it: bit 0 and bits [31:16] are hardwired 0 (R21). -/
def State.stickyWord (s : State) : Word := s.errSticky.zeroExtend 32 &&& 0xFFFE

/-- `f & flag != 0` (R84). -/
def flagSet (f flag : Word) : Bool := f &&& flag != 0

/-- `enc ? (f | flag) : (f & ~flag)` (R92). -/
def forceFlag (f flag : Word) (enc : Bool) : Word := if enc then f ||| flag else f &&& ~~~flag

/-- `enc_tx(f)`: both instances are present and the packet is no handshake or login packet (R90). -/
def encTx (cfg : Config) (s : State) (f : Word) : Bool := s.encActive && !flagSet f cfg.hsMask

/-- On receive, the received FLAG_ENCRYPTED_CHECKSUM decides (R90, R93). -/
def encRx (cfg : Config) (f : Word) : Bool := flagSet f cfg.flags.encryptedChecksum

/-- The flag bits of the sections that can precede a connect request (R94: `fpre`). -/
def preConnectFlags (cfg : Config) : Word :=
  cfg.flags.serverSwitch ||| cfg.flags.requestRetransmit ||| cfg.flags.rejectRetransmit ||| cfg.flags.ackSequence

end Sys2Proof.Machine
end

