-- ==== Sys2Proof/Machine/CipherCmds.lean ====
section
/-! DEFINITION. The cipher commands CINIT (R72), CPEEK (R73) and CADV (R74), each for both instances. -/
namespace Sys2Proof.Machine

/-- The body of CINIT.d: seed an absent instance with ARG0 (R72). -/
def cinitBody (cfg : Config) (d : Dir) (s : State) : Except CmdError State :=
  match s.cipher d with
  | some _ => .error (.cipherPresent d)
  | none => .ok (s.setCipher d (some (cfg.isaac.init (s.x 0))))

/-- The body of CPEEK.d: RES takes the current key (R73). -/
def cpeekBody (cfg : Config) (d : Dir) (s : State) : Except CmdError State :=
  match s.cipher d with
  | none => .error (.cipherAbsent d)
  | some c => .ok (s.setRes (cfg.isaac.peek c))

/-- The body of CADV.d: consume the current key (R74). -/
def cadvBody (cfg : Config) (d : Dir) (s : State) : Except CmdError State :=
  match s.cipher d with
  | none => .error (.cipherAbsent d)
  | some c => .ok (s.setCipher d (some (cfg.isaac.advance c)))

/-- CINIT.TX (R72). -/
def execCinitTx (s : State) : Result := runCommand Config.chip (cinitBody Config.chip .tx) s

/-- CINIT.RX (R72). -/
def execCinitRx (s : State) : Result := runCommand Config.chip (cinitBody Config.chip .rx) s

/-- CPEEK.TX (R73). -/
def execCpeekTx (s : State) : Result := runCommand Config.chip (cpeekBody Config.chip .tx) s

/-- CPEEK.RX (R73). -/
def execCpeekRx (s : State) : Result := runCommand Config.chip (cpeekBody Config.chip .rx) s

/-- CADV.TX (R74). -/
def execCadvTx (s : State) : Result := runCommand Config.chip (cadvBody Config.chip .tx) s

/-- CADV.RX (R74). -/
def execCadvRx (s : State) : Result := runCommand Config.chip (cadvBody Config.chip .rx) s

end Sys2Proof.Machine
end

