-- ==== Sys2Proof/Machine/Control.lean ====
section
/-! DEFINITION. The control commands NOP (R97) and SRESET (R98). -/
namespace Sys2Proof.Machine

/-- The state with every register and cipher at its reset value and the buffers left as they are (R98, R35),
their unwritten bytes included, for which it draws nothing new (U1); the model's own fields are not the block's (DESIGN CHOICE, log 12). -/
def State.cleared (cfg : Config) (s : State) : State :=
  { State.resetWith cfg with txBuf := s.txBuf, rxBuf := s.rxBuf,
                             pending := s.pending, answers := s.answers, draws := s.draws }

/-- The state after the external reset: as `cleared`, and no buffer byte is written: the buffers' contents
are unspecified again, so every byte has a new draw (R110, R40). DESIGN CHOICE (log 2, log 12). -/
def State.afterReset (cfg : Config) (s : State) : State :=
  { State.resetWith cfg with pending := s.pending, answers := s.answers, draws := s.draws + 1 }

/-- The body of NOP (R97). -/
def nopBody (s : State) : Except CmdError State := .ok s

/-- The body of SRESET (R98). -/
def sresetBody (cfg : Config) (s : State) : Except CmdError State := .ok (s.cleared cfg)

/-- NOP: do nothing; STATUS.ERR and ERR_INFO become 0 (R97). -/
def execNop (s : State) : Result := runCommand Config.chip nopBody s

/-- SRESET: end the session and return the block to its reset state, buffers kept (R98). -/
def execSreset (s : State) : Result := runCommand Config.chip (sresetBody Config.chip) s

end Sys2Proof.Machine
end

