-- ==== Sys2Proof/Machine/Walk.lean ====
section
/-! DEFINITION. Locating the payload's sections (R60, R84, R85), the payload hash (R87) and the checksum (R89). A
reader `rd` gives one byte of the buffer; addresses and lengths are exact integers (R10). -/
namespace Sys2Proof.Machine

/-- A located section: its buffer address and its length in bytes (R84). -/
structure Section where
  addr : Nat
  len  : Nat
  deriving DecidableEq, Repr

/-- How long a section is (R60, column "length in bytes"). -/
inductive SectionKind where
  /-- A fixed number of bytes. -/
  | fixed (n : Nat)
  /-- A count word and that many words: `4 + 4n` bytes (R61). -/
  | counted
  /-- All remaining payload bytes; it ends the walk. -/
  | rest
  /-- Back-to-back fragment blocks to the end of the payload (R62, R85). -/
  | fragments
  deriving DecidableEq, Repr

/-- The optional sections in their one fixed order, each with its flag (R60). That the walk of R84 follows this table is
DEDUCED (log 15). -/
def sectionTable (cfg : Config) : List (Word × SectionKind) :=
  [(cfg.flags.serverSwitch, .fixed 8),
   (cfg.flags.requestRetransmit, .counted),
   (cfg.flags.rejectRetransmit, .counted),
   (cfg.flags.ackSequence, .fixed 4),
   (cfg.flags.connectRequest, .fixed cfg.crLen),
   (cfg.flags.loginRequest, .rest),
   (cfg.flags.connectResponse, .fixed 8),
   (cfg.flags.ciCmd, .fixed 8),
   (cfg.flags.timeSync, .fixed 8),
   (cfg.flags.echoRequest, .fixed 4),
   (cfg.flags.echoResponse, .fixed cfg.echoRespLen),
   (cfg.flags.flow, .fixed 6),
   (cfg.flags.blobFragments, .fragments)]

/-- `WalkFragments` from `at` to `stop` (R85), or the address it fails at. A block takes at least 16 bytes, so
`stop - at` is more than enough `fuel`. DEDUCED (log 15). -/
def walkFragments (rd : Nat → Byte) (stop : Nat) : (fuel at_ : Nat) → Except Nat (List Section)
  | 0, _ => .ok []
  | fuel + 1, at_ =>
    if at_ < stop then
      let sz := (readLe16 rd (at_ + 10)).toNat
      if stop - at_ < 16 then .error at_
      else if sz < 16 ∨ sz > stop - at_ then .error at_
      else (walkFragments rd stop fuel (min (at_ + align4 sz) stop)).map (⟨at_, sz⟩ :: ·)
    else .ok []

/-- The walk over a table of sections from `at` to `stop`, or the address it fails at (R84). -/
def walkTable (rd : Nat → Byte) (f : Word) (stop : Nat) :
    List (Word × SectionKind) → Nat → Except Nat (List Section)
  | [], _ => .ok []
  | (flag, kind) :: table, at_ =>
    if flagSet f flag then
      match kind with
      | .fixed n =>
        if at_ + n > stop then .error at_
        else (walkTable rd f stop table (at_ + n)).map (⟨at_, n⟩ :: ·)
      | .counted =>
        let n := 4 + 4 * (readLe32 rd at_).toNat
        if at_ + 4 > stop then .error at_
        else if at_ + n > stop then .error at_
        else (walkTable rd f stop table (at_ + n)).map (⟨at_, n⟩ :: ·)
      | .rest => .ok [⟨at_, stop - at_⟩]
      | .fragments => walkFragments rd stop (stop - at_) at_
    else walkTable rd f stop table at_

/-- `Walk(f, B, p, L)` (R84). -/
def walk (cfg : Config) (f : Word) (rd : Nat → Byte) (p len : Nat) : Except Nat (List Section) :=
  walkTable rd f (p + len) (sectionTable cfg) p

/-- The bytes that sections one after another take together. -/
def totalLength : List Section → Nat
  | [] => 0
  | x :: secs => x.len + totalLength secs

/-- The wrapping sum of the hashes of the sections' bytes (R87). -/
def sumHashes (cfg : Config) (rd : Nat → Byte) (secs : List Section) : Word :=
  secs.foldl (fun h x => h + cfg.hash32 (memRead rd x.addr x.len)) 0

/-- `PayHash(f, B, p, L)`, or TRUNCATED at the address where the walk fails (R87, R91, R99). -/
def payHash (cfg : Config) (f : Word) (rd : Nat → Byte) (p len : Nat) : Except CmdError Word :=
  match walk cfg f rd p len with
  | .ok secs => .ok (sumHashes cfg rd secs)
  | .error o => .error (.truncated (addressWord o))

/-- `Cksum(hh, ph, enc, key)` (R89). -/
def cksum (hh ph : Word) (enc : Bool) (key : Word) : Word := if enc then hh + (ph ^^^ key) else hh + ph

end Sys2Proof.Machine
end

