-- ==== Sys2Proof/Machine/Framing.lean ====
section
/-! DEFINITION. PAYHASH (R91), TXFRAME (R92), RXFRAME (R93) and CRACCEPT (R94). -/
namespace Sys2Proof.Machine

/-- The body of PAYHASH.d: RES takes the payload hash of ARG2 bytes at ARG1 for the flags ARG0 (R91). -/
def payhashBody (cfg : Config) (d : Dir) (s : State) : Except CmdError State := do
  checkRange cfg (s.xNat 1) (s.xNat 2) (s.x 1)
  let ph ← payHash cfg (s.x 0) (s.byteAt d) (s.xNat 1) (s.xNat 2)
  .ok (s.setRes ph)

/-- The header TXFRAME builds, its checksum field holding `ck`: the block's own sequence, client id and length, the
host's time and iteration (R92). -/
def txHeader (s : State) (f ck : Word) : HeaderRegs :=
  { seq := s.txSeq, flags := f, cksum := ck,
    w3 := packHalves s.clientId (hdrTime s.hdr), w4 := packHalves s.txPlen (hdrIter s.hdr) }

/-- The current key of `C_d`; 0 where the checksum is cleartext (R92, R93: `enc ? Peek(C_d) : 0`). The
second case is never reached: `enc` needs the instance. DEDUCED (log 17). -/
def keyFor (cfg : Config) (enc : Bool) (c : Option Cipher) : Word :=
  match enc, c with
  | true, some c => cfg.isaac.peek c
  | true, none => 0
  | false, _ => 0

/-- `if enc: Advance(C_d)` (R92, R93). -/
def advanceFor (cfg : Config) (enc : Bool) (c : Option Cipher) : Option Cipher :=
  if enc then c.map cfg.isaac.advance else c

/-- The flags TXFRAME transmits: FLAG_ENCRYPTED_CHECKSUM forced to `enc_tx` of the requested flags (R92). -/
def txFlags (cfg : Config) (s : State) : Word :=
  forceFlag s.hdr.flags cfg.flags.encryptedChecksum (encTx cfg s s.hdr.flags)

/-- The checksum TXFRAME inserts, `ph` being the payload hash (R92, R89). -/
def txCksum (cfg : Config) (s : State) (ph : Word) : Word :=
  let enc := encTx cfg s s.hdr.flags
  cksum (hdrHash cfg (headerBytes (txHeader s (txFlags cfg s) cfg.sentinel))) ph enc (keyFor cfg enc s.txCipher)

/-- The state TXFRAME leaves when it succeeds with the checksum `ck` (R92). -/
def txCommit (cfg : Config) (s : State) (ck : Word) : State :=
  let enc := encTx cfg s s.hdr.flags
  let hdr := txHeader s (txFlags cfg s) ck
  let s' := s.memWrite .tx 0 (headerBytes hdr)
  { s' with txLen := 20 + s.txPlen.zeroExtend 32, hdr := hdr, txSeq := s.txSeq + 1, lastTxEnc := enc,
            txCipher := advanceFor cfg enc s.txCipher, res := ck }

/-- The body of TXFRAME: finish the outgoing datagram in TXBUF (R92). -/
def txframeBody (cfg : Config) (s : State) : Except CmdError State := do
  checkRange cfg 20 s.txPlen.toNat (s.txPlen.zeroExtend 32)
  let ph ← payHash cfg (txFlags cfg s) (s.byteAt .tx) 20 s.txPlen.toNat
  .ok (txCommit cfg s (txCksum cfg s ph))

/-- The length check of a received datagram: TRUNCATED with RX_LEN when it is shorter than `20` or than `20 + size`
(R93, R94). -/
def checkReceived (s : State) : Except CmdError Unit :=
  if s.rxLen.toNat < 20 then .error (.truncated s.rxLen)
  else if s.rxLen.toNat < 20 + (readLe16 (s.byteAt .rx) 16).toNat then .error (.truncated s.rxLen)
  else .ok ()

/-- The checksum RXFRAME expects of the datagram in RXBUF, `ph` being its payload hash (R93, R89). -/
def rxExpected (cfg : Config) (s : State) (f ph : Word) : Word :=
  cksum (hdrHash cfg (memRead (s.byteAt .rx) 0 20)) ph (encRx cfg f) (keyFor cfg (encRx cfg f) s.rxCipher)

/-- The state RXFRAME leaves when it accepts the datagram with the header words `h` (R93). -/
def rxCommit (cfg : Config) (s : State) (h : HeaderRegs) : State :=
  { s with hdr := h, lastRxSeq := h.seq, rxSeen := true, lastRxEnc := encRx cfg h.flags,
           rxCipher := advanceFor cfg (encRx cfg h.flags) s.rxCipher, res := h.cksum }

/-- The body of RXFRAME: check and accept the received datagram in RXBUF (R93); the checks in the order of R103. -/
def rxframeBody (cfg : Config) (s : State) : Except CmdError State := do
  checkReceived s
  let h := readHeader (s.byteAt .rx) 0
  let ph ← payHash cfg h.flags (s.byteAt .rx) 20 (hdrSize h).toNat
  if encRx cfg h.flags && !s.rxcPresent then .error (.cipherAbsent .rx)
  else if rxExpected cfg s h.flags ph ≠ h.cksum then .error (.badChecksum (rxExpected cfg s h.flags ph))
  else .ok (rxCommit cfg s h)

/-- The fields of the connect-request section at address `at` (R63). -/
def readConnect (rd : Nat → Byte) (at_ : Nat) : ConnectRegs :=
  { timeLo := readLe32 rd at_, timeHi := readLe32 rd (at_ + 4),
    cookieLo := readLe32 rd (at_ + 8), cookieHi := readLe32 rd (at_ + 12),
    cid := readLe32 rd (at_ + 16), serverSeed := readLe32 rd (at_ + 20), clientSeed := readLe32 rd (at_ + 24) }

/-- The address of the connect-request section: after the sections that precede it (R94). -/
def connectAddress (secs : List Section) : Nat := 20 + totalLength secs

/-- The state CRACCEPT leaves when it takes the connect request with the fields `cr`: TX keyed by the client seed, RX
by the server seed (R94). -/
def crCommit (cfg : Config) (s : State) (cr : ConnectRegs) : State :=
  { s with cr := cr, clientId := lowHalf cr.cid,
           txCipher := some (cfg.isaac.init cr.clientSeed), rxCipher := some (cfg.isaac.init cr.serverSeed) }

/-- The body of CRACCEPT: take a connect request from RXBUF and seed both ciphers (R94). -/
def cracceptBody (cfg : Config) (s : State) : Except CmdError State := do
  checkReceived s
  let rd := s.byteAt .rx
  let f := readLe32 rd 4
  let size := (readLe16 rd 16).toNat
  if !flagSet f cfg.flags.connectRequest then .error (.noSection cfg.flags.connectRequest)
  else
    match walk cfg (f &&& preConnectFlags cfg) rd 20 size with
    | .error o => .error (.truncated (addressWord o))
    | .ok secs =>
      let at_ := connectAddress secs
      if at_ + 28 > 20 + size then .error (.truncated (addressWord at_))
      else if s.txcPresent then .error (.cipherPresent .tx)
      else if s.rxcPresent then .error (.cipherPresent .rx)
      else .ok (crCommit cfg s (readConnect rd at_))

/-- PAYHASH.TX (R91). -/
def execPayhashTx (s : State) : Result := runCommand Config.chip (payhashBody Config.chip .tx) s

/-- PAYHASH.RX (R91). -/
def execPayhashRx (s : State) : Result := runCommand Config.chip (payhashBody Config.chip .rx) s

/-- TXFRAME (R92). -/
def execTxframe (s : State) : Result := runCommand Config.chip (txframeBody Config.chip) s

/-- RXFRAME (R93). -/
def execRxframe (s : State) : Result := runCommand Config.chip (rxframeBody Config.chip) s

/-- CRACCEPT (R94). -/
def execCraccept (s : State) : Result := runCommand Config.chip (cracceptBody Config.chip) s

end Sys2Proof.Machine
end

