-- ==== Sys2Proof/Machine/HeaderCmds.lean ====
section
/-! DEFINITION. The header formatter and parser: HPACK (R78), HUNPACK (R79), FPACK (R80), FUNPACK (R81), and the plain
hash commands HASH32 (R82) and HDRHASH (R83), each for both buffers. -/
namespace Sys2Proof.Machine

/-- The body of HPACK.d: the header field registers to `B_d[0:20]` (R78). -/
def hpackBody (d : Dir) (s : State) : Except CmdError State := .ok (s.memWrite d 0 (headerBytes s.hdr))

/-- The body of HUNPACK.d: `B_d[0:20]` to the header field registers (R79). -/
def hunpackBody (d : Dir) (s : State) : Except CmdError State := .ok (s.setHdr (readHeader (s.byteAt d) 0))

/-- The body of FPACK.d: the fragment field registers to `B_d[ARG0 : ARG0+16]` (R80). -/
def fpackBody (cfg : Config) (d : Dir) (s : State) : Except CmdError State := do
  checkRange cfg (s.xNat 0) 16 (s.x 0)
  .ok (s.memWrite d (s.xNat 0) (fragmentBytes s.frg))

/-- The body of FUNPACK.d: `B_d[ARG0 : ARG0+16]` to the fragment field registers (R81). -/
def funpackBody (cfg : Config) (d : Dir) (s : State) : Except CmdError State := do
  checkRange cfg (s.xNat 0) 16 (s.x 0)
  .ok (s.setFrg (readFragment (s.byteAt d) (s.xNat 0)))

/-- The body of HASH32.d: RES takes the hash of ARG1 bytes at ARG0 (R82). -/
def hash32Body (cfg : Config) (d : Dir) (s : State) : Except CmdError State := do
  checkRange cfg (s.xNat 0) (s.xNat 1) (s.x 0)
  .ok (s.setRes (cfg.hash32 (memRead (s.byteAt d) (s.xNat 0) (s.xNat 1))))

/-- The body of HDRHASH.d: RES takes the header hash of `B_d[0:20]` (R83). -/
def hdrhashBody (cfg : Config) (d : Dir) (s : State) : Except CmdError State :=
  .ok (s.setRes (hdrHash cfg (memRead (s.byteAt d) 0 20)))

/-- HPACK.TX (R78). -/
def execHpackTx (s : State) : Result := runCommand Config.chip (hpackBody .tx) s

/-- HPACK.RX (R78). -/
def execHpackRx (s : State) : Result := runCommand Config.chip (hpackBody .rx) s

/-- HUNPACK.TX (R79). -/
def execHunpackTx (s : State) : Result := runCommand Config.chip (hunpackBody .tx) s

/-- HUNPACK.RX (R79). -/
def execHunpackRx (s : State) : Result := runCommand Config.chip (hunpackBody .rx) s

/-- FPACK.TX (R80). -/
def execFpackTx (s : State) : Result := runCommand Config.chip (fpackBody Config.chip .tx) s

/-- FPACK.RX (R80). -/
def execFpackRx (s : State) : Result := runCommand Config.chip (fpackBody Config.chip .rx) s

/-- FUNPACK.TX (R81). -/
def execFunpackTx (s : State) : Result := runCommand Config.chip (funpackBody Config.chip .tx) s

/-- FUNPACK.RX (R81). -/
def execFunpackRx (s : State) : Result := runCommand Config.chip (funpackBody Config.chip .rx) s

/-- HASH32.TX (R82). -/
def execHash32Tx (s : State) : Result := runCommand Config.chip (hash32Body Config.chip .tx) s

/-- HASH32.RX (R82). -/
def execHash32Rx (s : State) : Result := runCommand Config.chip (hash32Body Config.chip .rx) s

/-- HDRHASH.TX (R83). -/
def execHdrhashTx (s : State) : Result := runCommand Config.chip (hdrhashBody Config.chip .tx) s

/-- HDRHASH.RX (R83). -/
def execHdrhashRx (s : State) : Result := runCommand Config.chip (hdrhashBody Config.chip .rx) s

end Sys2Proof.Machine
end

