-- ==== Sys2Proof/Machine/Dispatch.lean ====
section
/-! DEFINITION. One arm per command (R53): the meaning of each of the 25 rows of spec/opcode_table.json. -/
namespace Sys2Proof.Machine

def exec (i : Instr) (s : State) : Host.Outcome State Fault Refusal :=
  match i with
  | .nop => Sys2Proof.Machine.execNop s
  | .cinitTx => Sys2Proof.Machine.execCinitTx s
  | .cinitRx => Sys2Proof.Machine.execCinitRx s
  | .cpeekTx => Sys2Proof.Machine.execCpeekTx s
  | .cpeekRx => Sys2Proof.Machine.execCpeekRx s
  | .cadvTx => Sys2Proof.Machine.execCadvTx s
  | .cadvRx => Sys2Proof.Machine.execCadvRx s
  | .hpackTx => Sys2Proof.Machine.execHpackTx s
  | .hpackRx => Sys2Proof.Machine.execHpackRx s
  | .hunpackTx => Sys2Proof.Machine.execHunpackTx s
  | .hunpackRx => Sys2Proof.Machine.execHunpackRx s
  | .fpackTx => Sys2Proof.Machine.execFpackTx s
  | .fpackRx => Sys2Proof.Machine.execFpackRx s
  | .funpackTx => Sys2Proof.Machine.execFunpackTx s
  | .funpackRx => Sys2Proof.Machine.execFunpackRx s
  | .hash32Tx => Sys2Proof.Machine.execHash32Tx s
  | .hash32Rx => Sys2Proof.Machine.execHash32Rx s
  | .hdrhashTx => Sys2Proof.Machine.execHdrhashTx s
  | .hdrhashRx => Sys2Proof.Machine.execHdrhashRx s
  | .payhashTx => Sys2Proof.Machine.execPayhashTx s
  | .payhashRx => Sys2Proof.Machine.execPayhashRx s
  | .craccept => Sys2Proof.Machine.execCraccept s
  | .txframe => Sys2Proof.Machine.execTxframe s
  | .rxframe => Sys2Proof.Machine.execRxframe s
  | .sreset => Sys2Proof.Machine.execSreset s

end Sys2Proof.Machine
end

