-- ==== Sys2Proof/Machine/Registers.lean ====
section
/-! DEFINITION. The register window (R17, R18): the registers' names, offsets and access rights, and THE operation that
reads and THE operation that writes a register for the host. -/
namespace Sys2Proof.Machine

/-- The host-visible registers (R17). -/
inductive Reg where
  | cmd
  | status
  | arg0
  | arg1
  | arg2
  | res
  | errInfo
  | errSticky
  | txSeq
  | lastRxSeq
  | clientId
  | txPlen
  | txLen
  | rxLen
  | hdrSeq
  | hdrFlags
  | hdrCksum
  | hdrW3
  | hdrW4
  | frgSeq
  | frgId
  | frgW2
  | frgW3
  | crTimeLo
  | crTimeHi
  | crCookieLo
  | crCookieHi
  | crCid
  | crSseed
  | crCseed
  deriving DecidableEq, Repr

/-- What the host may do with a register (R17, column "host access"). -/
inductive Access where
  | w
  | r
  | rw
  deriving DecidableEq, Repr

/-- The register map: offset, register, host access (R17). -/
def regMap : List (Nat × Reg × Access) :=
  [(0x00, .cmd, .w), (0x04, .status, .r), (0x08, .arg0, .rw), (0x0C, .arg1, .rw), (0x10, .arg2, .rw),
   (0x14, .res, .r), (0x18, .errInfo, .r), (0x1C, .errSticky, .r), (0x20, .txSeq, .r), (0x24, .lastRxSeq, .r),
   (0x28, .clientId, .rw), (0x2C, .txPlen, .rw), (0x30, .txLen, .r), (0x34, .rxLen, .rw),
   (0x38, .hdrSeq, .rw), (0x3C, .hdrFlags, .rw), (0x40, .hdrCksum, .rw), (0x44, .hdrW3, .rw), (0x48, .hdrW4, .rw),
   (0x4C, .frgSeq, .rw), (0x50, .frgId, .rw), (0x54, .frgW2, .rw), (0x58, .frgW3, .rw),
   (0x5C, .crTimeLo, .r), (0x60, .crTimeHi, .r), (0x64, .crCookieLo, .r), (0x68, .crCookieHi, .r),
   (0x6C, .crCid, .r), (0x70, .crSseed, .r), (0x74, .crCseed, .r)]

/-- The size of the register window in bytes (R36). -/
def windowSize : Nat := 256

/-- The register at an offset with its access right; none at a reserved offset (R17, R18). -/
def regAt (offset : Nat) : Option (Reg × Access) := regMap.lookup offset

/-- What a host read of the register returns (R15 to R30; CMD reads 0, R18). -/
def State.readReg (s : State) (r : Reg) : Word :=
  match r with
  | .cmd        => 0
  | .status     => s.statusWord
  | .arg0       => s.arg0
  | .arg1       => s.arg1
  | .arg2       => s.arg2
  | .res        => s.res
  | .errInfo    => s.errInfo
  | .errSticky  => s.stickyWord
  | .txSeq      => s.txSeq
  | .lastRxSeq  => s.lastRxSeq
  | .clientId   => s.clientId.zeroExtend 32
  | .txPlen     => s.txPlen.zeroExtend 32
  | .txLen      => s.txLen
  | .rxLen      => s.rxLen
  | .hdrSeq     => s.hdr.seq
  | .hdrFlags   => s.hdr.flags
  | .hdrCksum   => s.hdr.cksum
  | .hdrW3      => s.hdr.w3
  | .hdrW4      => s.hdr.w4
  | .frgSeq     => s.frg.seq
  | .frgId      => s.frg.id
  | .frgW2      => s.frg.w2
  | .frgW3      => s.frg.w3
  | .crTimeLo   => s.cr.timeLo
  | .crTimeHi   => s.cr.timeHi
  | .crCookieLo => s.cr.cookieLo
  | .crCookieHi => s.cr.cookieHi
  | .crCid      => s.cr.cid
  | .crSseed    => s.cr.serverSeed
  | .crCseed    => s.cr.clientSeed

/-- `min(v, BUF_SIZE)`: what a host write of `v` stores in RX_LEN (R27). -/
def clampLen (cfg : Config) (v : Word) : Word := if v.toNat ≤ cfg.bufSize then v else BitVec.ofNat 32 cfg.bufSize

/-- What a host write of `v` to the register stores: a write to a read-only register is ignored (R18); CLIENT_ID and
TX_PLEN store `v[15:0]` (R24, R25), RX_LEN stores `min(v, BUF_SIZE)` (R27). A write to CMD stores nothing; it issues a
command, which `takeEvent` does (R17, R45). -/
def State.writeReg (cfg : Config) (s : State) (r : Reg) (v : Word) : State :=
  match r with
  | .cmd        => s
  | .status     => s
  | .arg0       => { s with arg0 := v }
  | .arg1       => { s with arg1 := v }
  | .arg2       => { s with arg2 := v }
  | .res        => s
  | .errInfo    => s
  | .errSticky  => s
  | .txSeq      => s
  | .lastRxSeq  => s
  | .clientId   => { s with clientId := lowHalf v }
  | .txPlen     => { s with txPlen := lowHalf v }
  | .txLen      => s
  | .rxLen      => { s with rxLen := clampLen cfg v }
  | .hdrSeq     => { s with hdr := { s.hdr with seq := v } }
  | .hdrFlags   => { s with hdr := { s.hdr with flags := v } }
  | .hdrCksum   => { s with hdr := { s.hdr with cksum := v } }
  | .hdrW3      => { s with hdr := { s.hdr with w3 := v } }
  | .hdrW4      => { s with hdr := { s.hdr with w4 := v } }
  | .frgSeq     => { s with frg := { s.frg with seq := v } }
  | .frgId      => { s with frg := { s.frg with id := v } }
  | .frgW2      => { s with frg := { s.frg with w2 := v } }
  | .frgW3      => { s with frg := { s.frg with w3 := v } }
  | .crTimeLo   => s
  | .crTimeHi   => s
  | .crCookieLo => s
  | .crCookieHi => s
  | .crCid      => s
  | .crSseed    => s
  | .crCseed    => s

/-- The register of the map is written only where the host may write it; every other offset ignores the write (R18). -/
def State.writeOffset (cfg : Config) (s : State) (offset : Nat) (v : Word) : State :=
  match regAt offset with
  | some (r, .rw) => s.writeReg cfg r v
  | some (_, .w) => s
  | some (_, .r) => s
  | none => s

/-- A host read at an offset: a reserved offset returns 0 (R18). -/
def State.readOffset (s : State) (offset : Nat) : Word :=
  match regAt offset with
  | some (r, _) => s.readReg r
  | none => 0

end Sys2Proof.Machine
end

