-- ==== Sys2Proof/Machine/HostPort.lean ====
section
/-! DEFINITION. What one event of the host does to the block (R17, R18, R38, R45, R48, R115): the command word written to
CMD is decoded and run, every other access is performed. -/
namespace Sys2Proof.Machine

/-- Is this event a register access that is not an aligned 32-bit one (R18, R43)? -/
def badForm (offset width : Nat) : Bool := width != 4 || offset % 4 != 0

/-- A write of a word to CMD issues the command; a word that is no command raises ILLEGAL_CMD with the word (R17,
R54). -/
def issue (w : Word) (s : State) : Result :=
  match decodeWord w with
  | .ok i => exec i s
  | .error _ => runCommand Config.chip (fun _ => .error (.illegalCmd w)) s

/-- A host register write at an aligned offset of the window: CMD issues a command, any other offset stores (R45). -/
def hostWrite (offset : Nat) (v : Word) (s : State) : Result :=
  match regAt offset with
  | some (.cmd, _) => issue v s
  | some (_, _) => .next (s.writeOffset Config.chip offset v)
  | none => .next (s.writeOffset Config.chip offset v)

/-- Hand the value of a read to the host (R45: a read has no side effect on the block). -/
def State.answer (s : State) (a : HostAnswer) : State := { s with answers := a :: s.answers }

/-- One host event, performed in full (R44, R48, R116). The order of the checks is a DESIGN CHOICE (log 7). -/
def takeEvent (e : HostEvent) (s : State) : Result :=
  if Config.chip.wf then
    match e with
    | .regWrite offset width v =>
      if badForm offset width then .refused .registerAccessForm
      else if offset < windowSize then hostWrite offset v s
      else .fault .noSuchAddress
    | .regRead offset width =>
      if badForm offset width then .refused .registerAccessForm
      else if offset < windowSize then .next (s.answer (.word (s.readOffset offset)))
      else .fault .noSuchAddress
    | .bufWrite d a v =>
      if a < Config.chip.bufSize then .next (s.memWrite d a [v]) else .fault .noSuchAddress
    | .bufRead d a =>
      if a < Config.chip.bufSize then .next (s.answer (.byte (s.byteAt d a))) else .fault .noSuchAddress
    | .reset => .next (s.afterReset Config.chip)
    | .concurrent => .refused .concurrentAccess
  else .refused .badConfiguration

/-- Take the oldest pending event off the list. DESIGN CHOICE (log 1). -/
def State.taken (s : State) (rest : List HostEvent) : State := { s with pending := rest }

/-- The block is idle until the host's next event (R111); otherwise it takes the oldest pending one (R48).
DESIGN CHOICE (log 9). -/
def stepBlock (s : State) : Result :=
  match s.pending with
  | [] => .next s
  | e :: rest => takeEvent e (s.taken rest)

/-- The event that issues a command word (R16, R17). -/
def cmdEvent (w : Word) : HostEvent := .regWrite 0x00 4 w

/-- The host's list with a command word as its oldest event. -/
def State.withCommand (s : State) (w : Word) : State := { s with pending := cmdEvent w :: s.pending }

end Sys2Proof.Machine
end

