-- ==== Sys2Proof/Machine/Step.lean ====
section
/-! DEFINITION. One step of the machine: the host's next event (R48, R116). The block fetches nothing (R16); a command
comes to it as a write to CMD, so that is what `withFetchWord` places. -/
namespace Sys2Proof.Machine

def step (s : State) : Host.Outcome State Fault Refusal := stepBlock s

/-- `s` with a CMD write of the word as the host's very next event. A command is one 32-bit word, its bits above
`nbits` zero (R51). DESIGN CHOICE (log 1): the block has no memory it fetches from. -/
def State.withFetchWord (s : State) (nbits w : Nat) : State := s.withCommand (BitVec.ofNat 32 (w % 2 ^ nbits))

end Sys2Proof.Machine
end

