-- ==== Sys2Proof/Machine/HostProgram.lean ====
section
/-! DEFINITION. The host's program notation (R55) and its pseudo-instructions (R56) as lists of host events, and the
datagram the host sends after a TXFRAME (R38). -/
namespace Sys2Proof.Machine

/-- A command statement: its encoding written to CMD (R55). -/
def issueStmt (i : Instr) : List HostEvent := [cmdEvent (encode i)]

/-- `WR <reg>, <imm32>`, the register given by its offset (R55). -/
def wr (offset : Nat) (v : Word) : List HostEvent := [.regWrite offset 4 v]

/-- `RD <reg>` (R55). -/
def rdStmt (offset : Nat) : List HostEvent := [.regRead offset 4]

/-- `WB <TX|RX>, <addr>, <b0> <b1> ...`: consecutive buffer bytes (R55). -/
def wb (d : Dir) (a : Nat) : List Byte → List HostEvent
  | [] => []
  | b :: bs => .bufWrite d a b :: wb d (a + 1) bs

/-- The command of a two-direction row (R55: the suffix `.TX` or `.RX`). -/
def forDir (d : Dir) (tx rx : Instr) : Instr :=
  match d with
  | .tx => tx
  | .rx => rx

/-- `CNEXT.d`: take the next keystream word and consume it (R56). -/
def cnext (d : Dir) : List HostEvent :=
  issueStmt (forDir d .cpeekTx .cpeekRx) ++ issueStmt (forDir d .cadvTx .cadvRx)

/-- `CINIT.d <seed>` (R56). -/
def cinitSeed (d : Dir) (seed : Word) : List HostEvent := wr 0x08 seed ++ issueStmt (forDir d .cinitTx .cinitRx)

/-- `HASH32.d <addr>, <len>` (R56). -/
def hash32Range (d : Dir) (a n : Word) : List HostEvent :=
  wr 0x08 a ++ wr 0x0C n ++ issueStmt (forDir d .hash32Tx .hash32Rx)

/-- `PAYHASH.d <flags>, <addr>, <len>` (R56). -/
def payhashRange (d : Dir) (f a n : Word) : List HostEvent :=
  wr 0x08 f ++ wr 0x0C a ++ wr 0x10 n ++ issueStmt (forDir d .payhashTx .payhashRx)

/-- `FPACK.d <addr>` (R56). -/
def fpackAt (d : Dir) (a : Word) : List HostEvent := wr 0x08 a ++ issueStmt (forDir d .fpackTx .fpackRx)

/-- `FUNPACK.d <addr>` (R56). -/
def funpackAt (d : Dir) (a : Word) : List HostEvent := wr 0x08 a ++ issueStmt (forDir d .funpackTx .funpackRx)

/-- What the host sends after a successful TXFRAME: bytes `0 .. TX_LEN-1` of TXBUF (R26, R38). -/
def State.outgoing (s : State) : List Byte := memRead (s.byteAt .tx) 0 s.txLen.toNat

end Sys2Proof.Machine
end

