-- ==== Sys2Proof/Safety.lean ====
section
/-! DEFINITION. The terms the claims use: the host's legal accesses, the invariant of the block's state, and clear
readings of rules that claims compare the machine with (the pseudocode of R84 and R85 line by line, the blocks of
R69). -/
namespace Sys2Proof.Machine

/-- An access the interface of the block allows (R18, R36, R38, R49). -/
def HostEvent.legal (e : HostEvent) : Bool :=
  match e with
  | .regWrite offset width _ => width == 4 && offset % 4 == 0 && decide (offset < 256)
  | .regRead offset width => width == 4 && offset % 4 == 0 && decide (offset < 256)
  | .bufWrite _ a _ => decide (a < 65555)
  | .bufRead _ a => decide (a < 65555)
  | .reset => true
  | .concurrent => false

/-- Every pending event of the host is one the interface allows. -/
def State.legalInput (s : State) : Bool := s.pending.all HostEvent.legal

/-- What holds of the block's state from reset on, whatever the host does. -/
structure State.Inv (s : State) : Prop where
  /-- TXBUF keeps its canonical form. -/
  txBufWf : Memory.wf s.txBuf = true
  /-- RXBUF keeps its canonical form. -/
  rxBufWf : Memory.wf s.rxBuf = true
  /-- No byte of TXBUF lies at or past `BUF_SIZE` (R37). -/
  txBufBelow : Memory.below Config.chip.bufSize s.txBuf = true
  /-- No byte of RXBUF lies at or past `BUF_SIZE` (R37). -/
  rxBufBelow : Memory.below Config.chip.bufSize s.rxBuf = true
  /-- RX_LEN is a length that fits the buffer (R27). -/
  rxLenFits : s.rxLen.toNat ≤ Config.chip.bufSize
  /-- TX_LEN is 0 or the length of a datagram that fits the buffer (R26). -/
  txLenFits : s.txLen.toNat ≤ Config.chip.bufSize ∧ (s.txLen = 0 ∨ 20 ≤ s.txLen.toNat)
  /-- Error codes 8 to 15 are never produced (R99). -/
  errCode : s.err.toNat ≤ 7
  /-- After a successful command ERR_INFO is 0 (R20). -/
  infoOfOk : s.err = 0 → s.errInfo = 0
  /-- The last error's bit is set in ERR_STICKY (R21). -/
  stickyOfErr : s.err ≠ 0 → s.errSticky.getLsbD s.err.toNat = true
  /-- ERR_STICKY has no bit of a code that is never produced (R21, R99). -/
  stickyCodes : s.errSticky &&& 0xFF01 = 0
  /-- An encrypted transmit needed both ciphers, and they stay until SRESET or reset (R32, R90). -/
  txEncPresent : s.lastTxEnc = true → s.txCipher.isSome = true ∧ s.rxCipher.isSome = true
  /-- An encrypted receive needed the RX cipher, and it stays until SRESET or reset (R32, R93). -/
  rxEncPresent : s.lastRxEnc = true → s.rxCipher.isSome = true
  /-- Until a datagram is accepted, LAST_RX_SEQ and LAST_RX_ENC hold their reset values (R19, R23). -/
  unseen : s.rxSeen = false → s.lastRxSeq = 0 ∧ s.lastRxEnc = false

/-! ### The pseudocode of the walk, line by line (R84, R85) -/

/-- The variables `at` and `out` of R84. -/
structure WalkVars where
  at_ : Nat
  out : List Section

/-- `Fixed(flag, n)` (R84). -/
def fixedLine (f : Word) (stop : Nat) (flag : Word) (n : Nat) (w : WalkVars) : Except Nat WalkVars :=
  if f &&& flag ≠ 0 then
    if w.at_ + n > stop then .error w.at_ else .ok { at_ := w.at_ + n, out := w.out ++ [⟨w.at_, n⟩] }
  else .ok w

/-- `Retx(flag)` (R84). -/
def retxLine (f : Word) (rd : Nat → Byte) (stop : Nat) (flag : Word) (w : WalkVars) : Except Nat WalkVars :=
  if f &&& flag ≠ 0 then
    if w.at_ + 4 > stop then .error w.at_
    else
      let n := 4 + 4 * (readLe32 rd w.at_).toNat
      if w.at_ + n > stop then .error w.at_ else .ok { at_ := w.at_ + n, out := w.out ++ [⟨w.at_, n⟩] }
  else .ok w

/-- The `while` loop of R85; `fuel` bounds its iterations, which the caller gives one more of than the payload has
bytes. -/
def fragmentLoop (rd : Nat → Byte) (stop : Nat) : (fuel : Nat) → WalkVars → Except Nat (List Section)
  | 0, w => .ok w.out
  | fuel + 1, w =>
    if w.at_ < stop then
      if stop - w.at_ < 16 then .error w.at_
      else
        let sz := (readLe16 rd (w.at_ + 10)).toNat
        if sz < 16 ∨ sz > stop - w.at_ then .error w.at_
        else fragmentLoop rd stop fuel
          { at_ := min (w.at_ + align4 sz) stop, out := w.out ++ [⟨w.at_, sz⟩] }
    else .ok w.out

/-- `Walk(f, B, p, L)` as R84 writes it. -/
def walkPseudocode (cfg : Config) (f : Word) (rd : Nat → Byte) (p len : Nat) : Except Nat (List Section) := do
  let stop := p + len
  let w ← fixedLine f stop cfg.flags.serverSwitch 8 { at_ := p, out := [] }
  let w ← retxLine f rd stop cfg.flags.requestRetransmit w
  let w ← retxLine f rd stop cfg.flags.rejectRetransmit w
  let w ← fixedLine f stop cfg.flags.ackSequence 4 w
  let w ← fixedLine f stop cfg.flags.connectRequest cfg.crLen w
  if f &&& cfg.flags.loginRequest ≠ 0 then
    .ok (w.out ++ [⟨w.at_, stop - w.at_⟩])
  else do
    let w ← fixedLine f stop cfg.flags.connectResponse 8 w
    let w ← fixedLine f stop cfg.flags.ciCmd 8 w
    let w ← fixedLine f stop cfg.flags.timeSync 8 w
    let w ← fixedLine f stop cfg.flags.echoRequest 4 w
    let w ← fixedLine f stop cfg.flags.echoResponse cfg.echoRespLen w
    let w ← fixedLine f stop cfg.flags.flow 6 w
    if f &&& cfg.flags.blobFragments ≠ 0 then fragmentLoop rd stop (len + 1) w else .ok w.out

/-! ### Sums -/

/-- The wrapping sum of 32-bit words (R10). -/
def wordSum : List Word → Word
  | [] => 0
  | w :: ws => w + wordSum ws

/-- The wrapping sum of the 32-bit hashes of the sections' bytes (R87). -/
def sectionHashSum (rd : Nat → Byte) (secs : List Section) : Word :=
  wordSum (secs.map fun x => hash32 (memRead rd x.addr x.len))

/-! ### The keystream's blocks (R69) -/

/-- Block number `n` after `Init(seed)`: block 0 is the one `Init` generated (R69). -/
def keyBlock (seed : Word) : Nat → Cipher
  | 0 => isaacInit seed
  | n + 1 => scramble (keyBlock seed n)

/-- The instance after `Init(seed)` and `k` calls of `Advance` (R69, R70). -/
def advanced (seed : Word) : Nat → Cipher
  | 0 => isaacInit seed
  | k + 1 => advance (advanced seed k)

end Sys2Proof.Machine
end

