-- ==== Sys2Proof/Certificates/Slice0/Obligations.lean ====
section
/-! DEFINITION. The statements for the provers. Each docstring names the rules of spec/ it formalises; the parameter
values are the defaults of R7, written out or named `Config.chip` (log 5). -/

open Sys2Proof Sys2Proof.Machine

/-! ### Encoding -/

/-- R51, R53, R55: the decoder answers a command for exactly one word, the one the encoder gives (all 2^32 words, all
25 commands). -/
def Obligations.DecodeInvertsEncodeExactly : Prop :=
  ∀ (w : Word) (i : Instr), decodeWord w = .ok i ↔ w = encode i

/-- R53: one word written out from the command map for every row. -/
def Obligations.CommandMapWordsDecode : Prop :=
  decodeWord 0x00000000 = .ok .nop ∧
  decodeWord 0x00000001 = .ok .cinitTx ∧ decodeWord 0x00000101 = .ok .cinitRx ∧
  decodeWord 0x00000002 = .ok .cpeekTx ∧ decodeWord 0x00000102 = .ok .cpeekRx ∧
  decodeWord 0x00000003 = .ok .cadvTx ∧ decodeWord 0x00000103 = .ok .cadvRx ∧
  decodeWord 0x00000010 = .ok .hpackTx ∧ decodeWord 0x00000110 = .ok .hpackRx ∧
  decodeWord 0x00000011 = .ok .hunpackTx ∧ decodeWord 0x00000111 = .ok .hunpackRx ∧
  decodeWord 0x00000012 = .ok .fpackTx ∧ decodeWord 0x00000112 = .ok .fpackRx ∧
  decodeWord 0x00000013 = .ok .funpackTx ∧ decodeWord 0x00000113 = .ok .funpackRx ∧
  decodeWord 0x00000020 = .ok .hash32Tx ∧ decodeWord 0x00000120 = .ok .hash32Rx ∧
  decodeWord 0x00000021 = .ok .hdrhashTx ∧ decodeWord 0x00000121 = .ok .hdrhashRx ∧
  decodeWord 0x00000022 = .ok .payhashTx ∧ decodeWord 0x00000122 = .ok .payhashRx ∧
  decodeWord 0x00000123 = .ok .craccept ∧ decodeWord 0x00000030 = .ok .txframe ∧
  decodeWord 0x00000131 = .ok .rxframe ∧ decodeWord 0x0000003F = .ok .sreset

/-- R54: a word is no command exactly when its OP is in no row, or its D is not allowed by the row, or a reserved bit is
set; such a word written to CMD raises ILLEGAL_CMD with ERR_INFO = the word and changes nothing else of the block. -/
def Obligations.WordsOutsideTheMapRaiseIllegalCmd : Prop :=
  ∀ (s : State) (w : Word),
    let op := w.extractLsb' 0 8
    let d := w.extractLsb' 8 1
    let rsv := w.extractLsb' 9 23
    let illegal :=
      (op ∉ ([0x00, 0x01, 0x02, 0x03, 0x10, 0x11, 0x12, 0x13, 0x20, 0x21, 0x22, 0x23, 0x30, 0x31, 0x3F] :
          List (BitVec 8))) ∨
      (op ∈ ([0x00, 0x30, 0x3F] : List (BitVec 8)) ∧ d = 1) ∨
      (op ∈ ([0x23, 0x31] : List (BitVec 8)) ∧ d = 0) ∨ rsv ≠ 0
    (illegal ↔ ∀ i, decodeWord w ≠ .ok i) ∧
    (illegal → step (s.withCommand w) =
      .next { s with err := 1, errInfo := w, errSticky := s.errSticky ||| 0x0002 })

/-! ### The step and the host's accesses -/

/-- R16, R17, R48: a word written to CMD that decodes to a command runs that command, in the state in which the event is
taken off the host's list; with nothing pending the block stays as it is (R111, log 9). -/
def Obligations.StepRunsTheDecodedCommand : Prop :=
  (∀ (s : State) (w : Word) (i : Instr) (rest : List HostEvent),
    decodeWord w = .ok i → s.pending = .regWrite 0x00 4 w :: rest →
      step s = exec i { s with pending := rest }) ∧
  (∀ s : State, s.pending = [] → step s = .next s)

/-- R17, R18, R24, R25, R27, R28, R29, R45: a host write at an aligned offset other than CMD stores the value in the
register that R17 puts there, field by field, as its rule says (CLIENT_ID and TX_PLEN keep `v[15:0]`, RX_LEN keeps
`min(v, BUF_SIZE)`), is ignored at a read-only or reserved offset, and changes nothing else; the offset reads back what
was stored, and every other offset what it read before. -/
def Obligations.HostWriteStoresOnlyItsRegister : Prop :=
  ∀ (s : State) (off : Nat) (v : Word) (rest : List HostEvent),
    s.pending = .regWrite off 4 v :: rest → off % 4 = 0 → off < 256 → off ≠ 0 →
    ∃ t, step s = .next t ∧
      (let u := { s with pending := rest }
       t = (if off = 0x08 then { u with arg0 := v }
            else if off = 0x0C then { u with arg1 := v }
            else if off = 0x10 then { u with arg2 := v }
            else if off = 0x28 then { u with clientId := v.extractLsb' 0 16 }
            else if off = 0x2C then { u with txPlen := v.extractLsb' 0 16 }
            else if off = 0x34 then { u with rxLen := if v.toNat ≤ 65555 then v else 65555 }
            else if off = 0x38 then { u with hdr := { s.hdr with seq := v } }
            else if off = 0x3C then { u with hdr := { s.hdr with flags := v } }
            else if off = 0x40 then { u with hdr := { s.hdr with cksum := v } }
            else if off = 0x44 then { u with hdr := { s.hdr with w3 := v } }
            else if off = 0x48 then { u with hdr := { s.hdr with w4 := v } }
            else if off = 0x4C then { u with frg := { s.frg with seq := v } }
            else if off = 0x50 then { u with frg := { s.frg with id := v } }
            else if off = 0x54 then { u with frg := { s.frg with w2 := v } }
            else if off = 0x58 then { u with frg := { s.frg with w3 := v } }
            else u)) ∧
      t.readOffset off =
        (if off ∈ [0x08, 0x0C, 0x10, 0x38, 0x3C, 0x40, 0x44, 0x48, 0x4C, 0x50, 0x54, 0x58] then v
         else if off = 0x28 ∨ off = 0x2C then v &&& 0xFFFF
         else if off = 0x34 then (if v.toNat ≤ 65555 then v else 65555)
         else s.readOffset off) ∧
      (∀ o, o ≠ off → t.readOffset o = s.readOffset o) ∧
      t.txCipher = s.txCipher ∧ t.rxCipher = s.rxCipher ∧ t.txBuf = s.txBuf ∧ t.rxBuf = s.rxBuf ∧
      t.pending = rest ∧ t.answers = s.answers ∧ t.draws = s.draws

/-- R15, R17 to R30, R45: a host read of an aligned offset hands the register's value over and changes nothing of the
block, so it can be repeated with the same result; each of the thirty offsets of R17 reads its own register, CMD and the
reserved offsets read 0. -/
def Obligations.HostReadReturnsRegisterUnchanged : Prop :=
  (∀ (s : State) (off : Nat) (rest : List HostEvent),
    s.pending = .regRead off 4 :: rest → off % 4 = 0 → off < 256 →
    step s = .next { s with pending := rest, answers := .word (s.readOffset off) :: s.answers } ∧
    (off = 0x00 ∨ 0x78 ≤ off → s.readOffset off = 0)) ∧
  ∀ s : State,
    s.readOffset 0x00 = 0 ∧
    s.readOffset 0x04 = (0 : BitVec 22) ++ BitVec.ofBool s.lastRxEnc ++ BitVec.ofBool s.lastTxEnc ++
      BitVec.ofBool s.rxSeen ++ BitVec.ofBool (s.txCipher.isSome && s.rxCipher.isSome) ++
      BitVec.ofBool s.rxCipher.isSome ++ BitVec.ofBool s.txCipher.isSome ++ s.err ∧
    s.readOffset 0x08 = s.arg0 ∧ s.readOffset 0x0C = s.arg1 ∧ s.readOffset 0x10 = s.arg2 ∧
    s.readOffset 0x14 = s.res ∧ s.readOffset 0x18 = s.errInfo ∧
    s.readOffset 0x1C = s.errSticky.zeroExtend 32 &&& 0x0000FFFE ∧
    s.readOffset 0x20 = s.txSeq ∧ s.readOffset 0x24 = s.lastRxSeq ∧
    s.readOffset 0x28 = s.clientId.zeroExtend 32 ∧ s.readOffset 0x2C = s.txPlen.zeroExtend 32 ∧
    s.readOffset 0x30 = s.txLen ∧ s.readOffset 0x34 = s.rxLen ∧
    s.readOffset 0x38 = s.hdr.seq ∧ s.readOffset 0x3C = s.hdr.flags ∧ s.readOffset 0x40 = s.hdr.cksum ∧
    s.readOffset 0x44 = s.hdr.w3 ∧ s.readOffset 0x48 = s.hdr.w4 ∧
    s.readOffset 0x4C = s.frg.seq ∧ s.readOffset 0x50 = s.frg.id ∧ s.readOffset 0x54 = s.frg.w2 ∧
    s.readOffset 0x58 = s.frg.w3 ∧
    s.readOffset 0x5C = s.cr.timeLo ∧ s.readOffset 0x60 = s.cr.timeHi ∧ s.readOffset 0x64 = s.cr.cookieLo ∧
    s.readOffset 0x68 = s.cr.cookieHi ∧ s.readOffset 0x6C = s.cr.cid ∧ s.readOffset 0x70 = s.cr.serverSeed ∧
    s.readOffset 0x74 = s.cr.clientSeed

/-- R18, R36, R49: the host accesses that are no part of the interface stop the machine, each under its own name: a
register access that is not an aligned 32-bit one and a concurrent access are refused; an access outside the three
address spaces faults (the model's choice, log 7). -/
def Obligations.AccessesOutsideTheInterfaceStop : Prop :=
  ∀ (s : State) (rest : List HostEvent) (off width a : Nat) (v : Word) (b : Byte) (d : Dir),
    (width ≠ 4 ∨ off % 4 ≠ 0 → s.pending = .regWrite off width v :: rest →
      step s = .refused .registerAccessForm) ∧
    (width ≠ 4 ∨ off % 4 ≠ 0 → s.pending = .regRead off width :: rest →
      step s = .refused .registerAccessForm) ∧
    (off % 4 = 0 → 256 ≤ off → s.pending = .regWrite off 4 v :: rest → step s = .fault .noSuchAddress) ∧
    (off % 4 = 0 → 256 ≤ off → s.pending = .regRead off 4 :: rest → step s = .fault .noSuchAddress) ∧
    (65555 ≤ a → s.pending = .bufWrite d a b :: rest → step s = .fault .noSuchAddress) ∧
    (65555 ≤ a → s.pending = .bufRead d a :: rest → step s = .fault .noSuchAddress) ∧
    (s.pending = .concurrent :: rest → step s = .refused .concurrentAccess)

/-- R38: a host write of one buffer byte stores it at its address, leaves every other byte of both buffers as it was,
and changes no register and no cipher. -/
def Obligations.HostBufferWriteStoresOneByte : Prop :=
  ∀ (s : State) (d : Dir) (a : Nat) (v : Byte) (rest : List HostEvent),
    s.pending = .bufWrite d a v :: rest → a < 65555 →
    ∃ t, step s = .next t ∧
      Memory.get (t.buf d) a = some v ∧
      (∀ (e : Dir) (x : Nat), (e ≠ d ∨ x ≠ a) → Memory.get (t.buf e) x = Memory.get (s.buf e) x) ∧
      { t with txBuf := s.txBuf, rxBuf := s.rxBuf } = { s with pending := rest }

/-- R38, R45 (U1, log 2): a host read of one buffer byte hands over the byte written last, or the free value of a byte that
nothing has written since reset, and changes nothing of the block, so the same read again hands over the same byte. That
an unwritten byte's free value is one constant of the reset, the buffer and the address is the model's form of R40's and
U1's draw (DESIGN CHOICE, log 2); the statement holds for every value of it. -/
def Obligations.HostBufferReadReturnsTheByte : Prop :=
  ∀ (s : State) (d : Dir) (a : Nat) (rest : List HostEvent), a < 65555 →
    (s.pending = .bufRead d a :: rest →
      step s = .next { s with
        pending := rest,
        answers := .byte (match Memory.get (s.buf d) a with
          | some b => b
          | none => Config.unwrittenByte s.draws d a) :: s.answers }) ∧
    (s.pending = .bufRead d a :: .bufRead d a :: rest → ∃ (u : State) (x : Byte), step s = .next u ∧
      step u = .next { s with pending := rest, answers := .byte x :: .byte x :: s.answers })

/-- R102, R116: as long as the host's accesses are legal, every step takes the oldest event and answers a next state:
no error stops the block. -/
def Obligations.LegalAccessesNeverStopTheBlock : Prop :=
  ∀ s : State, s.legalInput = true → ∃ t, step s = .next t ∧ t.pending = s.pending.tail

/-- R116: a run over any finite sequence of legal host events reaches its end state from ANY state; the block cannot
stop, and after k steps k events have been taken. That steps past the end of the list leave the idle block as it is (and so
answer a next state too) is the model's choice (log 9). -/
def Obligations.LegalRunsReachTheirEndState : Prop :=
  ∀ (k : Nat) (s : State), s.legalInput = true →
    ∃ t, Host.Core.run Sys2Proof.core k s = .next t ∧ Machine.State.pending t = s.pending.drop k

/-! ### Errors -/

/-- R100: every command is all-or-nothing. If it ends with an error code, then nothing but STATUS.ERR, ERR_INFO and
ERR_STICKY differs from the state before. -/
def Obligations.FailedCommandsChangeOnlyErrorRegisters : Prop :=
  ∀ (i : Instr) (s t : State), exec i s = .next t → t.err ≠ 0 →
    t = { s with err := t.err, errInfo := t.errInfo, errSticky := t.errSticky }

/-- R101, R20, R21: after a successful command STATUS.ERR and ERR_INFO are 0 and ERR_STICKY is as before (SRESET clears
it); after a failed one ERR_STICKY has gained exactly the bit of the code. -/
def Obligations.ErrorRegistersFollowTheLastCommand : Prop :=
  ∀ (i : Instr) (s t : State), exec i s = .next t →
    (t.err = 0 → t.errInfo = 0 ∧ t.errSticky = (if i = .sreset then 0 else s.errSticky)) ∧
    (t.err ≠ 0 → t.errSticky = s.errSticky ||| (1 <<< t.err.toNat))

/-- R99: the codes each command can end with. Codes 8 to 15 never occur, and no decoded command ends with
ILLEGAL_CMD. -/
def Obligations.EachCommandRaisesOnlyItsErrors : Prop :=
  ∀ (i : Instr) (s t : State), exec i s = .next t →
    t.err ∈ (match i with
      | .nop => [0]
      | .cinitTx => [0, 3]
      | .cinitRx => [0, 3]
      | .cpeekTx => [0, 2]
      | .cpeekRx => [0, 2]
      | .cadvTx => [0, 2]
      | .cadvRx => [0, 2]
      | .hpackTx => [0]
      | .hpackRx => [0]
      | .hunpackTx => [0]
      | .hunpackRx => [0]
      | .fpackTx => [0, 6]
      | .fpackRx => [0, 6]
      | .funpackTx => [0, 6]
      | .funpackRx => [0, 6]
      | .hash32Tx => [0, 6]
      | .hash32Rx => [0, 6]
      | .hdrhashTx => [0]
      | .hdrhashRx => [0]
      | .payhashTx => [0, 4, 6]
      | .payhashRx => [0, 4, 6]
      | .craccept => [0, 3, 4, 7]
      | .txframe => [0, 4, 6]
      | .rxframe => [0, 2, 4, 5]
      | .sreset => [0] : List (BitVec 4))

/-- R19: what the host reads as STATUS, field by field. -/
def Obligations.StatusReadsItsFields : Prop :=
  ∀ s : State,
    let w := s.readOffset 0x04
    w.extractLsb' 0 4 = s.err ∧
    w.getLsbD 4 = s.txCipher.isSome ∧ w.getLsbD 5 = s.rxCipher.isSome ∧
    w.getLsbD 6 = (s.txCipher.isSome && s.rxCipher.isSome) ∧
    w.getLsbD 7 = s.rxSeen ∧ w.getLsbD 8 = s.lastTxEnc ∧ w.getLsbD 9 = s.lastRxEnc ∧
    w.extractLsb' 10 22 = 0

/-- R21, R24, R25 (U8): the hardwired bits read 0 whatever the state: ERR_STICKY bit 0 and [31:16], CLIENT_ID [31:16],
TX_PLEN [31:16]; the other bits of ERR_STICKY read as stored. -/
def Obligations.HardwiredBitsReadZero : Prop :=
  ∀ s : State,
    (s.readOffset 0x1C).getLsbD 0 = false ∧ (s.readOffset 0x1C).extractLsb' 16 16 = 0 ∧
    (∀ k, 1 ≤ k → k < 16 → (s.readOffset 0x1C).getLsbD k = s.errSticky.getLsbD k) ∧
    (s.readOffset 0x28).extractLsb' 16 16 = 0 ∧ (s.readOffset 0x28).extractLsb' 0 16 = s.clientId ∧
    (s.readOffset 0x2C).extractLsb' 16 16 = 0 ∧ (s.readOffset 0x2C).extractLsb' 0 16 = s.txPlen

/-! ### Invariant and whole-machine rules -/

/-- Every step keeps the invariant: canonical buffers inside BUF_SIZE, RX_LEN and TX_LEN that fit, legal error codes, the
ERR_STICKY bit of the last error, an encrypted datagram only with its ciphers, and LAST_RX_SEQ untouched until a datagram
is accepted (R19 to R21, R26, R27, R32, R37, R99). -/
def Obligations.InvariantKeptByEveryStep : Prop :=
  ∀ s t : State, s.Inv → step s = .next t → t.Inv

/-- The invariant holds at reset (R35). -/
def Obligations.InvariantHoldsAtReset : Prop := State.reset.Inv

/-- R15, R22 to R30, R19 (its column 'written by', for RX_SEEN, LAST_TX_ENC and LAST_RX_ENC), and for RES the commands'
own rules R73, R82, R83, R91 to R93: which commands change which registers. Whatever a command does, the registers of the commands it is
not are unchanged, and it never touches ARG0 to ARG2, TX_PLEN or RX_LEN (SRESET apart). -/
def Obligations.RegistersChangeOnlyByTheirCommands : Prop :=
  ∀ (i : Instr) (s t : State), exec i s = .next t → i ≠ .sreset →
    (t.arg0 = s.arg0 ∧ t.arg1 = s.arg1 ∧ t.arg2 = s.arg2 ∧ t.txPlen = s.txPlen ∧ t.rxLen = s.rxLen) ∧
    (i ≠ .txframe → t.txSeq = s.txSeq ∧ t.txLen = s.txLen ∧ t.lastTxEnc = s.lastTxEnc) ∧
    (i ≠ .rxframe → t.lastRxSeq = s.lastRxSeq ∧ t.rxSeen = s.rxSeen ∧ t.lastRxEnc = s.lastRxEnc) ∧
    (i ≠ .craccept → t.clientId = s.clientId ∧ t.cr = s.cr) ∧
    (i ∉ [.hunpackTx, .hunpackRx, .txframe, .rxframe] → t.hdr = s.hdr) ∧
    (i ∉ [.funpackTx, .funpackRx] → t.frg = s.frg) ∧
    (i ∉ [.cpeekTx, .cpeekRx, .hash32Tx, .hash32Rx, .hdrhashTx, .hdrhashRx, .payhashTx, .payhashRx, .txframe,
        .rxframe] → t.res = s.res)

/-- R39: the only commands that write buffer bytes, and the only bytes they write: HPACK.d and TXFRAME write addresses 0 to
19, FPACK.d the 16 bytes at ARG0; every other byte of both buffers reads as before after any command (SRESET
included). -/
def Obligations.BuffersChangeOnlyByTheirWriters : Prop :=
  ∀ (i : Instr) (s t : State), exec i s = .next t → ∀ a : Nat,
    (t.byteAt .tx a = s.byteAt .tx a ∨ ((i = .hpackTx ∨ i = .txframe) ∧ a < 20) ∨
      (i = .fpackTx ∧ s.arg0.toNat ≤ a ∧ a < s.arg0.toNat + 16)) ∧
    (t.byteAt .rx a = s.byteAt .rx a ∨ (i = .hpackRx ∧ a < 20) ∨
      (i = .fpackRx ∧ s.arg0.toNat ≤ a ∧ a < s.arg0.toNat + 16))

/-- R32, R71: how a cipher instance can change: seeded once from absent by its CINIT or by CRACCEPT, advanced by its CADV,
by TXFRAME (TX) or by RXFRAME (RX), made absent by SRESET; otherwise it is as before. -/
def Obligations.CiphersChangeOnlyByTheirCommands : Prop :=
  ∀ (i : Instr) (s t : State), exec i s = .next t →
    (t.txCipher = s.txCipher ∨
      (s.txCipher = none ∧ (i = .cinitTx ∧ t.txCipher = some (isaacInit s.arg0) ∨
        i = .craccept ∧ t.txCipher = some (isaacInit t.cr.clientSeed))) ∨
      ((i = .cadvTx ∨ i = .txframe) ∧ ∃ c, s.txCipher = some c ∧ t.txCipher = some (advance c)) ∨
      (i = .sreset ∧ t.txCipher = none)) ∧
    (t.rxCipher = s.rxCipher ∨
      (s.rxCipher = none ∧ (i = .cinitRx ∧ t.rxCipher = some (isaacInit s.arg0) ∨
        i = .craccept ∧ t.rxCipher = some (isaacInit t.cr.serverSeed))) ∨
      ((i = .cadvRx ∨ i = .rxframe) ∧ ∃ c, s.rxCipher = some c ∧ t.rxCipher = some (advance c)) ∨
      (i = .sreset ∧ t.rxCipher = none))

/-- R22: TX_SEQ. A successful TXFRAME uses its value as the datagram's sequence field and adds 1 (mod 2^32); a failed one
and every other command leave it; SRESET and reset write SEQ_INIT (0); a host write at its offset leaves it. -/
def Obligations.TxSeqCountsSuccessfulDatagrams : Prop :=
  (∀ s t : State, exec .txframe s = .next t → t.err = 0 →
    t.txSeq = s.txSeq + 1 ∧ t.hdr.seq = s.txSeq ∧ readLe32 (t.byteAt .tx) 0 = s.txSeq) ∧
  (∀ s t : State, exec .txframe s = .next t → t.err ≠ 0 → t.txSeq = s.txSeq) ∧
  (∀ (i : Instr) (s t : State), exec i s = .next t → i ≠ .txframe → i ≠ .sreset → t.txSeq = s.txSeq) ∧
  (∀ s t : State, exec .sreset s = .next t → t.txSeq = 0) ∧
  (∀ (s t : State) (rest : List HostEvent), s.pending = .reset :: rest → step s = .next t → t.txSeq = 0) ∧
  (∀ (s t : State) (v : Word) (rest : List HostEvent),
    s.pending = .regWrite 0x20 4 v :: rest → step s = .next t → t.txSeq = s.txSeq)

/-! ### Cipher commands -/

/-- R72: CINIT.d seeds an absent instance with ARG0 and changes nothing else but the error registers; a present one is
left alone with CIPHER_PRESENT(D). -/
def Obligations.CinitSeedsAnAbsentInstance : Prop :=
  ∀ s : State,
    (s.txCipher = none → exec .cinitTx s =
      .next { s with txCipher := some (isaacInit s.arg0), err := 0, errInfo := 0 }) ∧
    (s.rxCipher = none → exec .cinitRx s =
      .next { s with rxCipher := some (isaacInit s.arg0), err := 0, errInfo := 0 }) ∧
    (∀ c, s.txCipher = some c → exec .cinitTx s =
      .next { s with err := 3, errInfo := 0, errSticky := s.errSticky ||| 0x0008 }) ∧
    (∀ c, s.rxCipher = some c → exec .cinitRx s =
      .next { s with err := 3, errInfo := 1, errSticky := s.errSticky ||| 0x0008 })

/-- R73: CPEEK.d puts the current key `rsl[idx]` into RES and changes nothing else but the error registers; without the
instance it raises CIPHER_ABSENT(D) and RES keeps its value. -/
def Obligations.CpeekReadsTheCurrentKey : Prop :=
  ∀ s : State,
    (∀ c, s.txCipher = some c → exec .cpeekTx s =
      .next { s with res := c.rsl[c.idx.val], err := 0, errInfo := 0 }) ∧
    (∀ c, s.rxCipher = some c → exec .cpeekRx s =
      .next { s with res := c.rsl[c.idx.val], err := 0, errInfo := 0 }) ∧
    (s.txCipher = none → exec .cpeekTx s =
      .next { s with err := 2, errInfo := 0, errSticky := s.errSticky ||| 0x0004 }) ∧
    (s.rxCipher = none → exec .cpeekRx s =
      .next { s with err := 2, errInfo := 1, errSticky := s.errSticky ||| 0x0004 })

/-- R74, R69: CADV.d consumes one key: the index goes down by one, and from 0 a new block is scrambled and the index is
255; nothing else changes but the error registers; without the instance it raises CIPHER_ABSENT(D). -/
def Obligations.CadvConsumesOneKey : Prop :=
  ∀ s : State,
    (∀ c : Cipher, s.txCipher = some c → ∃ n : Cipher,
      exec .cadvTx s = .next { s with txCipher := some n, err := 0, errInfo := 0 } ∧
      (0 < c.idx.val → n.idx.val = c.idx.val - 1 ∧ { n with idx := c.idx } = c) ∧
      (c.idx.val = 0 → n.idx.val = 255 ∧ { n with idx := c.idx } = scramble c)) ∧
    (∀ c : Cipher, s.rxCipher = some c → ∃ n : Cipher,
      exec .cadvRx s = .next { s with rxCipher := some n, err := 0, errInfo := 0 } ∧
      (0 < c.idx.val → n.idx.val = c.idx.val - 1 ∧ { n with idx := c.idx } = c) ∧
      (c.idx.val = 0 → n.idx.val = 255 ∧ { n with idx := c.idx } = scramble c)) ∧
    (s.txCipher = none → exec .cadvTx s =
      .next { s with err := 2, errInfo := 0, errSticky := s.errSticky ||| 0x0004 }) ∧
    (s.rxCipher = none → exec .cadvRx s =
      .next { s with err := 2, errInfo := 1, errSticky := s.errSticky ||| 0x0004 })

/-- R67, R68 and the corner case of 95_test_vectors.md section 3.1: for every seed, right after `Init` the index is 255,
`c` is seed + 1 and `b` equals key 0. -/
def Obligations.FirstKeyEqualsB : Prop :=
  ∀ seed : Word,
    (isaacInit seed).idx.val = 255 ∧ (isaacInit seed).c = seed + 1 ∧ peek (isaacInit seed) = (isaacInit seed).b

/-- R69: the current key is `rsl[idx]`; keys are consumed from `rsl[255]` down to `rsl[0]`, then a new block is generated
and consumption restarts at `rsl[255]`; so key number k after `Init` is `rsl[255 - (k mod 256)]` of generated block number
`floor(k / 256)`. -/
def Obligations.KeyNumbersFollowTheBlocks : Prop :=
  (∀ C : Cipher, peek C = C.rsl[C.idx.val] ∧
    (0 < C.idx.val → (advance C).idx.val = C.idx.val - 1 ∧ { advance C with idx := C.idx } = C) ∧
    (C.idx.val = 0 → advance C = { scramble C with idx := 255 })) ∧
  ∀ (seed : Word) (k : Nat),
    peek (advanced seed k) = (keyBlock seed (k / 256)).rsl[255 - k % 256]'(by omega)

/-- R67: a scramble writes every word of the result array before the block is used: the old results (and the index) do
not influence the new block, nor `mem`, `a`, `b` and `c`. -/
def Obligations.ScrambleDoesNotReadOldResults : Prop :=
  ∀ (c : Cipher) (old : Vector Word 256) (j : Fin 256),
    (scramble { c with rsl := old, idx := j }).rsl = (scramble c).rsl ∧
    (scramble { c with rsl := old, idx := j }).mem = (scramble c).mem ∧
    (scramble { c with rsl := old, idx := j }).a = (scramble c).a ∧
    (scramble { c with rsl := old, idx := j }).b = (scramble c).b ∧
    (scramble { c with rsl := old, idx := j }).c = c.c + 1

/-- R56, R70: the pseudo-instruction CNEXT.d takes the current key into RES and consumes it, in two steps. -/
def Obligations.CnextTakesAndConsumesTheKey : Prop :=
  ∀ (s : State) (d : Dir) (c : Cipher) (rest : List HostEvent),
    s.cipher d = some c → s.pending = cnext d ++ rest →
    ∃ u, step s = .next u ∧
      step u = .next ({ s with
        res := peek c, err := 0, errInfo := 0, pending := rest }.setCipher d
          (some (advance c)))

/-- R55, R56: the pseudo-instructions with operands. `CINIT.d <seed>`, `FPACK.d <addr>` and `FUNPACK.d <addr>` write the
operand to ARG0, `HASH32.d <addr>, <len>` the address to ARG0 and the length to ARG1, `PAYHASH.d <flags>, <addr>, <len>` the
flags to ARG0, the address to ARG1 and the length to ARG2; then the command runs with those operands, all else being as it
was. -/
def Obligations.PseudoInstructionsReachTheirOperands : Prop :=
  ∀ (s : State) (d : Dir) (x y z : Word) (rest : List HostEvent),
    (s.pending = cinitSeed d x ++ rest → ∃ u, step s = .next u ∧
      step u = exec (forDir d .cinitTx .cinitRx) { s with arg0 := x, pending := rest }) ∧
    (s.pending = fpackAt d x ++ rest → ∃ u, step s = .next u ∧
      step u = exec (forDir d .fpackTx .fpackRx) { s with arg0 := x, pending := rest }) ∧
    (s.pending = funpackAt d x ++ rest → ∃ u, step s = .next u ∧
      step u = exec (forDir d .funpackTx .funpackRx) { s with arg0 := x, pending := rest }) ∧
    (s.pending = hash32Range d x y ++ rest → ∃ u, Host.Core.run Sys2Proof.core 2 s = .next u ∧
      step u = exec (forDir d .hash32Tx .hash32Rx) { s with arg0 := x, arg1 := y, pending := rest }) ∧
    (s.pending = payhashRange d x y z ++ rest → ∃ u, Host.Core.run Sys2Proof.core 3 s = .next u ∧
      step u = exec (forDir d .payhashTx .payhashRx) { s with arg0 := x, arg1 := y, arg2 := z, pending := rest })

/-- R55, R38: `WB d, addr, bytes` writes consecutive bytes from `addr` upward, the first byte at `addr`, in as many steps as
there are bytes; every other byte of both buffers holds what it held, and nothing else changes. -/
def Obligations.WbWritesConsecutiveBytes : Prop :=
  ∀ (s : State) (d : Dir) (a : Nat) (bs : List Byte) (rest : List HostEvent),
    s.pending = wb d a bs ++ rest → a + bs.length ≤ 65555 →
    ∃ t : State, Host.Core.run Sys2Proof.core bs.length s = .next t ∧
      (∀ (k : Nat) (h : k < bs.length), Memory.get (t.buf d) (a + k) = some bs[k]) ∧
      (∀ (e : Dir) (x : Nat), e ≠ d ∨ x < a ∨ a + bs.length ≤ x → Memory.get (t.buf e) x = Memory.get (s.buf e) x) ∧
      { t with txBuf := s.txBuf, rxBuf := s.rxBuf } = { s with pending := rest }

/-! ### Header and fragment-header commands -/

/-- R78: HPACK.d writes the five header registers, each little-endian, to bytes 0 to 19 of its buffer; every other byte
of that buffer and every byte of the other one reads as before, and nothing else changes but the error registers. -/
def Obligations.HpackWritesTheHeaderBytes : Prop :=
  ∀ (d : Dir) (s : State), ∃ t, exec (forDir d .hpackTx .hpackRx) s = .next t ∧
    (∀ k, k < 4 → t.byteAt d k = s.hdr.seq.extractLsb' (8 * k) 8) ∧
    (∀ k, k < 4 → t.byteAt d (4 + k) = s.hdr.flags.extractLsb' (8 * k) 8) ∧
    (∀ k, k < 4 → t.byteAt d (8 + k) = s.hdr.cksum.extractLsb' (8 * k) 8) ∧
    (∀ k, k < 4 → t.byteAt d (12 + k) = s.hdr.w3.extractLsb' (8 * k) 8) ∧
    (∀ k, k < 4 → t.byteAt d (16 + k) = s.hdr.w4.extractLsb' (8 * k) 8) ∧
    (∀ (e : Dir) (a : Nat), e ≠ d ∨ 20 ≤ a → t.byteAt e a = s.byteAt e a) ∧
    { t with txBuf := s.txBuf, rxBuf := s.rxBuf } = { s with err := 0, errInfo := 0 }

/-- R79: HUNPACK.d reads bytes 0 to 19 of its buffer into the five header registers, little-endian, whatever RX_LEN is,
and changes nothing else but the error registers. -/
def Obligations.HunpackReadsTheHeaderBytes : Prop :=
  ∀ (d : Dir) (s : State), ∃ h : HeaderRegs,
    exec (forDir d .hunpackTx .hunpackRx) s = .next { s with hdr := h, err := 0, errInfo := 0 } ∧
    ∀ k, k < 4 →
      h.seq.extractLsb' (8 * k) 8 = s.byteAt d k ∧
      h.flags.extractLsb' (8 * k) 8 = s.byteAt d (4 + k) ∧
      h.cksum.extractLsb' (8 * k) 8 = s.byteAt d (8 + k) ∧
      h.w3.extractLsb' (8 * k) 8 = s.byteAt d (12 + k) ∧
      h.w4.extractLsb' (8 * k) 8 = s.byteAt d (16 + k)

/-- R79: HPACK.d then HUNPACK.d leaves every HDR register unchanged, and HUNPACK.d then HPACK.d leaves bytes 0 to 19 (and
every other byte) reading as before. -/
def Obligations.HeaderRoundTrips : Prop :=
  ∀ (d : Dir) (s t u : State),
    (exec (forDir d .hpackTx .hpackRx) s = .next t → exec (forDir d .hunpackTx .hunpackRx) t = .next u →
      u.hdr = s.hdr) ∧
    (exec (forDir d .hunpackTx .hunpackRx) s = .next t → exec (forDir d .hpackTx .hpackRx) t = .next u →
      ∀ (e : Dir) (a : Nat), u.byteAt e a = s.byteAt e a)

/-- R80: FPACK.d writes the four fragment registers, each little-endian, to the 16 bytes at ARG0 when they fit in the
buffer (the sum does not wrap), every other byte of both buffers reading as before and nothing else changing but the
error registers; otherwise it raises RANGE(ARG0). -/
def Obligations.FpackWritesTheFragmentHeader : Prop :=
  ∀ (d : Dir) (s : State),
    (s.arg0.toNat + 16 ≤ 65555 → ∃ t, exec (forDir d .fpackTx .fpackRx) s = .next t ∧
      (∀ k, k < 4 → t.byteAt d (s.arg0.toNat + k) = s.frg.seq.extractLsb' (8 * k) 8) ∧
      (∀ k, k < 4 → t.byteAt d (s.arg0.toNat + 4 + k) = s.frg.id.extractLsb' (8 * k) 8) ∧
      (∀ k, k < 4 → t.byteAt d (s.arg0.toNat + 8 + k) = s.frg.w2.extractLsb' (8 * k) 8) ∧
      (∀ k, k < 4 → t.byteAt d (s.arg0.toNat + 12 + k) = s.frg.w3.extractLsb' (8 * k) 8) ∧
      (∀ (e : Dir) (a : Nat), e ≠ d ∨ a < s.arg0.toNat ∨ s.arg0.toNat + 16 ≤ a → t.byteAt e a = s.byteAt e a) ∧
      { t with txBuf := s.txBuf, rxBuf := s.rxBuf } = { s with err := 0, errInfo := 0 }) ∧
    (65555 < s.arg0.toNat + 16 → exec (forDir d .fpackTx .fpackRx) s =
      .next { s with err := 6, errInfo := s.arg0, errSticky := s.errSticky ||| 0x0040 })

/-- R81: FUNPACK.d reads the 16 bytes at ARG0 into the four fragment registers, little-endian, when they fit in the
buffer, and changes nothing else but the error registers; otherwise it raises RANGE(ARG0). -/
def Obligations.FunpackReadsTheFragmentHeader : Prop :=
  ∀ (d : Dir) (s : State),
    (s.arg0.toNat + 16 ≤ 65555 → ∃ g : FragmentRegs,
      exec (forDir d .funpackTx .funpackRx) s = .next { s with frg := g, err := 0, errInfo := 0 } ∧
      ∀ k, k < 4 →
        g.seq.extractLsb' (8 * k) 8 = s.byteAt d (s.arg0.toNat + k) ∧
        g.id.extractLsb' (8 * k) 8 = s.byteAt d (s.arg0.toNat + 4 + k) ∧
        g.w2.extractLsb' (8 * k) 8 = s.byteAt d (s.arg0.toNat + 8 + k) ∧
        g.w3.extractLsb' (8 * k) 8 = s.byteAt d (s.arg0.toNat + 12 + k)) ∧
    (65555 < s.arg0.toNat + 16 → exec (forDir d .funpackTx .funpackRx) s =
      .next { s with err := 6, errInfo := s.arg0, errSticky := s.errSticky ||| 0x0040 })

/-- R81: FPACK.d then FUNPACK.d at the same address leaves the FRG registers unchanged (on the error path too: both raise
RANGE). -/
def Obligations.FragmentHeaderRoundTrips : Prop :=
  ∀ (d : Dir) (s t u : State),
    exec (forDir d .fpackTx .fpackRx) s = .next t → exec (forDir d .funpackTx .funpackRx) t = .next u →
    u.frg = s.frg ∧ u.err = t.err

/-! ### Hashes -/

/-- R82: HASH32.d puts the hash of the ARG1 bytes at ARG0 into RES when the range lies in the buffer, and changes nothing
else but the error registers; otherwise it raises RANGE(ARG0). -/
def Obligations.Hash32HashesTheRange : Prop :=
  ∀ (d : Dir) (s : State),
    (s.arg0.toNat + s.arg1.toNat ≤ 65555 → exec (forDir d .hash32Tx .hash32Rx) s =
      .next { s with
        res := hash32 (memRead (s.byteAt d) s.arg0.toNat s.arg1.toNat), err := 0, errInfo := 0 }) ∧
    (65555 < s.arg0.toNat + s.arg1.toNat → exec (forDir d .hash32Tx .hash32Rx) s =
      .next { s with err := 6, errInfo := s.arg0, errSticky := s.errSticky ||| 0x0040 })

/-- R83, R77: HDRHASH.d puts the header hash of bytes 0 to 19 into RES, by the closed form in which the checksum field does
not occur, and changes nothing else but the error registers. -/
def Obligations.HdrhashIgnoresTheChecksumField : Prop :=
  ∀ (d : Dir) (s : State), exec (forDir d .hdrhashTx .hdrhashRx) s =
    .next { s with
      res := 0x00140000 + readLe32 (s.byteAt d) 0 + readLe32 (s.byteAt d) 4 + 0xBADD70DD
        + readLe32 (s.byteAt d) 12 + readLe32 (s.byteAt d) 16,
      err := 0, errInfo := 0 }

/-- R75: the hash by the rule's own indices: `n * 65536`, plus the little-endian words at 0, 4, 8 and so on, plus the 1 to 3
trailing bytes from bits [31:24] downward. -/
def Obligations.Hash32MatchesItsIndexForm : Prop :=
  ∀ s : List Byte,
    let q := s.length / 4
    hash32 s =
      BitVec.ofNat 32 (s.length * 65536)
      + wordSum ((List.range q).map fun i => readLe32 (fun o => s.getD o 0) (4 * i))
      + wordSum ((List.range (s.length % 4)).map fun t =>
          ((s.getD (4 * q + t) 0).zeroExtend 32 : Word) <<< (8 * (3 - t)))

/-- R76: the hash of the empty string is 0; over a first part of whole words the hash is additive, and after a first part
of any other length it need not be; the length term of a string of 65536 bytes wraps to 0. -/
def Obligations.Hash32IsAdditiveOverWholeWords : Prop :=
  hash32 [] = 0 ∧
  (∀ s t : List Byte, s.length % 4 = 0 → hash32 (s ++ t) = hash32 s + hash32 t) ∧
  (∀ r : Nat, r % 4 ≠ 0 → ∃ s t : List Byte, s.length = r ∧ hash32 (s ++ t) ≠ hash32 s + hash32 t) ∧
  (∀ s : List Byte, s.length = 65536 → hash32 s = hashFrom 0 s)

/-- R77: the header hash replaces the checksum field by SENTINEL, and by the hash's definition it is the closed sum, so two
20-byte headers that differ only in bytes 8 to 11 hash alike. -/
def Obligations.HeaderHashHasItsClosedForm : Prop :=
  ∀ hb : List Byte, hb.length = 20 →
    hdrHash Config.chip hb = hash32 (hb.take 8 ++ leBytes32 0xBADD70DD ++ hb.drop 12) ∧
    hdrHash Config.chip hb =
      0x00140000 + readLe32 (fun o => hb.getD o 0) 0 + readLe32 (fun o => hb.getD o 0) 4 + 0xBADD70DD
        + readLe32 (fun o => hb.getD o 0) 12 + readLe32 (fun o => hb.getD o 0) 16

/-! ### The walk and the payload hash -/

/-- R84, R85, R60: the walk over the section table is the pseudocode's walk, section list and failing address alike, for
every configuration, flags word, buffer and payload. -/
def Obligations.WalkFollowsThePseudocode : Prop :=
  ∀ (cfg : Config) (f : Word) (rd : Nat → Byte) (p len : Nat),
    walk cfg f rd p len = walkPseudocode cfg f rd p len

/-- R84, R85: the sections a successful walk returns lie inside the payload, in rising order and without overlap. -/
def Obligations.SectionsLieInOrderInsideThePayload : Prop :=
  ∀ (cfg : Config) (f : Word) (rd : Nat → Byte) (p len : Nat) (secs : List Section),
    walk cfg f rd p len = .ok secs →
    (∀ x ∈ secs, p ≤ x.addr ∧ x.addr + x.len ≤ p + len) ∧
    secs.Pairwise (fun x y => x.addr + x.len ≤ y.addr)

/-- R86, R59: flag bits that the walk does not test select nothing: two flags words that agree on the thirteen section
flags give the same walk, and the walk reads no byte outside the payload. -/
def Obligations.UntestedFlagsAndOuterBytesDoNotMatter : Prop :=
  ∀ (f g : Word) (rd rd' : Nat → Byte) (p len : Nat),
    f &&& 0x0F4D7104 = g &&& 0x0F4D7104 → (∀ x, p ≤ x → x < p + len → rd x = rd' x) →
    walk Config.chip f rd p len = walk Config.chip g rd' p len

/-- R88: without fragment blocks, the sum of the sections' hashes equals the hash of the whole optional-section region
taken as one string (CR_LEN is a multiple of 4). -/
def Obligations.SectionHashesSumToTheRegionHash : Prop :=
  ∀ (f : Word) (rd : Nat → Byte) (p len : Nat) (secs : List Section),
    f &&& 0x00000004 = 0 → walk Config.chip f rd p len = .ok secs →
    sumHashes Config.chip rd secs = hash32 (memRead rd p (totalLength secs))

/-- R91, R87: PAYHASH.d puts the wrapping sum of the hashes of the sections that ARG0 selects in the ARG2 bytes at ARG1
into RES, and changes nothing else but the error registers; a range past the buffer raises RANGE(ARG1), a payload that
does not hold the sections raises TRUNCATED at the failing address. -/
def Obligations.PayhashSumsTheSelectedSections : Prop :=
  ∀ (d : Dir) (s : State),
    (s.arg1.toNat + s.arg2.toNat ≤ 65555 →
      (∀ secs, walkPseudocode Config.chip s.arg0 (s.byteAt d) s.arg1.toNat s.arg2.toNat = .ok secs →
        exec (forDir d .payhashTx .payhashRx) s =
          .next { s with
            res := sectionHashSum (s.byteAt d) secs, err := 0, errInfo := 0 }) ∧
      (∀ o, walkPseudocode Config.chip s.arg0 (s.byteAt d) s.arg1.toNat s.arg2.toNat = .error o →
        exec (forDir d .payhashTx .payhashRx) s =
          .next { s with err := 4, errInfo := BitVec.ofNat 32 o, errSticky := s.errSticky ||| 0x0010 })) ∧
    (65555 < s.arg1.toNat + s.arg2.toNat → exec (forDir d .payhashTx .payhashRx) s =
      .next { s with err := 6, errInfo := s.arg1, errSticky := s.errSticky ||| 0x0040 })

/-! ### Framing -/

/-- R92, R89, R90: TXFRAME, when the payload holds the sections the transmitted flags select. `enc` says that both ciphers
are present and the requested flags meet no HS_MASK bit; the flags are the requested ones with FLAG_ENCRYPTED_CHECKSUM
forced to `enc`; the checksum is the header hash plus the payload hash, XORed with the current TX key when `enc`. The
twenty header bytes, TX_LEN, the HDR registers, TX_SEQ, LAST_TX_ENC, the TX cipher, RES and the error registers change;
nothing else does. -/
def Obligations.TxframeBuildsTheDatagram : Prop :=
  ∀ (s : State) (enc : Bool) (f : Word) (secs : List Section),
    (enc = true ↔ s.txCipher.isSome = true ∧ s.rxCipher.isSome = true ∧ s.hdr.flags &&& 0x000D0000 = 0) →
    f = (if enc then s.hdr.flags ||| 0x00000002 else s.hdr.flags &&& ~~~0x00000002) →
    walkPseudocode Config.chip f (s.byteAt .tx) 20 s.txPlen.toNat = .ok secs →
    ∃ (t : State) (ck : Word),
      exec .txframe s = .next t ∧
      (let hh := 0x00140000 + s.txSeq + f + 0xBADD70DD + (hdrTime s.hdr ++ s.clientId) + (hdrIter s.hdr ++ s.txPlen)
       let ph := sectionHashSum (s.byteAt .tx) secs
       (enc = false → ck = hh + ph) ∧
       (enc = true → ∃ c, s.txCipher = some c ∧ ck = hh + (ph ^^^ peek c))) ∧
      t.hdr = { seq := s.txSeq, flags := f, cksum := ck,
                w3 := hdrTime s.hdr ++ s.clientId, w4 := hdrIter s.hdr ++ s.txPlen } ∧
      readHeader (t.byteAt .tx) 0 = t.hdr ∧
      (∀ a, 20 ≤ a → t.byteAt .tx a = s.byteAt .tx a) ∧
      t.txLen.toNat = 20 + s.txPlen.toNat ∧ t.txSeq = s.txSeq + 1 ∧ t.lastTxEnc = enc ∧
      t.txCipher = (if enc then s.txCipher.map advance else s.txCipher) ∧ t.res = ck ∧
      { t with txBuf := s.txBuf, txLen := s.txLen, hdr := s.hdr, txSeq := s.txSeq, lastTxEnc := s.lastTxEnc,
               txCipher := s.txCipher, res := s.res } = { s with err := 0, errInfo := 0 }

/-- R92, R99, R8: TXFRAME's errors: TRUNCATED at the failing address when the payload does not hold the sections, and,
with a buffer too small for the datagram, RANGE(TX_PLEN); nothing but the error registers changes. -/
def Obligations.TxframeErrorsLeaveTheSession : Prop :=
  (∀ (s : State) (enc : Bool) (f : Word) (o : Nat),
    (enc = true ↔ s.txCipher.isSome = true ∧ s.rxCipher.isSome = true ∧ s.hdr.flags &&& 0x000D0000 = 0) →
    f = (if enc then s.hdr.flags ||| 0x00000002 else s.hdr.flags &&& ~~~0x00000002) →
    walkPseudocode Config.chip f (s.byteAt .tx) 20 s.txPlen.toNat = .error o →
    exec .txframe s = .next { s with err := 4, errInfo := BitVec.ofNat 32 o, errSticky := s.errSticky ||| 0x0010 }) ∧
  (∀ (cfg : Config) (s : State), cfg.wf = true → cfg.bufSize < 20 + s.txPlen.toNat →
    runCommand cfg (txframeBody cfg) s =
      .next { s with err := 6, errInfo := s.txPlen.zeroExtend 32, errSticky := s.errSticky ||| 0x0040 })

/-- R93, R103: RXFRAME decides in this order: TRUNCATED(RX_LEN) for a short datagram or payload, TRUNCATED at the address
where the walk fails, CIPHER_ABSENT(1) for an encrypted packet without the RX cipher, BAD_CHECKSUM with the expected
value, otherwise it accepts: HDR registers, LAST_RX_SEQ, RX_SEEN, LAST_RX_ENC, the RX cipher, RES and the error registers
change, nothing else. -/
def Obligations.RxframeDecidesInOrder : Prop :=
  ∀ (s : State) (h : HeaderRegs) (size : Nat) (enc : Bool),
    h = readHeader (s.byteAt .rx) 0 → size = (hdrSize h).toNat → enc = (h.flags &&& 0x00000002 != 0) →
    (s.rxLen.toNat < 20 ∨ s.rxLen.toNat < 20 + size → exec .rxframe s =
      .next { s with err := 4, errInfo := s.rxLen, errSticky := s.errSticky ||| 0x0010 }) ∧
    (20 + size ≤ s.rxLen.toNat →
      (∀ o, walkPseudocode Config.chip h.flags (s.byteAt .rx) 20 size = .error o → exec .rxframe s =
        .next { s with err := 4, errInfo := BitVec.ofNat 32 o, errSticky := s.errSticky ||| 0x0010 }) ∧
      (∀ secs, walkPseudocode Config.chip h.flags (s.byteAt .rx) 20 size = .ok secs →
        (enc = true → s.rxCipher = none → exec .rxframe s =
          .next { s with err := 2, errInfo := 1, errSticky := s.errSticky ||| 0x0004 }) ∧
        (∀ x : Word,
          (let hh := 0x00140000 + h.seq + h.flags + 0xBADD70DD + h.w3 + h.w4
           let ph := sectionHashSum (s.byteAt .rx) secs
           (enc = false ∧ x = hh + ph) ∨ (enc = true ∧ ∃ c, s.rxCipher = some c ∧ x = hh + (ph ^^^ peek c))) →
          (x ≠ h.cksum → exec .rxframe s =
            .next { s with err := 5, errInfo := x, errSticky := s.errSticky ||| 0x0020 }) ∧
          (x = h.cksum → exec .rxframe s =
            .next { s with
              hdr := h, lastRxSeq := h.seq, rxSeen := true, lastRxEnc := enc,
              rxCipher := (if enc then s.rxCipher.map advance else s.rxCipher), res := h.cksum,
              err := 0, errInfo := 0 }))))

/-- R94, R103: CRACCEPT decides in this order: TRUNCATED(RX_LEN), NO_SECTION, TRUNCATED where the preceding sections fail,
TRUNCATED at the section when its 28 field bytes do not fit, CIPHER_PRESENT for TX then RX; otherwise it takes the fields
at their offsets after the preceding sections, sets CLIENT_ID to the low half of the client id, keys TX by the client seed
and RX by the server seed, and changes nothing else but the error registers. -/
def Obligations.CracceptDecidesInOrder : Prop :=
  ∀ (s : State) (f : Word) (size : Nat),
    f = readLe32 (s.byteAt .rx) 4 → size = (readLe16 (s.byteAt .rx) 16).toNat →
    (s.rxLen.toNat < 20 ∨ s.rxLen.toNat < 20 + size → exec .craccept s =
      .next { s with err := 4, errInfo := s.rxLen, errSticky := s.errSticky ||| 0x0010 }) ∧
    (20 + size ≤ s.rxLen.toNat →
      (f &&& 0x00040000 = 0 → exec .craccept s =
        .next { s with err := 7, errInfo := 0x00040000, errSticky := s.errSticky ||| 0x0080 }) ∧
      (f &&& 0x00040000 ≠ 0 →
        (∀ o, walkPseudocode Config.chip (f &&& 0x00007100) (s.byteAt .rx) 20 size = .error o → exec .craccept s =
          .next { s with err := 4, errInfo := BitVec.ofNat 32 o, errSticky := s.errSticky ||| 0x0010 }) ∧
        (∀ (secs : List Section) (at_ : Nat),
          walkPseudocode Config.chip (f &&& 0x00007100) (s.byteAt .rx) 20 size = .ok secs →
          at_ = 20 + totalLength secs →
          (20 + size < at_ + 28 → exec .craccept s =
            .next { s with err := 4, errInfo := BitVec.ofNat 32 at_, errSticky := s.errSticky ||| 0x0010 }) ∧
          (at_ + 28 ≤ 20 + size →
            (s.txCipher.isSome = true → exec .craccept s =
              .next { s with err := 3, errInfo := 0, errSticky := s.errSticky ||| 0x0008 }) ∧
            (s.txCipher = none → s.rxCipher.isSome = true → exec .craccept s =
              .next { s with err := 3, errInfo := 1, errSticky := s.errSticky ||| 0x0008 }) ∧
            (s.txCipher = none → s.rxCipher = none → exec .craccept s =
              .next { s with
                cr := { timeLo := readLe32 (s.byteAt .rx) at_, timeHi := readLe32 (s.byteAt .rx) (at_ + 4),
                        cookieLo := readLe32 (s.byteAt .rx) (at_ + 8), cookieHi := readLe32 (s.byteAt .rx) (at_ + 12),
                        cid := readLe32 (s.byteAt .rx) (at_ + 16),
                        serverSeed := readLe32 (s.byteAt .rx) (at_ + 20),
                        clientSeed := readLe32 (s.byteAt .rx) (at_ + 24) },
                clientId := readLe16 (s.byteAt .rx) (at_ + 16),
                txCipher := some (isaacInit (readLe32 (s.byteAt .rx) (at_ + 24))),
                rxCipher := some (isaacInit (readLe32 (s.byteAt .rx) (at_ + 20))),
                err := 0, errInfo := 0 })))))

/-- R92, R93 (with R70): a datagram that TXFRAME built, copied to the RXBUF of a block whose RX cipher stands where the
sender's TX cipher stood, is accepted by RXFRAME there: the same header, checksum and sequence, encrypted exactly as it was
sent, and the receiver's cipher ends where the sender's does. -/
def Obligations.BuiltDatagramsAreAcceptedByThePeer : Prop :=
  ∀ s t r : State,
    exec .txframe s = .next t → t.err = 0 →
    r.rxLen = t.txLen → (∀ a, a < t.txLen.toNat → r.byteAt .rx a = t.byteAt .tx a) →
    (t.lastTxEnc = true → r.rxCipher = s.txCipher) →
    ∃ u, exec .rxframe r = .next u ∧ u.err = 0 ∧ u.res = t.res ∧ u.hdr = t.hdr ∧ u.lastRxSeq = s.txSeq ∧
      u.rxSeen = true ∧ u.lastRxEnc = t.lastTxEnc ∧
      u.rxCipher = (if t.lastTxEnc then t.txCipher else r.rxCipher)

/-- R93: the same encrypted datagram presented twice: after it is accepted, RXFRAME on the same RXBUF raises BAD_CHECKSUM
whenever the next key differs from the one it used, and nothing but the error registers changes. -/
def Obligations.ReplayedEncryptedDatagramIsRejected : Prop :=
  ∀ (s t : State) (c : Cipher),
    s.rxCipher = some c → peek (advance c) ≠ peek c →
    exec .rxframe s = .next t → t.err = 0 → t.lastRxEnc = true →
    ∃ x, x ≠ t.res ∧
      exec .rxframe t = .next { t with err := 5, errInfo := x, errSticky := t.errSticky ||| 0x0020 }

/-- R93: bytes of RXBUF past `20 + size`, and how far RX_LEN reaches past them, have no influence on RXFRAME. -/
def Obligations.SurplusBytesDoNotInfluenceRxframe : Prop :=
  ∀ (s t : State) (m : Memory) (l : Word),
    let size := (readLe16 (s.byteAt .rx) 16).toNat
    20 + size ≤ s.rxLen.toNat → 20 + size ≤ l.toNat →
    (∀ a, a < 20 + size → { s with rxBuf := m }.byteAt .rx a = s.byteAt .rx a) →
    exec .rxframe s = .next t →
    exec .rxframe { s with rxBuf := m, rxLen := l } = .next { t with rxBuf := m, rxLen := l }

/-- R92: whatever the host left in HDR_SEQ, HDR_CKSUM, HDR_CID and HDR_SIZE is ignored by a successful TXFRAME: the end
states are equal. -/
def Obligations.TxframeIgnoresTheHostsOtherHeaderFields : Prop :=
  ∀ (s t : State) (seq ck : Word) (cid size : Half),
    exec .txframe s = .next t → t.err = 0 →
    exec .txframe { s with hdr := { seq := seq, flags := s.hdr.flags, cksum := ck,
                                    w3 := hdrTime s.hdr ++ cid, w4 := hdrIter s.hdr ++ size } } = .next t

/-! ### Control and reset -/

/-- R97: NOP is the word 0x00000000 (0x00000100 is illegal) and completes successfully: STATUS.ERR and ERR_INFO become 0,
ERR_STICKY keeps its bits, nothing else changes. -/
def Obligations.NopClearsOnlyTheLastError : Prop :=
  decodeWord 0x00000000 = .ok .nop ∧ decodeWord 0x00000100 = .error .directionNotAllowed ∧
  ∀ s : State, exec .nop s = .next { s with err := 0, errInfo := 0 }

/-- R98: SRESET is the word 0x0000003F (0x0000013F is illegal); after it every register reads as after reset (all 0,
TX_SEQ = SEQ_INIT = 0), both ciphers are absent, and every byte of both buffers reads as before. That the model's own fields
`pending`, `answers` and `draws` are kept is the model's choice (DESIGN CHOICE, log 12), no part of R98. -/
def Obligations.SresetEndsTheSession : Prop :=
  decodeWord 0x0000003F = .ok .sreset ∧ decodeWord 0x0000013F = .error .directionNotAllowed ∧
  ∀ s : State, ∃ t, exec .sreset s = .next t ∧
    (∀ off, t.readOffset off = 0) ∧ t.txCipher = none ∧ t.rxCipher = none ∧
    (∀ (d : Dir) (a : Nat), t.byteAt d a = s.byteAt d a) ∧
    t.txBuf = s.txBuf ∧ t.rxBuf = s.rxBuf ∧
    t.pending = s.pending ∧ t.answers = s.answers ∧ t.draws = s.draws

/-- R110, R35: reset, from any state, gives every register its reset value (0, TX_SEQ = SEQ_INIT = 0), makes both ciphers
absent and leaves no buffer byte written; the state after reset is such a state. -/
def Obligations.ResetGivesEveryRegisterItsValue : Prop :=
  (∀ (s : State) (rest : List HostEvent), s.pending = .reset :: rest →
    ∃ t, step s = .next t ∧ (∀ off, t.readOffset off = 0) ∧ t.txCipher = none ∧ t.rxCipher = none ∧
      (∀ (d : Dir) (a : Nat), Memory.get (t.buf d) a = none)) ∧
  (∀ off, State.reset.readOffset off = 0) ∧ State.reset.txCipher = none ∧ State.reset.rxCipher = none ∧
  (∀ (d : Dir) (a : Nat), Memory.get (State.reset.buf d) a = none)

/-- R8: a configuration that breaks a parameter constraint is refused. Where the refusal falls, before the body of any
command runs, is DEDUCED (log 6), and so is the other half: one that meets the constraints runs every command body to a
next state. The default parameters meet them. -/
def Obligations.ConfigurationsThatBreakAConstraintAreRefused : Prop :=
  ∀ (cfg : Config) (body : Body) (s : State),
    (cfg.bufSize < 20 ∨ cfg.crLen < 28 ∨ (cfg.echoRespLen ≠ 4 ∧ cfg.echoRespLen ≠ 8) →
      runCommand cfg body s = .refused .badConfiguration) ∧
    (20 ≤ cfg.bufSize → 28 ≤ cfg.crLen → (cfg.echoRespLen = 4 ∨ cfg.echoRespLen = 8) →
      ∃ t, runCommand cfg body s = .next t) ∧
    Config.chip.wf = true
end

