-- ==== Sys2Proof/Laws/State.lean ====
section
/-! SUPPORT. One lemma per field and per named update of State, each true by rfl after its state or direction is
split, so that no later proof unfolds a record update. (Where the new value can be a large term the state is split, so
that `simp` rewrites with the lemma instead of asking the kernel to compare whole states.) -/
namespace Sys2Proof.Machine

/-! ### raise -/

@[simp] theorem State.raise_err (s : State) (e : CmdError) : (s.raise e).err = e.code := by cases s; rfl
@[simp] theorem State.raise_rxSeen (s : State) (e : CmdError) : (s.raise e).rxSeen = s.rxSeen := by cases s; rfl
@[simp] theorem State.raise_lastTxEnc (s : State) (e : CmdError) : (s.raise e).lastTxEnc = s.lastTxEnc := by cases s; rfl
@[simp] theorem State.raise_lastRxEnc (s : State) (e : CmdError) : (s.raise e).lastRxEnc = s.lastRxEnc := by cases s; rfl
@[simp] theorem State.raise_arg0 (s : State) (e : CmdError) : (s.raise e).arg0 = s.arg0 := by cases s; rfl
@[simp] theorem State.raise_arg1 (s : State) (e : CmdError) : (s.raise e).arg1 = s.arg1 := by cases s; rfl
@[simp] theorem State.raise_arg2 (s : State) (e : CmdError) : (s.raise e).arg2 = s.arg2 := by cases s; rfl
@[simp] theorem State.raise_res (s : State) (e : CmdError) : (s.raise e).res = s.res := by cases s; rfl
@[simp] theorem State.raise_errInfo (s : State) (e : CmdError) : (s.raise e).errInfo = e.info := by cases s; rfl
@[simp] theorem State.raise_errSticky (s : State) (e : CmdError) : (s.raise e).errSticky = s.errSticky ||| stickyBit e.code := by cases s; rfl
@[simp] theorem State.raise_txSeq (s : State) (e : CmdError) : (s.raise e).txSeq = s.txSeq := by cases s; rfl
@[simp] theorem State.raise_lastRxSeq (s : State) (e : CmdError) : (s.raise e).lastRxSeq = s.lastRxSeq := by cases s; rfl
@[simp] theorem State.raise_clientId (s : State) (e : CmdError) : (s.raise e).clientId = s.clientId := by cases s; rfl
@[simp] theorem State.raise_txPlen (s : State) (e : CmdError) : (s.raise e).txPlen = s.txPlen := by cases s; rfl
@[simp] theorem State.raise_txLen (s : State) (e : CmdError) : (s.raise e).txLen = s.txLen := by cases s; rfl
@[simp] theorem State.raise_rxLen (s : State) (e : CmdError) : (s.raise e).rxLen = s.rxLen := by cases s; rfl
@[simp] theorem State.raise_hdr (s : State) (e : CmdError) : (s.raise e).hdr = s.hdr := by cases s; rfl
@[simp] theorem State.raise_frg (s : State) (e : CmdError) : (s.raise e).frg = s.frg := by cases s; rfl
@[simp] theorem State.raise_cr (s : State) (e : CmdError) : (s.raise e).cr = s.cr := by cases s; rfl
@[simp] theorem State.raise_txCipher (s : State) (e : CmdError) : (s.raise e).txCipher = s.txCipher := by cases s; rfl
@[simp] theorem State.raise_rxCipher (s : State) (e : CmdError) : (s.raise e).rxCipher = s.rxCipher := by cases s; rfl
@[simp] theorem State.raise_txBuf (s : State) (e : CmdError) : (s.raise e).txBuf = s.txBuf := by cases s; rfl
@[simp] theorem State.raise_rxBuf (s : State) (e : CmdError) : (s.raise e).rxBuf = s.rxBuf := by cases s; rfl
@[simp] theorem State.raise_pending (s : State) (e : CmdError) : (s.raise e).pending = s.pending := by cases s; rfl
@[simp] theorem State.raise_answers (s : State) (e : CmdError) : (s.raise e).answers = s.answers := by cases s; rfl
@[simp] theorem State.raise_draws (s : State) (e : CmdError) : (s.raise e).draws = s.draws := by cases s; rfl

/-! ### succeed -/

@[simp] theorem State.succeed_err (s : State)  : (s.succeed).err = 0 := rfl
@[simp] theorem State.succeed_rxSeen (s : State)  : (s.succeed).rxSeen = s.rxSeen := rfl
@[simp] theorem State.succeed_lastTxEnc (s : State)  : (s.succeed).lastTxEnc = s.lastTxEnc := rfl
@[simp] theorem State.succeed_lastRxEnc (s : State)  : (s.succeed).lastRxEnc = s.lastRxEnc := rfl
@[simp] theorem State.succeed_arg0 (s : State)  : (s.succeed).arg0 = s.arg0 := rfl
@[simp] theorem State.succeed_arg1 (s : State)  : (s.succeed).arg1 = s.arg1 := rfl
@[simp] theorem State.succeed_arg2 (s : State)  : (s.succeed).arg2 = s.arg2 := rfl
@[simp] theorem State.succeed_res (s : State)  : (s.succeed).res = s.res := rfl
@[simp] theorem State.succeed_errInfo (s : State)  : (s.succeed).errInfo = 0 := rfl
@[simp] theorem State.succeed_errSticky (s : State)  : (s.succeed).errSticky = s.errSticky := rfl
@[simp] theorem State.succeed_txSeq (s : State)  : (s.succeed).txSeq = s.txSeq := rfl
@[simp] theorem State.succeed_lastRxSeq (s : State)  : (s.succeed).lastRxSeq = s.lastRxSeq := rfl
@[simp] theorem State.succeed_clientId (s : State)  : (s.succeed).clientId = s.clientId := rfl
@[simp] theorem State.succeed_txPlen (s : State)  : (s.succeed).txPlen = s.txPlen := rfl
@[simp] theorem State.succeed_txLen (s : State)  : (s.succeed).txLen = s.txLen := rfl
@[simp] theorem State.succeed_rxLen (s : State)  : (s.succeed).rxLen = s.rxLen := rfl
@[simp] theorem State.succeed_hdr (s : State)  : (s.succeed).hdr = s.hdr := rfl
@[simp] theorem State.succeed_frg (s : State)  : (s.succeed).frg = s.frg := rfl
@[simp] theorem State.succeed_cr (s : State)  : (s.succeed).cr = s.cr := rfl
@[simp] theorem State.succeed_txCipher (s : State)  : (s.succeed).txCipher = s.txCipher := rfl
@[simp] theorem State.succeed_rxCipher (s : State)  : (s.succeed).rxCipher = s.rxCipher := rfl
@[simp] theorem State.succeed_txBuf (s : State)  : (s.succeed).txBuf = s.txBuf := rfl
@[simp] theorem State.succeed_rxBuf (s : State)  : (s.succeed).rxBuf = s.rxBuf := rfl
@[simp] theorem State.succeed_pending (s : State)  : (s.succeed).pending = s.pending := rfl
@[simp] theorem State.succeed_answers (s : State)  : (s.succeed).answers = s.answers := rfl
@[simp] theorem State.succeed_draws (s : State)  : (s.succeed).draws = s.draws := rfl

/-! ### setBuf -/

@[simp] theorem State.setBuf_err (s : State) (d : Dir) (m : Memory) : (s.setBuf d m).err = s.err := by cases d <;> rfl
@[simp] theorem State.setBuf_rxSeen (s : State) (d : Dir) (m : Memory) : (s.setBuf d m).rxSeen = s.rxSeen := by cases d <;> rfl
@[simp] theorem State.setBuf_lastTxEnc (s : State) (d : Dir) (m : Memory) : (s.setBuf d m).lastTxEnc = s.lastTxEnc := by cases d <;> rfl
@[simp] theorem State.setBuf_lastRxEnc (s : State) (d : Dir) (m : Memory) : (s.setBuf d m).lastRxEnc = s.lastRxEnc := by cases d <;> rfl
@[simp] theorem State.setBuf_arg0 (s : State) (d : Dir) (m : Memory) : (s.setBuf d m).arg0 = s.arg0 := by cases d <;> rfl
@[simp] theorem State.setBuf_arg1 (s : State) (d : Dir) (m : Memory) : (s.setBuf d m).arg1 = s.arg1 := by cases d <;> rfl
@[simp] theorem State.setBuf_arg2 (s : State) (d : Dir) (m : Memory) : (s.setBuf d m).arg2 = s.arg2 := by cases d <;> rfl
@[simp] theorem State.setBuf_res (s : State) (d : Dir) (m : Memory) : (s.setBuf d m).res = s.res := by cases d <;> rfl
@[simp] theorem State.setBuf_errInfo (s : State) (d : Dir) (m : Memory) : (s.setBuf d m).errInfo = s.errInfo := by cases d <;> rfl
@[simp] theorem State.setBuf_errSticky (s : State) (d : Dir) (m : Memory) : (s.setBuf d m).errSticky = s.errSticky := by cases d <;> rfl
@[simp] theorem State.setBuf_txSeq (s : State) (d : Dir) (m : Memory) : (s.setBuf d m).txSeq = s.txSeq := by cases d <;> rfl
@[simp] theorem State.setBuf_lastRxSeq (s : State) (d : Dir) (m : Memory) : (s.setBuf d m).lastRxSeq = s.lastRxSeq := by cases d <;> rfl
@[simp] theorem State.setBuf_clientId (s : State) (d : Dir) (m : Memory) : (s.setBuf d m).clientId = s.clientId := by cases d <;> rfl
@[simp] theorem State.setBuf_txPlen (s : State) (d : Dir) (m : Memory) : (s.setBuf d m).txPlen = s.txPlen := by cases d <;> rfl
@[simp] theorem State.setBuf_txLen (s : State) (d : Dir) (m : Memory) : (s.setBuf d m).txLen = s.txLen := by cases d <;> rfl
@[simp] theorem State.setBuf_rxLen (s : State) (d : Dir) (m : Memory) : (s.setBuf d m).rxLen = s.rxLen := by cases d <;> rfl
@[simp] theorem State.setBuf_hdr (s : State) (d : Dir) (m : Memory) : (s.setBuf d m).hdr = s.hdr := by cases d <;> rfl
@[simp] theorem State.setBuf_frg (s : State) (d : Dir) (m : Memory) : (s.setBuf d m).frg = s.frg := by cases d <;> rfl
@[simp] theorem State.setBuf_cr (s : State) (d : Dir) (m : Memory) : (s.setBuf d m).cr = s.cr := by cases d <;> rfl
@[simp] theorem State.setBuf_txCipher (s : State) (d : Dir) (m : Memory) : (s.setBuf d m).txCipher = s.txCipher := by cases d <;> rfl
@[simp] theorem State.setBuf_rxCipher (s : State) (d : Dir) (m : Memory) : (s.setBuf d m).rxCipher = s.rxCipher := by cases d <;> rfl
@[simp] theorem State.setBuf_pending (s : State) (d : Dir) (m : Memory) : (s.setBuf d m).pending = s.pending := by cases d <;> rfl
@[simp] theorem State.setBuf_answers (s : State) (d : Dir) (m : Memory) : (s.setBuf d m).answers = s.answers := by cases d <;> rfl
@[simp] theorem State.setBuf_draws (s : State) (d : Dir) (m : Memory) : (s.setBuf d m).draws = s.draws := by cases d <;> rfl

/-! ### memWrite -/

@[simp] theorem State.memWrite_err (s : State) (d : Dir) (a : Nat) (bs : List Byte) : (s.memWrite d a bs).err = s.err := by cases d <;> rfl
@[simp] theorem State.memWrite_rxSeen (s : State) (d : Dir) (a : Nat) (bs : List Byte) : (s.memWrite d a bs).rxSeen = s.rxSeen := by cases d <;> rfl
@[simp] theorem State.memWrite_lastTxEnc (s : State) (d : Dir) (a : Nat) (bs : List Byte) : (s.memWrite d a bs).lastTxEnc = s.lastTxEnc := by cases d <;> rfl
@[simp] theorem State.memWrite_lastRxEnc (s : State) (d : Dir) (a : Nat) (bs : List Byte) : (s.memWrite d a bs).lastRxEnc = s.lastRxEnc := by cases d <;> rfl
@[simp] theorem State.memWrite_arg0 (s : State) (d : Dir) (a : Nat) (bs : List Byte) : (s.memWrite d a bs).arg0 = s.arg0 := by cases d <;> rfl
@[simp] theorem State.memWrite_arg1 (s : State) (d : Dir) (a : Nat) (bs : List Byte) : (s.memWrite d a bs).arg1 = s.arg1 := by cases d <;> rfl
@[simp] theorem State.memWrite_arg2 (s : State) (d : Dir) (a : Nat) (bs : List Byte) : (s.memWrite d a bs).arg2 = s.arg2 := by cases d <;> rfl
@[simp] theorem State.memWrite_res (s : State) (d : Dir) (a : Nat) (bs : List Byte) : (s.memWrite d a bs).res = s.res := by cases d <;> rfl
@[simp] theorem State.memWrite_errInfo (s : State) (d : Dir) (a : Nat) (bs : List Byte) : (s.memWrite d a bs).errInfo = s.errInfo := by cases d <;> rfl
@[simp] theorem State.memWrite_errSticky (s : State) (d : Dir) (a : Nat) (bs : List Byte) : (s.memWrite d a bs).errSticky = s.errSticky := by cases d <;> rfl
@[simp] theorem State.memWrite_txSeq (s : State) (d : Dir) (a : Nat) (bs : List Byte) : (s.memWrite d a bs).txSeq = s.txSeq := by cases d <;> rfl
@[simp] theorem State.memWrite_lastRxSeq (s : State) (d : Dir) (a : Nat) (bs : List Byte) : (s.memWrite d a bs).lastRxSeq = s.lastRxSeq := by cases d <;> rfl
@[simp] theorem State.memWrite_clientId (s : State) (d : Dir) (a : Nat) (bs : List Byte) : (s.memWrite d a bs).clientId = s.clientId := by cases d <;> rfl
@[simp] theorem State.memWrite_txPlen (s : State) (d : Dir) (a : Nat) (bs : List Byte) : (s.memWrite d a bs).txPlen = s.txPlen := by cases d <;> rfl
@[simp] theorem State.memWrite_txLen (s : State) (d : Dir) (a : Nat) (bs : List Byte) : (s.memWrite d a bs).txLen = s.txLen := by cases d <;> rfl
@[simp] theorem State.memWrite_rxLen (s : State) (d : Dir) (a : Nat) (bs : List Byte) : (s.memWrite d a bs).rxLen = s.rxLen := by cases d <;> rfl
@[simp] theorem State.memWrite_hdr (s : State) (d : Dir) (a : Nat) (bs : List Byte) : (s.memWrite d a bs).hdr = s.hdr := by cases d <;> rfl
@[simp] theorem State.memWrite_frg (s : State) (d : Dir) (a : Nat) (bs : List Byte) : (s.memWrite d a bs).frg = s.frg := by cases d <;> rfl
@[simp] theorem State.memWrite_cr (s : State) (d : Dir) (a : Nat) (bs : List Byte) : (s.memWrite d a bs).cr = s.cr := by cases d <;> rfl
@[simp] theorem State.memWrite_txCipher (s : State) (d : Dir) (a : Nat) (bs : List Byte) : (s.memWrite d a bs).txCipher = s.txCipher := by cases d <;> rfl
@[simp] theorem State.memWrite_rxCipher (s : State) (d : Dir) (a : Nat) (bs : List Byte) : (s.memWrite d a bs).rxCipher = s.rxCipher := by cases d <;> rfl
@[simp] theorem State.memWrite_pending (s : State) (d : Dir) (a : Nat) (bs : List Byte) : (s.memWrite d a bs).pending = s.pending := by cases d <;> rfl
@[simp] theorem State.memWrite_answers (s : State) (d : Dir) (a : Nat) (bs : List Byte) : (s.memWrite d a bs).answers = s.answers := by cases d <;> rfl
@[simp] theorem State.memWrite_draws (s : State) (d : Dir) (a : Nat) (bs : List Byte) : (s.memWrite d a bs).draws = s.draws := by cases d <;> rfl

/-! ### setCipher -/

@[simp] theorem State.setCipher_err (s : State) (d : Dir) (c : Option Cipher) : (s.setCipher d c).err = s.err := by cases d <;> rfl
@[simp] theorem State.setCipher_rxSeen (s : State) (d : Dir) (c : Option Cipher) : (s.setCipher d c).rxSeen = s.rxSeen := by cases d <;> rfl
@[simp] theorem State.setCipher_lastTxEnc (s : State) (d : Dir) (c : Option Cipher) : (s.setCipher d c).lastTxEnc = s.lastTxEnc := by cases d <;> rfl
@[simp] theorem State.setCipher_lastRxEnc (s : State) (d : Dir) (c : Option Cipher) : (s.setCipher d c).lastRxEnc = s.lastRxEnc := by cases d <;> rfl
@[simp] theorem State.setCipher_arg0 (s : State) (d : Dir) (c : Option Cipher) : (s.setCipher d c).arg0 = s.arg0 := by cases d <;> rfl
@[simp] theorem State.setCipher_arg1 (s : State) (d : Dir) (c : Option Cipher) : (s.setCipher d c).arg1 = s.arg1 := by cases d <;> rfl
@[simp] theorem State.setCipher_arg2 (s : State) (d : Dir) (c : Option Cipher) : (s.setCipher d c).arg2 = s.arg2 := by cases d <;> rfl
@[simp] theorem State.setCipher_res (s : State) (d : Dir) (c : Option Cipher) : (s.setCipher d c).res = s.res := by cases d <;> rfl
@[simp] theorem State.setCipher_errInfo (s : State) (d : Dir) (c : Option Cipher) : (s.setCipher d c).errInfo = s.errInfo := by cases d <;> rfl
@[simp] theorem State.setCipher_errSticky (s : State) (d : Dir) (c : Option Cipher) : (s.setCipher d c).errSticky = s.errSticky := by cases d <;> rfl
@[simp] theorem State.setCipher_txSeq (s : State) (d : Dir) (c : Option Cipher) : (s.setCipher d c).txSeq = s.txSeq := by cases d <;> rfl
@[simp] theorem State.setCipher_lastRxSeq (s : State) (d : Dir) (c : Option Cipher) : (s.setCipher d c).lastRxSeq = s.lastRxSeq := by cases d <;> rfl
@[simp] theorem State.setCipher_clientId (s : State) (d : Dir) (c : Option Cipher) : (s.setCipher d c).clientId = s.clientId := by cases d <;> rfl
@[simp] theorem State.setCipher_txPlen (s : State) (d : Dir) (c : Option Cipher) : (s.setCipher d c).txPlen = s.txPlen := by cases d <;> rfl
@[simp] theorem State.setCipher_txLen (s : State) (d : Dir) (c : Option Cipher) : (s.setCipher d c).txLen = s.txLen := by cases d <;> rfl
@[simp] theorem State.setCipher_rxLen (s : State) (d : Dir) (c : Option Cipher) : (s.setCipher d c).rxLen = s.rxLen := by cases d <;> rfl
@[simp] theorem State.setCipher_hdr (s : State) (d : Dir) (c : Option Cipher) : (s.setCipher d c).hdr = s.hdr := by cases d <;> rfl
@[simp] theorem State.setCipher_frg (s : State) (d : Dir) (c : Option Cipher) : (s.setCipher d c).frg = s.frg := by cases d <;> rfl
@[simp] theorem State.setCipher_cr (s : State) (d : Dir) (c : Option Cipher) : (s.setCipher d c).cr = s.cr := by cases d <;> rfl
@[simp] theorem State.setCipher_txBuf (s : State) (d : Dir) (c : Option Cipher) : (s.setCipher d c).txBuf = s.txBuf := by cases d <;> rfl
@[simp] theorem State.setCipher_rxBuf (s : State) (d : Dir) (c : Option Cipher) : (s.setCipher d c).rxBuf = s.rxBuf := by cases d <;> rfl
@[simp] theorem State.setCipher_pending (s : State) (d : Dir) (c : Option Cipher) : (s.setCipher d c).pending = s.pending := by cases d <;> rfl
@[simp] theorem State.setCipher_answers (s : State) (d : Dir) (c : Option Cipher) : (s.setCipher d c).answers = s.answers := by cases d <;> rfl
@[simp] theorem State.setCipher_draws (s : State) (d : Dir) (c : Option Cipher) : (s.setCipher d c).draws = s.draws := by cases d <;> rfl

/-! ### setRes -/

@[simp] theorem State.setRes_err (s : State) (w : Word) : (s.setRes w).err = s.err := by cases s; rfl
@[simp] theorem State.setRes_rxSeen (s : State) (w : Word) : (s.setRes w).rxSeen = s.rxSeen := by cases s; rfl
@[simp] theorem State.setRes_lastTxEnc (s : State) (w : Word) : (s.setRes w).lastTxEnc = s.lastTxEnc := by cases s; rfl
@[simp] theorem State.setRes_lastRxEnc (s : State) (w : Word) : (s.setRes w).lastRxEnc = s.lastRxEnc := by cases s; rfl
@[simp] theorem State.setRes_arg0 (s : State) (w : Word) : (s.setRes w).arg0 = s.arg0 := by cases s; rfl
@[simp] theorem State.setRes_arg1 (s : State) (w : Word) : (s.setRes w).arg1 = s.arg1 := by cases s; rfl
@[simp] theorem State.setRes_arg2 (s : State) (w : Word) : (s.setRes w).arg2 = s.arg2 := by cases s; rfl
@[simp] theorem State.setRes_res (s : State) (w : Word) : (s.setRes w).res = w := by cases s; rfl
@[simp] theorem State.setRes_errInfo (s : State) (w : Word) : (s.setRes w).errInfo = s.errInfo := by cases s; rfl
@[simp] theorem State.setRes_errSticky (s : State) (w : Word) : (s.setRes w).errSticky = s.errSticky := by cases s; rfl
@[simp] theorem State.setRes_txSeq (s : State) (w : Word) : (s.setRes w).txSeq = s.txSeq := by cases s; rfl
@[simp] theorem State.setRes_lastRxSeq (s : State) (w : Word) : (s.setRes w).lastRxSeq = s.lastRxSeq := by cases s; rfl
@[simp] theorem State.setRes_clientId (s : State) (w : Word) : (s.setRes w).clientId = s.clientId := by cases s; rfl
@[simp] theorem State.setRes_txPlen (s : State) (w : Word) : (s.setRes w).txPlen = s.txPlen := by cases s; rfl
@[simp] theorem State.setRes_txLen (s : State) (w : Word) : (s.setRes w).txLen = s.txLen := by cases s; rfl
@[simp] theorem State.setRes_rxLen (s : State) (w : Word) : (s.setRes w).rxLen = s.rxLen := by cases s; rfl
@[simp] theorem State.setRes_hdr (s : State) (w : Word) : (s.setRes w).hdr = s.hdr := by cases s; rfl
@[simp] theorem State.setRes_frg (s : State) (w : Word) : (s.setRes w).frg = s.frg := by cases s; rfl
@[simp] theorem State.setRes_cr (s : State) (w : Word) : (s.setRes w).cr = s.cr := by cases s; rfl
@[simp] theorem State.setRes_txCipher (s : State) (w : Word) : (s.setRes w).txCipher = s.txCipher := by cases s; rfl
@[simp] theorem State.setRes_rxCipher (s : State) (w : Word) : (s.setRes w).rxCipher = s.rxCipher := by cases s; rfl
@[simp] theorem State.setRes_txBuf (s : State) (w : Word) : (s.setRes w).txBuf = s.txBuf := by cases s; rfl
@[simp] theorem State.setRes_rxBuf (s : State) (w : Word) : (s.setRes w).rxBuf = s.rxBuf := by cases s; rfl
@[simp] theorem State.setRes_pending (s : State) (w : Word) : (s.setRes w).pending = s.pending := by cases s; rfl
@[simp] theorem State.setRes_answers (s : State) (w : Word) : (s.setRes w).answers = s.answers := by cases s; rfl
@[simp] theorem State.setRes_draws (s : State) (w : Word) : (s.setRes w).draws = s.draws := by cases s; rfl

/-! ### setHdr -/

@[simp] theorem State.setHdr_err (s : State) (h : HeaderRegs) : (s.setHdr h).err = s.err := by cases s; rfl
@[simp] theorem State.setHdr_rxSeen (s : State) (h : HeaderRegs) : (s.setHdr h).rxSeen = s.rxSeen := by cases s; rfl
@[simp] theorem State.setHdr_lastTxEnc (s : State) (h : HeaderRegs) : (s.setHdr h).lastTxEnc = s.lastTxEnc := by cases s; rfl
@[simp] theorem State.setHdr_lastRxEnc (s : State) (h : HeaderRegs) : (s.setHdr h).lastRxEnc = s.lastRxEnc := by cases s; rfl
@[simp] theorem State.setHdr_arg0 (s : State) (h : HeaderRegs) : (s.setHdr h).arg0 = s.arg0 := by cases s; rfl
@[simp] theorem State.setHdr_arg1 (s : State) (h : HeaderRegs) : (s.setHdr h).arg1 = s.arg1 := by cases s; rfl
@[simp] theorem State.setHdr_arg2 (s : State) (h : HeaderRegs) : (s.setHdr h).arg2 = s.arg2 := by cases s; rfl
@[simp] theorem State.setHdr_res (s : State) (h : HeaderRegs) : (s.setHdr h).res = s.res := by cases s; rfl
@[simp] theorem State.setHdr_errInfo (s : State) (h : HeaderRegs) : (s.setHdr h).errInfo = s.errInfo := by cases s; rfl
@[simp] theorem State.setHdr_errSticky (s : State) (h : HeaderRegs) : (s.setHdr h).errSticky = s.errSticky := by cases s; rfl
@[simp] theorem State.setHdr_txSeq (s : State) (h : HeaderRegs) : (s.setHdr h).txSeq = s.txSeq := by cases s; rfl
@[simp] theorem State.setHdr_lastRxSeq (s : State) (h : HeaderRegs) : (s.setHdr h).lastRxSeq = s.lastRxSeq := by cases s; rfl
@[simp] theorem State.setHdr_clientId (s : State) (h : HeaderRegs) : (s.setHdr h).clientId = s.clientId := by cases s; rfl
@[simp] theorem State.setHdr_txPlen (s : State) (h : HeaderRegs) : (s.setHdr h).txPlen = s.txPlen := by cases s; rfl
@[simp] theorem State.setHdr_txLen (s : State) (h : HeaderRegs) : (s.setHdr h).txLen = s.txLen := by cases s; rfl
@[simp] theorem State.setHdr_rxLen (s : State) (h : HeaderRegs) : (s.setHdr h).rxLen = s.rxLen := by cases s; rfl
@[simp] theorem State.setHdr_hdr (s : State) (h : HeaderRegs) : (s.setHdr h).hdr = h := by cases s; rfl
@[simp] theorem State.setHdr_frg (s : State) (h : HeaderRegs) : (s.setHdr h).frg = s.frg := by cases s; rfl
@[simp] theorem State.setHdr_cr (s : State) (h : HeaderRegs) : (s.setHdr h).cr = s.cr := by cases s; rfl
@[simp] theorem State.setHdr_txCipher (s : State) (h : HeaderRegs) : (s.setHdr h).txCipher = s.txCipher := by cases s; rfl
@[simp] theorem State.setHdr_rxCipher (s : State) (h : HeaderRegs) : (s.setHdr h).rxCipher = s.rxCipher := by cases s; rfl
@[simp] theorem State.setHdr_txBuf (s : State) (h : HeaderRegs) : (s.setHdr h).txBuf = s.txBuf := by cases s; rfl
@[simp] theorem State.setHdr_rxBuf (s : State) (h : HeaderRegs) : (s.setHdr h).rxBuf = s.rxBuf := by cases s; rfl
@[simp] theorem State.setHdr_pending (s : State) (h : HeaderRegs) : (s.setHdr h).pending = s.pending := by cases s; rfl
@[simp] theorem State.setHdr_answers (s : State) (h : HeaderRegs) : (s.setHdr h).answers = s.answers := by cases s; rfl
@[simp] theorem State.setHdr_draws (s : State) (h : HeaderRegs) : (s.setHdr h).draws = s.draws := by cases s; rfl

/-! ### setFrg -/

@[simp] theorem State.setFrg_err (s : State) (g : FragmentRegs) : (s.setFrg g).err = s.err := by cases s; rfl
@[simp] theorem State.setFrg_rxSeen (s : State) (g : FragmentRegs) : (s.setFrg g).rxSeen = s.rxSeen := by cases s; rfl
@[simp] theorem State.setFrg_lastTxEnc (s : State) (g : FragmentRegs) : (s.setFrg g).lastTxEnc = s.lastTxEnc := by cases s; rfl
@[simp] theorem State.setFrg_lastRxEnc (s : State) (g : FragmentRegs) : (s.setFrg g).lastRxEnc = s.lastRxEnc := by cases s; rfl
@[simp] theorem State.setFrg_arg0 (s : State) (g : FragmentRegs) : (s.setFrg g).arg0 = s.arg0 := by cases s; rfl
@[simp] theorem State.setFrg_arg1 (s : State) (g : FragmentRegs) : (s.setFrg g).arg1 = s.arg1 := by cases s; rfl
@[simp] theorem State.setFrg_arg2 (s : State) (g : FragmentRegs) : (s.setFrg g).arg2 = s.arg2 := by cases s; rfl
@[simp] theorem State.setFrg_res (s : State) (g : FragmentRegs) : (s.setFrg g).res = s.res := by cases s; rfl
@[simp] theorem State.setFrg_errInfo (s : State) (g : FragmentRegs) : (s.setFrg g).errInfo = s.errInfo := by cases s; rfl
@[simp] theorem State.setFrg_errSticky (s : State) (g : FragmentRegs) : (s.setFrg g).errSticky = s.errSticky := by cases s; rfl
@[simp] theorem State.setFrg_txSeq (s : State) (g : FragmentRegs) : (s.setFrg g).txSeq = s.txSeq := by cases s; rfl
@[simp] theorem State.setFrg_lastRxSeq (s : State) (g : FragmentRegs) : (s.setFrg g).lastRxSeq = s.lastRxSeq := by cases s; rfl
@[simp] theorem State.setFrg_clientId (s : State) (g : FragmentRegs) : (s.setFrg g).clientId = s.clientId := by cases s; rfl
@[simp] theorem State.setFrg_txPlen (s : State) (g : FragmentRegs) : (s.setFrg g).txPlen = s.txPlen := by cases s; rfl
@[simp] theorem State.setFrg_txLen (s : State) (g : FragmentRegs) : (s.setFrg g).txLen = s.txLen := by cases s; rfl
@[simp] theorem State.setFrg_rxLen (s : State) (g : FragmentRegs) : (s.setFrg g).rxLen = s.rxLen := by cases s; rfl
@[simp] theorem State.setFrg_hdr (s : State) (g : FragmentRegs) : (s.setFrg g).hdr = s.hdr := by cases s; rfl
@[simp] theorem State.setFrg_frg (s : State) (g : FragmentRegs) : (s.setFrg g).frg = g := by cases s; rfl
@[simp] theorem State.setFrg_cr (s : State) (g : FragmentRegs) : (s.setFrg g).cr = s.cr := by cases s; rfl
@[simp] theorem State.setFrg_txCipher (s : State) (g : FragmentRegs) : (s.setFrg g).txCipher = s.txCipher := by cases s; rfl
@[simp] theorem State.setFrg_rxCipher (s : State) (g : FragmentRegs) : (s.setFrg g).rxCipher = s.rxCipher := by cases s; rfl
@[simp] theorem State.setFrg_txBuf (s : State) (g : FragmentRegs) : (s.setFrg g).txBuf = s.txBuf := by cases s; rfl
@[simp] theorem State.setFrg_rxBuf (s : State) (g : FragmentRegs) : (s.setFrg g).rxBuf = s.rxBuf := by cases s; rfl
@[simp] theorem State.setFrg_pending (s : State) (g : FragmentRegs) : (s.setFrg g).pending = s.pending := by cases s; rfl
@[simp] theorem State.setFrg_answers (s : State) (g : FragmentRegs) : (s.setFrg g).answers = s.answers := by cases s; rfl
@[simp] theorem State.setFrg_draws (s : State) (g : FragmentRegs) : (s.setFrg g).draws = s.draws := by cases s; rfl

/-! ### answer -/

@[simp] theorem State.answer_err (s : State) (x : HostAnswer) : (s.answer x).err = s.err := rfl
@[simp] theorem State.answer_rxSeen (s : State) (x : HostAnswer) : (s.answer x).rxSeen = s.rxSeen := rfl
@[simp] theorem State.answer_lastTxEnc (s : State) (x : HostAnswer) : (s.answer x).lastTxEnc = s.lastTxEnc := rfl
@[simp] theorem State.answer_lastRxEnc (s : State) (x : HostAnswer) : (s.answer x).lastRxEnc = s.lastRxEnc := rfl
@[simp] theorem State.answer_arg0 (s : State) (x : HostAnswer) : (s.answer x).arg0 = s.arg0 := rfl
@[simp] theorem State.answer_arg1 (s : State) (x : HostAnswer) : (s.answer x).arg1 = s.arg1 := rfl
@[simp] theorem State.answer_arg2 (s : State) (x : HostAnswer) : (s.answer x).arg2 = s.arg2 := rfl
@[simp] theorem State.answer_res (s : State) (x : HostAnswer) : (s.answer x).res = s.res := rfl
@[simp] theorem State.answer_errInfo (s : State) (x : HostAnswer) : (s.answer x).errInfo = s.errInfo := rfl
@[simp] theorem State.answer_errSticky (s : State) (x : HostAnswer) : (s.answer x).errSticky = s.errSticky := rfl
@[simp] theorem State.answer_txSeq (s : State) (x : HostAnswer) : (s.answer x).txSeq = s.txSeq := rfl
@[simp] theorem State.answer_lastRxSeq (s : State) (x : HostAnswer) : (s.answer x).lastRxSeq = s.lastRxSeq := rfl
@[simp] theorem State.answer_clientId (s : State) (x : HostAnswer) : (s.answer x).clientId = s.clientId := rfl
@[simp] theorem State.answer_txPlen (s : State) (x : HostAnswer) : (s.answer x).txPlen = s.txPlen := rfl
@[simp] theorem State.answer_txLen (s : State) (x : HostAnswer) : (s.answer x).txLen = s.txLen := rfl
@[simp] theorem State.answer_rxLen (s : State) (x : HostAnswer) : (s.answer x).rxLen = s.rxLen := rfl
@[simp] theorem State.answer_hdr (s : State) (x : HostAnswer) : (s.answer x).hdr = s.hdr := rfl
@[simp] theorem State.answer_frg (s : State) (x : HostAnswer) : (s.answer x).frg = s.frg := rfl
@[simp] theorem State.answer_cr (s : State) (x : HostAnswer) : (s.answer x).cr = s.cr := rfl
@[simp] theorem State.answer_txCipher (s : State) (x : HostAnswer) : (s.answer x).txCipher = s.txCipher := rfl
@[simp] theorem State.answer_rxCipher (s : State) (x : HostAnswer) : (s.answer x).rxCipher = s.rxCipher := rfl
@[simp] theorem State.answer_txBuf (s : State) (x : HostAnswer) : (s.answer x).txBuf = s.txBuf := rfl
@[simp] theorem State.answer_rxBuf (s : State) (x : HostAnswer) : (s.answer x).rxBuf = s.rxBuf := rfl
@[simp] theorem State.answer_pending (s : State) (x : HostAnswer) : (s.answer x).pending = s.pending := rfl
@[simp] theorem State.answer_answers (s : State) (x : HostAnswer) : (s.answer x).answers = x :: s.answers := rfl
@[simp] theorem State.answer_draws (s : State) (x : HostAnswer) : (s.answer x).draws = s.draws := rfl

/-! ### taken -/

@[simp] theorem State.taken_err (s : State) (rest : List HostEvent) : (s.taken rest).err = s.err := rfl
@[simp] theorem State.taken_rxSeen (s : State) (rest : List HostEvent) : (s.taken rest).rxSeen = s.rxSeen := rfl
@[simp] theorem State.taken_lastTxEnc (s : State) (rest : List HostEvent) : (s.taken rest).lastTxEnc = s.lastTxEnc := rfl
@[simp] theorem State.taken_lastRxEnc (s : State) (rest : List HostEvent) : (s.taken rest).lastRxEnc = s.lastRxEnc := rfl
@[simp] theorem State.taken_arg0 (s : State) (rest : List HostEvent) : (s.taken rest).arg0 = s.arg0 := rfl
@[simp] theorem State.taken_arg1 (s : State) (rest : List HostEvent) : (s.taken rest).arg1 = s.arg1 := rfl
@[simp] theorem State.taken_arg2 (s : State) (rest : List HostEvent) : (s.taken rest).arg2 = s.arg2 := rfl
@[simp] theorem State.taken_res (s : State) (rest : List HostEvent) : (s.taken rest).res = s.res := rfl
@[simp] theorem State.taken_errInfo (s : State) (rest : List HostEvent) : (s.taken rest).errInfo = s.errInfo := rfl
@[simp] theorem State.taken_errSticky (s : State) (rest : List HostEvent) : (s.taken rest).errSticky = s.errSticky := rfl
@[simp] theorem State.taken_txSeq (s : State) (rest : List HostEvent) : (s.taken rest).txSeq = s.txSeq := rfl
@[simp] theorem State.taken_lastRxSeq (s : State) (rest : List HostEvent) : (s.taken rest).lastRxSeq = s.lastRxSeq := rfl
@[simp] theorem State.taken_clientId (s : State) (rest : List HostEvent) : (s.taken rest).clientId = s.clientId := rfl
@[simp] theorem State.taken_txPlen (s : State) (rest : List HostEvent) : (s.taken rest).txPlen = s.txPlen := rfl
@[simp] theorem State.taken_txLen (s : State) (rest : List HostEvent) : (s.taken rest).txLen = s.txLen := rfl
@[simp] theorem State.taken_rxLen (s : State) (rest : List HostEvent) : (s.taken rest).rxLen = s.rxLen := rfl
@[simp] theorem State.taken_hdr (s : State) (rest : List HostEvent) : (s.taken rest).hdr = s.hdr := rfl
@[simp] theorem State.taken_frg (s : State) (rest : List HostEvent) : (s.taken rest).frg = s.frg := rfl
@[simp] theorem State.taken_cr (s : State) (rest : List HostEvent) : (s.taken rest).cr = s.cr := rfl
@[simp] theorem State.taken_txCipher (s : State) (rest : List HostEvent) : (s.taken rest).txCipher = s.txCipher := rfl
@[simp] theorem State.taken_rxCipher (s : State) (rest : List HostEvent) : (s.taken rest).rxCipher = s.rxCipher := rfl
@[simp] theorem State.taken_txBuf (s : State) (rest : List HostEvent) : (s.taken rest).txBuf = s.txBuf := rfl
@[simp] theorem State.taken_rxBuf (s : State) (rest : List HostEvent) : (s.taken rest).rxBuf = s.rxBuf := rfl
@[simp] theorem State.taken_pending (s : State) (rest : List HostEvent) : (s.taken rest).pending = rest := rfl
@[simp] theorem State.taken_answers (s : State) (rest : List HostEvent) : (s.taken rest).answers = s.answers := rfl
@[simp] theorem State.taken_draws (s : State) (rest : List HostEvent) : (s.taken rest).draws = s.draws := rfl

/-! ### withCommand -/

@[simp] theorem State.withCommand_err (s : State) (w : Word) : (s.withCommand w).err = s.err := rfl
@[simp] theorem State.withCommand_rxSeen (s : State) (w : Word) : (s.withCommand w).rxSeen = s.rxSeen := rfl
@[simp] theorem State.withCommand_lastTxEnc (s : State) (w : Word) : (s.withCommand w).lastTxEnc = s.lastTxEnc := rfl
@[simp] theorem State.withCommand_lastRxEnc (s : State) (w : Word) : (s.withCommand w).lastRxEnc = s.lastRxEnc := rfl
@[simp] theorem State.withCommand_arg0 (s : State) (w : Word) : (s.withCommand w).arg0 = s.arg0 := rfl
@[simp] theorem State.withCommand_arg1 (s : State) (w : Word) : (s.withCommand w).arg1 = s.arg1 := rfl
@[simp] theorem State.withCommand_arg2 (s : State) (w : Word) : (s.withCommand w).arg2 = s.arg2 := rfl
@[simp] theorem State.withCommand_res (s : State) (w : Word) : (s.withCommand w).res = s.res := rfl
@[simp] theorem State.withCommand_errInfo (s : State) (w : Word) : (s.withCommand w).errInfo = s.errInfo := rfl
@[simp] theorem State.withCommand_errSticky (s : State) (w : Word) : (s.withCommand w).errSticky = s.errSticky := rfl
@[simp] theorem State.withCommand_txSeq (s : State) (w : Word) : (s.withCommand w).txSeq = s.txSeq := rfl
@[simp] theorem State.withCommand_lastRxSeq (s : State) (w : Word) : (s.withCommand w).lastRxSeq = s.lastRxSeq := rfl
@[simp] theorem State.withCommand_clientId (s : State) (w : Word) : (s.withCommand w).clientId = s.clientId := rfl
@[simp] theorem State.withCommand_txPlen (s : State) (w : Word) : (s.withCommand w).txPlen = s.txPlen := rfl
@[simp] theorem State.withCommand_txLen (s : State) (w : Word) : (s.withCommand w).txLen = s.txLen := rfl
@[simp] theorem State.withCommand_rxLen (s : State) (w : Word) : (s.withCommand w).rxLen = s.rxLen := rfl
@[simp] theorem State.withCommand_hdr (s : State) (w : Word) : (s.withCommand w).hdr = s.hdr := rfl
@[simp] theorem State.withCommand_frg (s : State) (w : Word) : (s.withCommand w).frg = s.frg := rfl
@[simp] theorem State.withCommand_cr (s : State) (w : Word) : (s.withCommand w).cr = s.cr := rfl
@[simp] theorem State.withCommand_txCipher (s : State) (w : Word) : (s.withCommand w).txCipher = s.txCipher := rfl
@[simp] theorem State.withCommand_rxCipher (s : State) (w : Word) : (s.withCommand w).rxCipher = s.rxCipher := rfl
@[simp] theorem State.withCommand_txBuf (s : State) (w : Word) : (s.withCommand w).txBuf = s.txBuf := rfl
@[simp] theorem State.withCommand_rxBuf (s : State) (w : Word) : (s.withCommand w).rxBuf = s.rxBuf := rfl
@[simp] theorem State.withCommand_pending (s : State) (w : Word) : (s.withCommand w).pending = cmdEvent w :: s.pending := rfl
@[simp] theorem State.withCommand_answers (s : State) (w : Word) : (s.withCommand w).answers = s.answers := rfl
@[simp] theorem State.withCommand_draws (s : State) (w : Word) : (s.withCommand w).draws = s.draws := rfl

/-! ### cleared -/

@[simp] theorem State.cleared_err (s : State) (cfg : Config) : (s.cleared cfg).err = (State.resetWith cfg).err := rfl
@[simp] theorem State.cleared_rxSeen (s : State) (cfg : Config) : (s.cleared cfg).rxSeen = (State.resetWith cfg).rxSeen := rfl
@[simp] theorem State.cleared_lastTxEnc (s : State) (cfg : Config) : (s.cleared cfg).lastTxEnc = (State.resetWith cfg).lastTxEnc := rfl
@[simp] theorem State.cleared_lastRxEnc (s : State) (cfg : Config) : (s.cleared cfg).lastRxEnc = (State.resetWith cfg).lastRxEnc := rfl
@[simp] theorem State.cleared_arg0 (s : State) (cfg : Config) : (s.cleared cfg).arg0 = (State.resetWith cfg).arg0 := rfl
@[simp] theorem State.cleared_arg1 (s : State) (cfg : Config) : (s.cleared cfg).arg1 = (State.resetWith cfg).arg1 := rfl
@[simp] theorem State.cleared_arg2 (s : State) (cfg : Config) : (s.cleared cfg).arg2 = (State.resetWith cfg).arg2 := rfl
@[simp] theorem State.cleared_res (s : State) (cfg : Config) : (s.cleared cfg).res = (State.resetWith cfg).res := rfl
@[simp] theorem State.cleared_errInfo (s : State) (cfg : Config) : (s.cleared cfg).errInfo = (State.resetWith cfg).errInfo := rfl
@[simp] theorem State.cleared_errSticky (s : State) (cfg : Config) : (s.cleared cfg).errSticky = (State.resetWith cfg).errSticky := rfl
@[simp] theorem State.cleared_txSeq (s : State) (cfg : Config) : (s.cleared cfg).txSeq = (State.resetWith cfg).txSeq := rfl
@[simp] theorem State.cleared_lastRxSeq (s : State) (cfg : Config) : (s.cleared cfg).lastRxSeq = (State.resetWith cfg).lastRxSeq := rfl
@[simp] theorem State.cleared_clientId (s : State) (cfg : Config) : (s.cleared cfg).clientId = (State.resetWith cfg).clientId := rfl
@[simp] theorem State.cleared_txPlen (s : State) (cfg : Config) : (s.cleared cfg).txPlen = (State.resetWith cfg).txPlen := rfl
@[simp] theorem State.cleared_txLen (s : State) (cfg : Config) : (s.cleared cfg).txLen = (State.resetWith cfg).txLen := rfl
@[simp] theorem State.cleared_rxLen (s : State) (cfg : Config) : (s.cleared cfg).rxLen = (State.resetWith cfg).rxLen := rfl
@[simp] theorem State.cleared_hdr (s : State) (cfg : Config) : (s.cleared cfg).hdr = (State.resetWith cfg).hdr := rfl
@[simp] theorem State.cleared_frg (s : State) (cfg : Config) : (s.cleared cfg).frg = (State.resetWith cfg).frg := rfl
@[simp] theorem State.cleared_cr (s : State) (cfg : Config) : (s.cleared cfg).cr = (State.resetWith cfg).cr := rfl
@[simp] theorem State.cleared_txCipher (s : State) (cfg : Config) : (s.cleared cfg).txCipher = (State.resetWith cfg).txCipher := rfl
@[simp] theorem State.cleared_rxCipher (s : State) (cfg : Config) : (s.cleared cfg).rxCipher = (State.resetWith cfg).rxCipher := rfl
@[simp] theorem State.cleared_txBuf (s : State) (cfg : Config) : (s.cleared cfg).txBuf = s.txBuf := rfl
@[simp] theorem State.cleared_rxBuf (s : State) (cfg : Config) : (s.cleared cfg).rxBuf = s.rxBuf := rfl
@[simp] theorem State.cleared_pending (s : State) (cfg : Config) : (s.cleared cfg).pending = s.pending := rfl
@[simp] theorem State.cleared_answers (s : State) (cfg : Config) : (s.cleared cfg).answers = s.answers := rfl
@[simp] theorem State.cleared_draws (s : State) (cfg : Config) : (s.cleared cfg).draws = s.draws := rfl

/-! ### afterReset -/

@[simp] theorem State.afterReset_err (s : State) (cfg : Config) : (s.afterReset cfg).err = (State.resetWith cfg).err := rfl
@[simp] theorem State.afterReset_rxSeen (s : State) (cfg : Config) : (s.afterReset cfg).rxSeen = (State.resetWith cfg).rxSeen := rfl
@[simp] theorem State.afterReset_lastTxEnc (s : State) (cfg : Config) : (s.afterReset cfg).lastTxEnc = (State.resetWith cfg).lastTxEnc := rfl
@[simp] theorem State.afterReset_lastRxEnc (s : State) (cfg : Config) : (s.afterReset cfg).lastRxEnc = (State.resetWith cfg).lastRxEnc := rfl
@[simp] theorem State.afterReset_arg0 (s : State) (cfg : Config) : (s.afterReset cfg).arg0 = (State.resetWith cfg).arg0 := rfl
@[simp] theorem State.afterReset_arg1 (s : State) (cfg : Config) : (s.afterReset cfg).arg1 = (State.resetWith cfg).arg1 := rfl
@[simp] theorem State.afterReset_arg2 (s : State) (cfg : Config) : (s.afterReset cfg).arg2 = (State.resetWith cfg).arg2 := rfl
@[simp] theorem State.afterReset_res (s : State) (cfg : Config) : (s.afterReset cfg).res = (State.resetWith cfg).res := rfl
@[simp] theorem State.afterReset_errInfo (s : State) (cfg : Config) : (s.afterReset cfg).errInfo = (State.resetWith cfg).errInfo := rfl
@[simp] theorem State.afterReset_errSticky (s : State) (cfg : Config) : (s.afterReset cfg).errSticky = (State.resetWith cfg).errSticky := rfl
@[simp] theorem State.afterReset_txSeq (s : State) (cfg : Config) : (s.afterReset cfg).txSeq = (State.resetWith cfg).txSeq := rfl
@[simp] theorem State.afterReset_lastRxSeq (s : State) (cfg : Config) : (s.afterReset cfg).lastRxSeq = (State.resetWith cfg).lastRxSeq := rfl
@[simp] theorem State.afterReset_clientId (s : State) (cfg : Config) : (s.afterReset cfg).clientId = (State.resetWith cfg).clientId := rfl
@[simp] theorem State.afterReset_txPlen (s : State) (cfg : Config) : (s.afterReset cfg).txPlen = (State.resetWith cfg).txPlen := rfl
@[simp] theorem State.afterReset_txLen (s : State) (cfg : Config) : (s.afterReset cfg).txLen = (State.resetWith cfg).txLen := rfl
@[simp] theorem State.afterReset_rxLen (s : State) (cfg : Config) : (s.afterReset cfg).rxLen = (State.resetWith cfg).rxLen := rfl
@[simp] theorem State.afterReset_hdr (s : State) (cfg : Config) : (s.afterReset cfg).hdr = (State.resetWith cfg).hdr := rfl
@[simp] theorem State.afterReset_frg (s : State) (cfg : Config) : (s.afterReset cfg).frg = (State.resetWith cfg).frg := rfl
@[simp] theorem State.afterReset_cr (s : State) (cfg : Config) : (s.afterReset cfg).cr = (State.resetWith cfg).cr := rfl
@[simp] theorem State.afterReset_txCipher (s : State) (cfg : Config) : (s.afterReset cfg).txCipher = (State.resetWith cfg).txCipher := rfl
@[simp] theorem State.afterReset_rxCipher (s : State) (cfg : Config) : (s.afterReset cfg).rxCipher = (State.resetWith cfg).rxCipher := rfl
@[simp] theorem State.afterReset_txBuf (s : State) (cfg : Config) : (s.afterReset cfg).txBuf = (State.resetWith cfg).txBuf := rfl
@[simp] theorem State.afterReset_rxBuf (s : State) (cfg : Config) : (s.afterReset cfg).rxBuf = (State.resetWith cfg).rxBuf := rfl
@[simp] theorem State.afterReset_pending (s : State) (cfg : Config) : (s.afterReset cfg).pending = s.pending := rfl
@[simp] theorem State.afterReset_answers (s : State) (cfg : Config) : (s.afterReset cfg).answers = s.answers := rfl
@[simp] theorem State.afterReset_draws (s : State) (cfg : Config) : (s.afterReset cfg).draws = s.draws + 1 := rfl

/-! ### The buffers, the bytes and the ciphers through the updates -/

@[simp] theorem State.setBuf_tx_txBuf (s : State) (m : Memory) : (s.setBuf .tx m).txBuf = m := rfl
@[simp] theorem State.setBuf_tx_rxBuf (s : State) (m : Memory) : (s.setBuf .tx m).rxBuf = s.rxBuf := rfl
@[simp] theorem State.setBuf_rx_txBuf (s : State) (m : Memory) : (s.setBuf .rx m).txBuf = s.txBuf := rfl
@[simp] theorem State.setBuf_rx_rxBuf (s : State) (m : Memory) : (s.setBuf .rx m).rxBuf = m := rfl
@[simp] theorem State.setCipher_tx_txCipher (s : State) (c : Option Cipher) : (s.setCipher .tx c).txCipher = c := rfl
@[simp] theorem State.setCipher_tx_rxCipher (s : State) (c : Option Cipher) :
    (s.setCipher .tx c).rxCipher = s.rxCipher := rfl
@[simp] theorem State.setCipher_rx_txCipher (s : State) (c : Option Cipher) :
    (s.setCipher .rx c).txCipher = s.txCipher := rfl
@[simp] theorem State.setCipher_rx_rxCipher (s : State) (c : Option Cipher) : (s.setCipher .rx c).rxCipher = c := rfl
@[simp] theorem State.memWrite_tx_txBuf (s : State) (a : Nat) (bs : List Byte) :
    (s.memWrite .tx a bs).txBuf = Memory.write s.txBuf a bs := rfl
@[simp] theorem State.memWrite_tx_rxBuf (s : State) (a : Nat) (bs : List Byte) :
    (s.memWrite .tx a bs).rxBuf = s.rxBuf := rfl
@[simp] theorem State.memWrite_rx_txBuf (s : State) (a : Nat) (bs : List Byte) :
    (s.memWrite .rx a bs).txBuf = s.txBuf := rfl
@[simp] theorem State.memWrite_rx_rxBuf (s : State) (a : Nat) (bs : List Byte) :
    (s.memWrite .rx a bs).rxBuf = Memory.write s.rxBuf a bs := rfl
@[simp] theorem State.buf_tx (s : State) : s.buf .tx = s.txBuf := rfl
@[simp] theorem State.buf_rx (s : State) : s.buf .rx = s.rxBuf := rfl
@[simp] theorem State.cipher_tx (s : State) : s.cipher .tx = s.txCipher := rfl
@[simp] theorem State.cipher_rx (s : State) : s.cipher .rx = s.rxCipher := rfl
@[simp] theorem State.x_0 (s : State) : s.x 0 = s.arg0 := rfl
@[simp] theorem State.x_1 (s : State) : s.x 1 = s.arg1 := rfl
@[simp] theorem State.x_2 (s : State) : s.x 2 = s.arg2 := rfl

/-- What a byte reads as depends on the buffer and the draw alone. -/
theorem State.byteAt_congr {s t : State} {d : Dir} (hb : t.buf d = s.buf d) (hd : t.draws = s.draws) (a : Nat) :
    t.byteAt d a = s.byteAt d a := by
  simp [State.byteAt, hb, hd]

@[simp] theorem State.raise_byteAt (s : State) (e : CmdError) (d : Dir) (a : Nat) :
    (s.raise e).byteAt d a = s.byteAt d a := by cases d <;> rfl

@[simp] theorem State.succeed_byteAt (s : State) (d : Dir) (a : Nat) :
    s.succeed.byteAt d a = s.byteAt d a := by cases d <;> rfl

@[simp] theorem State.setRes_byteAt (s : State) (w : Word) (d : Dir) (a : Nat) :
    (s.setRes w).byteAt d a = s.byteAt d a := by cases d <;> rfl

@[simp] theorem State.setHdr_byteAt (s : State) (h : HeaderRegs) (d : Dir) (a : Nat) :
    (s.setHdr h).byteAt d a = s.byteAt d a := by cases d <;> rfl

@[simp] theorem State.setFrg_byteAt (s : State) (g : FragmentRegs) (d : Dir) (a : Nat) :
    (s.setFrg g).byteAt d a = s.byteAt d a := by cases d <;> rfl

@[simp] theorem State.setCipher_byteAt (s : State) (e : Dir) (c : Option Cipher) (d : Dir) (a : Nat) :
    (s.setCipher e c).byteAt d a = s.byteAt d a := by cases e <;> cases d <;> rfl

@[simp] theorem State.cleared_byteAt (cfg : Config) (s : State) (d : Dir) (a : Nat) :
    (s.cleared cfg).byteAt d a = s.byteAt d a := by cases d <;> rfl

/-- The modelled configuration meets the constraints of R8. -/
@[simp] theorem chip_wf : Config.chip.wf = true := rfl

@[simp] theorem chip_bufSize : Config.chip.bufSize = 65555 := rfl

end Sys2Proof.Machine
end

