-- ==== Sys2Proof/Laws/Memory.lean ====
section
/-! SUPPORT. Laws of the frame buffers: a read after a write, the canonical form, the buffer's limit, and that equal
contents are equal data. -/
namespace Sys2Proof.Machine

@[simp] theorem Memory.get_nil (a : Nat) : Memory.get [] a = none := rfl

theorem Memory.get_cons (k : Nat) (b : Byte) (m : Memory) (a : Nat) :
    Memory.get ((k, b) :: m) a = if k = a then some b else Memory.get m a := rfl

/-- A read after a write: the written address gives the written byte, every other address is left alone. -/
theorem Memory.get_set (m : Memory) (a : Nat) (v : Byte) (x : Nat) :
    (Memory.set m a v).get x = if x = a then some v else Memory.get m x := by
  induction m with
  | nil => simp only [Memory.set, Memory.get_cons, Memory.get_nil, eq_comm]
  | cons c m ih =>
    obtain ⟨k, b⟩ := c
    simp only [Memory.set]
    by_cases h1 : a < k
    · simp only [if_pos h1, Memory.get_cons]
      by_cases h : x = a
      · simp [h]
      · rw [if_neg (Ne.symm h), if_neg h]
    · by_cases h2 : a = k
      · subst h2
        simp only [if_neg h1, if_pos, Memory.get_cons]
        by_cases h : x = a
        · simp [h]
        · rw [if_neg (Ne.symm h), if_neg h, if_neg (Ne.symm h)]
      · simp only [if_neg h1, if_neg h2, Memory.get_cons, ih]
        by_cases h : x = a
        · rw [if_pos h, if_neg (by omega), if_pos h]
        · rw [if_neg h, if_neg h]

/-- A read after a string is written at `a`: the string's bytes inside it, every other address as before. -/
theorem Memory.get_write (bs : List Byte) (m : Memory) (a x : Nat) :
    (Memory.write m a bs).get x = if a ≤ x ∧ x < a + bs.length then bs[x - a]? else Memory.get m x := by
  induction bs generalizing m a with
  | nil => rw [if_neg (by simp only [List.length_nil]; omega)]; rfl
  | cons b bs ih =>
    simp only [Memory.write, ih, Memory.get_set, List.length_cons]
    by_cases h : x = a
    · subst h; simp
    · by_cases h2 : a + 1 ≤ x ∧ x < a + 1 + bs.length
      · have h3 : a ≤ x ∧ x < a + (bs.length + 1) := by omega
        have h4 : x - a = (x - (a + 1)) + 1 := by omega
        rw [if_pos h2, if_pos h3, h4, List.getElem?_cons_succ]
      · rw [if_neg h2, if_neg h, if_neg (by omega)]

/-- Outside the written string every address reads as before. -/
theorem Memory.get_write_outside {bs : List Byte} {m : Memory} {a x : Nat} (h : x < a ∨ a + bs.length ≤ x) :
    (Memory.write m a bs).get x = Memory.get m x := by
  rw [Memory.get_write, if_neg (by omega)]

theorem Memory.wf_cons_cons (a k : Nat) (v b : Byte) (m : Memory) :
    Memory.wf ((a, v) :: (k, b) :: m) = (decide (a < k) && Memory.wf ((k, b) :: m)) := rfl

theorem Memory.wf_tail {c : Host.Cell} {m : Memory} (h : Memory.wf (c :: m) = true) : Memory.wf m = true := by
  cases m with
  | nil => rfl
  | cons d m => rw [Memory.wf_cons_cons] at h; simp_all

/-- The canonical form as a fact about the addresses: strictly rising. -/
theorem Memory.wf_iff_pairwise (m : Memory) : Memory.wf m = true ↔ m.Pairwise fun c d => c.1 < d.1 := by
  induction m with
  | nil => simp [Memory.wf]
  | cons c m ih =>
    cases m with
    | nil => simp [Memory.wf]
    | cons d m =>
      rw [Memory.wf_cons_cons, Bool.and_eq_true, decide_eq_true_eq, ih, List.pairwise_cons (l := d :: m)]
      constructor
      · rintro ⟨h, hp⟩
        refine ⟨fun e he => ?_, hp⟩
        rcases List.mem_cons.1 he with rfl | he
        · exact h
        · exact Nat.lt_trans h ((List.pairwise_cons.1 hp).1 e he)
      · rintro ⟨h, hp⟩
        exact ⟨h d (by simp), hp⟩

/-- The addresses after a write are the old ones and the written one. -/
theorem Memory.mem_set {m : Memory} {a : Nat} {v : Byte} {c : Host.Cell} (h : c ∈ Memory.set m a v) :
    c = (a, v) ∨ c ∈ m := by
  induction m with
  | nil => simpa [Memory.set] using h
  | cons d m ih =>
    obtain ⟨k, b⟩ := d
    simp only [Memory.set] at h
    split at h
    · simpa using h
    · split at h
      · rcases List.mem_cons.1 h with h | h
        · exact .inl h
        · exact .inr (List.mem_cons_of_mem _ h)
      · rcases List.mem_cons.1 h with h | h
        · exact .inr (by simp [h])
        · rcases ih h with h | h
          · exact .inl h
          · exact .inr (List.mem_cons_of_mem _ h)

/-- A write keeps the canonical form. -/
theorem Memory.wf_set {m : Memory} (a : Nat) (v : Byte) (h : Memory.wf m = true) :
    Memory.wf (Memory.set m a v) = true := by
  rw [Memory.wf_iff_pairwise] at h ⊢
  induction m with
  | nil => simp [Memory.set]
  | cons d m ih =>
    obtain ⟨k, b⟩ := d
    have hk := (List.pairwise_cons.1 h).1
    have hm := (List.pairwise_cons.1 h).2
    simp only [Memory.set]
    split
    · rename_i hlt
      refine List.pairwise_cons.2 ⟨fun c hc => ?_, h⟩
      rcases List.mem_cons.1 hc with rfl | hc
      · exact hlt
      · exact Nat.lt_trans hlt (hk c hc)
    · split
      · rename_i heq
        subst heq
        exact List.pairwise_cons.2 ⟨hk, hm⟩
      · refine List.pairwise_cons.2 ⟨fun c hc => ?_, ih hm⟩
        rcases Memory.mem_set hc with rfl | hc
        · show k < a; omega
        · exact hk c hc

/-- Writing a string keeps the canonical form. -/
theorem Memory.wf_write (bs : List Byte) {m : Memory} (a : Nat) (h : Memory.wf m = true) :
    Memory.wf (Memory.write m a bs) = true := by
  induction bs generalizing m a with
  | nil => exact h
  | cons b bs ih => exact ih (a + 1) (Memory.wf_set a b h)

/-- A write below the limit keeps every address below the limit. -/
theorem Memory.below_set {limit : Nat} {m : Memory} {a : Nat} (v : Byte) (ha : a < limit)
    (h : Memory.below limit m = true) : Memory.below limit (Memory.set m a v) = true := by
  simp only [Memory.below, List.all_eq_true, decide_eq_true_eq] at h ⊢
  intro c hc
  rcases Memory.mem_set hc with rfl | hc
  · exact ha
  · exact h c hc

/-- Writing a string below the limit keeps every address below the limit. -/
theorem Memory.below_write {limit : Nat} (bs : List Byte) {m : Memory} {a : Nat} (ha : a + bs.length ≤ limit)
    (h : Memory.below limit m = true) : Memory.below limit (Memory.write m a bs) = true := by
  induction bs generalizing m a with
  | nil => exact h
  | cons b bs ih =>
    simp only [List.length_cons] at ha
    exact ih (by omega) (Memory.below_set b (by omega) h)

theorem Memory.get_eq_none_of_lt {m : Memory} {a : Nat} (h : ∀ c ∈ m, a < c.1) : Memory.get m a = none := by
  induction m with
  | nil => rfl
  | cons c m ih =>
    obtain ⟨k, b⟩ := c
    have hk : a < k := h (k, b) (by simp)
    rw [Memory.get_cons, if_neg (by omega)]
    exact ih fun c hc => h c (List.mem_cons_of_mem _ hc)

/-- Canonical buffers with equal contents are equal data. -/
theorem Memory.ext_of_wf {m n : Memory} (hm : Memory.wf m = true) (hn : Memory.wf n = true)
    (h : ∀ a, Memory.get m a = Memory.get n a) : m = n := by
  rw [Memory.wf_iff_pairwise] at hm hn
  induction m generalizing n with
  | nil =>
    cases n with
    | nil => rfl
    | cons d n => obtain ⟨k, b⟩ := d; simpa [Memory.get_cons] using h k
  | cons c m ih =>
    obtain ⟨j, v⟩ := c
    cases n with
    | nil => simpa [Memory.get_cons] using h j
    | cons d n =>
      obtain ⟨k, b⟩ := d
      have hj := (List.pairwise_cons.1 hm).1
      have hk := (List.pairwise_cons.1 hn).1
      have hjk : j = k := by
        rcases Nat.lt_trichotomy j k with hlt | heq | hlt
        · have := h j
          rw [Memory.get_eq_none_of_lt (m := (k, b) :: n) (fun c hc => ?_)] at this
          · simp [Memory.get_cons] at this
          · rcases List.mem_cons.1 hc with rfl | hc
            · exact hlt
            · exact Nat.lt_trans hlt (hk c hc)
        · exact heq
        · have := h k
          rw [Memory.get_eq_none_of_lt (m := (j, v) :: m) (fun c hc => ?_)] at this
          · simp [Memory.get_cons] at this
          · rcases List.mem_cons.1 hc with rfl | hc
            · exact hlt
            · exact Nat.lt_trans hlt (hj c hc)
      subst hjk
      have hvb : v = b := by simpa [Memory.get_cons] using h j
      subst hvb
      congr 1
      refine ih (List.pairwise_cons.1 hm).2 (List.pairwise_cons.1 hn).2 fun a => ?_
      by_cases ha : j = a
      · subst ha
        rw [Memory.get_eq_none_of_lt hj, Memory.get_eq_none_of_lt hk]
      · simpa [Memory.get_cons, ha] using h a

/-! ### Bytes of the state through a write -/

/-- A byte after `MemWrite`: the written string's byte in its range, every other byte of that buffer as before. -/
theorem State.byteAt_memWrite_same (s : State) (d : Dir) (a : Nat) (bs : List Byte) (x : Nat) :
    (s.memWrite d a bs).byteAt d x =
      if h : a ≤ x ∧ x < a + bs.length then bs[x - a]'(by omega) else s.byteAt d x := by
  have hb : (s.memWrite d a bs).buf d = Memory.write (s.buf d) a bs := by cases d <;> rfl
  rw [State.byteAt, hb, State.memWrite_draws, Memory.get_write]
  by_cases h : a ≤ x ∧ x < a + bs.length
  · have hx : x - a < bs.length := by omega
    rw [if_pos h, dif_pos h, List.getElem?_eq_getElem hx]
  · rw [if_neg h, dif_neg h, State.byteAt]

/-- The bytes outside a written string are as before, in both buffers. -/
theorem State.byteAt_memWrite_outside {s : State} {d e : Dir} {a : Nat} {bs : List Byte} {x : Nat}
    (h : e ≠ d ∨ x < a ∨ a + bs.length ≤ x) : (s.memWrite d a bs).byteAt e x = s.byteAt e x := by
  by_cases hed : e = d
  · subst hed
    rw [State.byteAt_memWrite_same, dif_neg]
    simp only [ne_eq, not_true_eq_false, false_or] at h
    omega
  · cases d <;> cases e <;> first | exact absurd rfl hed | rfl

end Sys2Proof.Machine
end

