-- ==== Sys2Proof/Laws/Commit.lean ====
section
/-! SUPPORT. One lemma per field for the end states of TXFRAME, RXFRAME and CRACCEPT, and the bytes of the states that
commands leave, so that no later proof unfolds them. -/
namespace Sys2Proof.Machine

/-! ### txCommit -/

@[simp] theorem txCommit_err (cfg : Config) (s : State) (ck : Word) :
    (txCommit cfg s ck).err = s.err := by simp only [txCommit, State.memWrite_err]
@[simp] theorem txCommit_rxSeen (cfg : Config) (s : State) (ck : Word) :
    (txCommit cfg s ck).rxSeen = s.rxSeen := by simp only [txCommit, State.memWrite_rxSeen]
@[simp] theorem txCommit_lastTxEnc (cfg : Config) (s : State) (ck : Word) :
    (txCommit cfg s ck).lastTxEnc = encTx cfg s s.hdr.flags := by simp only [txCommit]
@[simp] theorem txCommit_lastRxEnc (cfg : Config) (s : State) (ck : Word) :
    (txCommit cfg s ck).lastRxEnc = s.lastRxEnc := by simp only [txCommit, State.memWrite_lastRxEnc]
@[simp] theorem txCommit_arg0 (cfg : Config) (s : State) (ck : Word) :
    (txCommit cfg s ck).arg0 = s.arg0 := by simp only [txCommit, State.memWrite_arg0]
@[simp] theorem txCommit_arg1 (cfg : Config) (s : State) (ck : Word) :
    (txCommit cfg s ck).arg1 = s.arg1 := by simp only [txCommit, State.memWrite_arg1]
@[simp] theorem txCommit_arg2 (cfg : Config) (s : State) (ck : Word) :
    (txCommit cfg s ck).arg2 = s.arg2 := by simp only [txCommit, State.memWrite_arg2]
@[simp] theorem txCommit_res (cfg : Config) (s : State) (ck : Word) :
    (txCommit cfg s ck).res = ck := by simp only [txCommit]
@[simp] theorem txCommit_errInfo (cfg : Config) (s : State) (ck : Word) :
    (txCommit cfg s ck).errInfo = s.errInfo := by simp only [txCommit, State.memWrite_errInfo]
@[simp] theorem txCommit_errSticky (cfg : Config) (s : State) (ck : Word) :
    (txCommit cfg s ck).errSticky = s.errSticky := by simp only [txCommit, State.memWrite_errSticky]
@[simp] theorem txCommit_txSeq (cfg : Config) (s : State) (ck : Word) :
    (txCommit cfg s ck).txSeq = s.txSeq + 1 := by simp only [txCommit]
@[simp] theorem txCommit_lastRxSeq (cfg : Config) (s : State) (ck : Word) :
    (txCommit cfg s ck).lastRxSeq = s.lastRxSeq := by simp only [txCommit, State.memWrite_lastRxSeq]
@[simp] theorem txCommit_clientId (cfg : Config) (s : State) (ck : Word) :
    (txCommit cfg s ck).clientId = s.clientId := by simp only [txCommit, State.memWrite_clientId]
@[simp] theorem txCommit_txPlen (cfg : Config) (s : State) (ck : Word) :
    (txCommit cfg s ck).txPlen = s.txPlen := by simp only [txCommit, State.memWrite_txPlen]
@[simp] theorem txCommit_txLen (cfg : Config) (s : State) (ck : Word) :
    (txCommit cfg s ck).txLen = 20 + s.txPlen.zeroExtend 32 := by simp only [txCommit]
@[simp] theorem txCommit_rxLen (cfg : Config) (s : State) (ck : Word) :
    (txCommit cfg s ck).rxLen = s.rxLen := by simp only [txCommit, State.memWrite_rxLen]
@[simp] theorem txCommit_hdr (cfg : Config) (s : State) (ck : Word) :
    (txCommit cfg s ck).hdr = txHeader s (txFlags cfg s) ck := by simp only [txCommit]
@[simp] theorem txCommit_frg (cfg : Config) (s : State) (ck : Word) :
    (txCommit cfg s ck).frg = s.frg := by simp only [txCommit, State.memWrite_frg]
@[simp] theorem txCommit_cr (cfg : Config) (s : State) (ck : Word) :
    (txCommit cfg s ck).cr = s.cr := by simp only [txCommit, State.memWrite_cr]
@[simp] theorem txCommit_txCipher (cfg : Config) (s : State) (ck : Word) :
    (txCommit cfg s ck).txCipher = advanceFor cfg (encTx cfg s s.hdr.flags) s.txCipher := by simp only [txCommit]
@[simp] theorem txCommit_rxCipher (cfg : Config) (s : State) (ck : Word) :
    (txCommit cfg s ck).rxCipher = s.rxCipher := by simp only [txCommit, State.memWrite_rxCipher]
@[simp] theorem txCommit_txBuf (cfg : Config) (s : State) (ck : Word) :
    (txCommit cfg s ck).txBuf = Memory.write s.txBuf 0 (headerBytes (txHeader s (txFlags cfg s) ck)) := by simp only [txCommit, State.memWrite_tx_txBuf]
@[simp] theorem txCommit_rxBuf (cfg : Config) (s : State) (ck : Word) :
    (txCommit cfg s ck).rxBuf = s.rxBuf := by simp only [txCommit, State.memWrite_tx_rxBuf]
@[simp] theorem txCommit_pending (cfg : Config) (s : State) (ck : Word) :
    (txCommit cfg s ck).pending = s.pending := by simp only [txCommit, State.memWrite_pending]
@[simp] theorem txCommit_answers (cfg : Config) (s : State) (ck : Word) :
    (txCommit cfg s ck).answers = s.answers := by simp only [txCommit, State.memWrite_answers]
@[simp] theorem txCommit_draws (cfg : Config) (s : State) (ck : Word) :
    (txCommit cfg s ck).draws = s.draws := by simp only [txCommit, State.memWrite_draws]

/-! ### rxCommit -/

@[simp] theorem rxCommit_err (cfg : Config) (s : State) (h : HeaderRegs) :
    (rxCommit cfg s h).err = s.err := by cases s; rfl
@[simp] theorem rxCommit_rxSeen (cfg : Config) (s : State) (h : HeaderRegs) :
    (rxCommit cfg s h).rxSeen = true := by cases s; rfl
@[simp] theorem rxCommit_lastTxEnc (cfg : Config) (s : State) (h : HeaderRegs) :
    (rxCommit cfg s h).lastTxEnc = s.lastTxEnc := by cases s; rfl
@[simp] theorem rxCommit_lastRxEnc (cfg : Config) (s : State) (h : HeaderRegs) :
    (rxCommit cfg s h).lastRxEnc = encRx cfg h.flags := by cases s; rfl
@[simp] theorem rxCommit_arg0 (cfg : Config) (s : State) (h : HeaderRegs) :
    (rxCommit cfg s h).arg0 = s.arg0 := by cases s; rfl
@[simp] theorem rxCommit_arg1 (cfg : Config) (s : State) (h : HeaderRegs) :
    (rxCommit cfg s h).arg1 = s.arg1 := by cases s; rfl
@[simp] theorem rxCommit_arg2 (cfg : Config) (s : State) (h : HeaderRegs) :
    (rxCommit cfg s h).arg2 = s.arg2 := by cases s; rfl
@[simp] theorem rxCommit_res (cfg : Config) (s : State) (h : HeaderRegs) :
    (rxCommit cfg s h).res = h.cksum := by cases s; rfl
@[simp] theorem rxCommit_errInfo (cfg : Config) (s : State) (h : HeaderRegs) :
    (rxCommit cfg s h).errInfo = s.errInfo := by cases s; rfl
@[simp] theorem rxCommit_errSticky (cfg : Config) (s : State) (h : HeaderRegs) :
    (rxCommit cfg s h).errSticky = s.errSticky := by cases s; rfl
@[simp] theorem rxCommit_txSeq (cfg : Config) (s : State) (h : HeaderRegs) :
    (rxCommit cfg s h).txSeq = s.txSeq := by cases s; rfl
@[simp] theorem rxCommit_lastRxSeq (cfg : Config) (s : State) (h : HeaderRegs) :
    (rxCommit cfg s h).lastRxSeq = h.seq := by cases s; rfl
@[simp] theorem rxCommit_clientId (cfg : Config) (s : State) (h : HeaderRegs) :
    (rxCommit cfg s h).clientId = s.clientId := by cases s; rfl
@[simp] theorem rxCommit_txPlen (cfg : Config) (s : State) (h : HeaderRegs) :
    (rxCommit cfg s h).txPlen = s.txPlen := by cases s; rfl
@[simp] theorem rxCommit_txLen (cfg : Config) (s : State) (h : HeaderRegs) :
    (rxCommit cfg s h).txLen = s.txLen := by cases s; rfl
@[simp] theorem rxCommit_rxLen (cfg : Config) (s : State) (h : HeaderRegs) :
    (rxCommit cfg s h).rxLen = s.rxLen := by cases s; rfl
@[simp] theorem rxCommit_hdr (cfg : Config) (s : State) (h : HeaderRegs) :
    (rxCommit cfg s h).hdr = h := by cases s; rfl
@[simp] theorem rxCommit_frg (cfg : Config) (s : State) (h : HeaderRegs) :
    (rxCommit cfg s h).frg = s.frg := by cases s; rfl
@[simp] theorem rxCommit_cr (cfg : Config) (s : State) (h : HeaderRegs) :
    (rxCommit cfg s h).cr = s.cr := by cases s; rfl
@[simp] theorem rxCommit_txCipher (cfg : Config) (s : State) (h : HeaderRegs) :
    (rxCommit cfg s h).txCipher = s.txCipher := by cases s; rfl
@[simp] theorem rxCommit_rxCipher (cfg : Config) (s : State) (h : HeaderRegs) :
    (rxCommit cfg s h).rxCipher = advanceFor cfg (encRx cfg h.flags) s.rxCipher := by cases s; rfl
@[simp] theorem rxCommit_txBuf (cfg : Config) (s : State) (h : HeaderRegs) :
    (rxCommit cfg s h).txBuf = s.txBuf := by cases s; rfl
@[simp] theorem rxCommit_rxBuf (cfg : Config) (s : State) (h : HeaderRegs) :
    (rxCommit cfg s h).rxBuf = s.rxBuf := by cases s; rfl
@[simp] theorem rxCommit_pending (cfg : Config) (s : State) (h : HeaderRegs) :
    (rxCommit cfg s h).pending = s.pending := by cases s; rfl
@[simp] theorem rxCommit_answers (cfg : Config) (s : State) (h : HeaderRegs) :
    (rxCommit cfg s h).answers = s.answers := by cases s; rfl
@[simp] theorem rxCommit_draws (cfg : Config) (s : State) (h : HeaderRegs) :
    (rxCommit cfg s h).draws = s.draws := by cases s; rfl

/-! ### crCommit -/

@[simp] theorem crCommit_err (cfg : Config) (s : State) (cr : ConnectRegs) :
    (crCommit cfg s cr).err = s.err := by cases s; rfl
@[simp] theorem crCommit_rxSeen (cfg : Config) (s : State) (cr : ConnectRegs) :
    (crCommit cfg s cr).rxSeen = s.rxSeen := by cases s; rfl
@[simp] theorem crCommit_lastTxEnc (cfg : Config) (s : State) (cr : ConnectRegs) :
    (crCommit cfg s cr).lastTxEnc = s.lastTxEnc := by cases s; rfl
@[simp] theorem crCommit_lastRxEnc (cfg : Config) (s : State) (cr : ConnectRegs) :
    (crCommit cfg s cr).lastRxEnc = s.lastRxEnc := by cases s; rfl
@[simp] theorem crCommit_arg0 (cfg : Config) (s : State) (cr : ConnectRegs) :
    (crCommit cfg s cr).arg0 = s.arg0 := by cases s; rfl
@[simp] theorem crCommit_arg1 (cfg : Config) (s : State) (cr : ConnectRegs) :
    (crCommit cfg s cr).arg1 = s.arg1 := by cases s; rfl
@[simp] theorem crCommit_arg2 (cfg : Config) (s : State) (cr : ConnectRegs) :
    (crCommit cfg s cr).arg2 = s.arg2 := by cases s; rfl
@[simp] theorem crCommit_res (cfg : Config) (s : State) (cr : ConnectRegs) :
    (crCommit cfg s cr).res = s.res := by cases s; rfl
@[simp] theorem crCommit_errInfo (cfg : Config) (s : State) (cr : ConnectRegs) :
    (crCommit cfg s cr).errInfo = s.errInfo := by cases s; rfl
@[simp] theorem crCommit_errSticky (cfg : Config) (s : State) (cr : ConnectRegs) :
    (crCommit cfg s cr).errSticky = s.errSticky := by cases s; rfl
@[simp] theorem crCommit_txSeq (cfg : Config) (s : State) (cr : ConnectRegs) :
    (crCommit cfg s cr).txSeq = s.txSeq := by cases s; rfl
@[simp] theorem crCommit_lastRxSeq (cfg : Config) (s : State) (cr : ConnectRegs) :
    (crCommit cfg s cr).lastRxSeq = s.lastRxSeq := by cases s; rfl
@[simp] theorem crCommit_clientId (cfg : Config) (s : State) (cr : ConnectRegs) :
    (crCommit cfg s cr).clientId = lowHalf cr.cid := by cases s; rfl
@[simp] theorem crCommit_txPlen (cfg : Config) (s : State) (cr : ConnectRegs) :
    (crCommit cfg s cr).txPlen = s.txPlen := by cases s; rfl
@[simp] theorem crCommit_txLen (cfg : Config) (s : State) (cr : ConnectRegs) :
    (crCommit cfg s cr).txLen = s.txLen := by cases s; rfl
@[simp] theorem crCommit_rxLen (cfg : Config) (s : State) (cr : ConnectRegs) :
    (crCommit cfg s cr).rxLen = s.rxLen := by cases s; rfl
@[simp] theorem crCommit_hdr (cfg : Config) (s : State) (cr : ConnectRegs) :
    (crCommit cfg s cr).hdr = s.hdr := by cases s; rfl
@[simp] theorem crCommit_frg (cfg : Config) (s : State) (cr : ConnectRegs) :
    (crCommit cfg s cr).frg = s.frg := by cases s; rfl
@[simp] theorem crCommit_cr (cfg : Config) (s : State) (cr : ConnectRegs) :
    (crCommit cfg s cr).cr = cr := by cases s; rfl
@[simp] theorem crCommit_txCipher (cfg : Config) (s : State) (cr : ConnectRegs) :
    (crCommit cfg s cr).txCipher = some (cfg.isaac.init cr.clientSeed) := by cases s; rfl
@[simp] theorem crCommit_rxCipher (cfg : Config) (s : State) (cr : ConnectRegs) :
    (crCommit cfg s cr).rxCipher = some (cfg.isaac.init cr.serverSeed) := by cases s; rfl
@[simp] theorem crCommit_txBuf (cfg : Config) (s : State) (cr : ConnectRegs) :
    (crCommit cfg s cr).txBuf = s.txBuf := by cases s; rfl
@[simp] theorem crCommit_rxBuf (cfg : Config) (s : State) (cr : ConnectRegs) :
    (crCommit cfg s cr).rxBuf = s.rxBuf := by cases s; rfl
@[simp] theorem crCommit_pending (cfg : Config) (s : State) (cr : ConnectRegs) :
    (crCommit cfg s cr).pending = s.pending := by cases s; rfl
@[simp] theorem crCommit_answers (cfg : Config) (s : State) (cr : ConnectRegs) :
    (crCommit cfg s cr).answers = s.answers := by cases s; rfl
@[simp] theorem crCommit_draws (cfg : Config) (s : State) (cr : ConnectRegs) :
    (crCommit cfg s cr).draws = s.draws := by cases s; rfl

/-! ### Bytes -/

/-- TXFRAME writes the twenty header bytes at 0 and no other byte (R39, R92). -/
theorem byteAt_txCommit (cfg : Config) (s : State) (ck : Word) (d : Dir) (a : Nat) :
    (txCommit cfg s ck).byteAt d a =
      (s.memWrite .tx 0 (headerBytes (txHeader s (txFlags cfg s) ck))).byteAt d a := by
  cases d
  · simp only [State.byteAt, State.buf, txCommit_txBuf, txCommit_draws, State.memWrite_tx_txBuf, State.memWrite_draws]
  · simp only [State.byteAt, State.buf, txCommit_rxBuf, txCommit_draws, State.memWrite_tx_rxBuf, State.memWrite_draws]

@[simp] theorem byteAt_rxCommit (cfg : Config) (s : State) (h : HeaderRegs) (d : Dir) (a : Nat) :
    (rxCommit cfg s h).byteAt d a = s.byteAt d a := by cases d <;> rfl

@[simp] theorem byteAt_crCommit (cfg : Config) (s : State) (cr : ConnectRegs) (d : Dir) (a : Nat) :
    (crCommit cfg s cr).byteAt d a = s.byteAt d a := by cases d <;> rfl

/-- The bytes of the buffer that a string is not written to. -/
@[simp] theorem byteAt_memWrite_tx_rx (s : State) (a : Nat) (bs : List Byte) (x : Nat) :
    (s.memWrite .tx a bs).byteAt .rx x = s.byteAt .rx x := State.byteAt_memWrite_outside (.inl (by decide))

@[simp] theorem byteAt_memWrite_rx_tx (s : State) (a : Nat) (bs : List Byte) (x : Nat) :
    (s.memWrite .rx a bs).byteAt .tx x = s.byteAt .tx x := State.byteAt_memWrite_outside (.inl (by decide))

end Sys2Proof.Machine
end

