-- ==== Sys2Proof/Laws/Bytes.lean ====
section
/-! SUPPORT. Laws of the byte order (R41, R42): packing and unpacking words, reading strings, header and fragment-header
bytes. -/
namespace Sys2Proof.Machine

@[simp] theorem leBytes16_length (v : Half) : (leBytes16 v).length = 2 := rfl
@[simp] theorem leBytes32_length (v : Word) : (leBytes32 v).length = 4 := rfl
@[simp] theorem headerBytes_length (h : HeaderRegs) : (headerBytes h).length = 20 := rfl
@[simp] theorem fragmentBytes_length (g : FragmentRegs) : (fragmentBytes g).length = 16 := rfl

@[simp] theorem memRead_length (rd : Nat → Byte) (a n : Nat) : (memRead rd a n).length = n := by simp [memRead]

theorem memRead_getElem (rd : Nat → Byte) (a n k : Nat) (h : k < (memRead rd a n).length) :
    (memRead rd a n)[k] = rd (a + k) := by simp [memRead]

/-- Two readers that agree on the range read the same string. -/
theorem memRead_congr {rd rd' : Nat → Byte} {a n : Nat} (h : ∀ x, a ≤ x → x < a + n → rd x = rd' x) :
    memRead rd a n = memRead rd' a n := by
  apply List.ext_getElem (by simp)
  intro k hk hk'
  simp only [memRead_length] at hk
  rw [memRead_getElem, memRead_getElem]
  exact h _ (by omega) (by omega)

/-- A string read is the string of its first part and the string of the rest. -/
theorem memRead_append (rd : Nat → Byte) (a m n : Nat) :
    memRead rd a (m + n) = memRead rd a m ++ memRead rd (a + m) n := by
  simp [memRead, List.range_add, Nat.add_assoc]

/-- `LE_32` of `LEBYTES_32(v)` is `v` (R41). -/
theorem le32_leBytes32 (v : Word) :
    le32 (v.extractLsb' 0 8) (v.extractLsb' 8 8) (v.extractLsb' 16 8) (v.extractLsb' 24 8) = v := by
  apply BitVec.eq_of_getLsbD_eq
  intro i hi
  simp only [le32, le16, BitVec.getLsbD_append, BitVec.getLsbD_extractLsb']
  split
  · split
    · simp_all
    · have : i - 8 < 8 := by omega
      have h2 : 8 + (i - 8) = i := by omega
      simp [this, h2]
  · split
    · have h2 : 16 + (i - 16) = i := by omega
      rename_i h; simp [h, h2]
    · have : i - 16 - 8 < 8 := by omega
      have h2 : 24 + (i - 16 - 8) = i := by omega
      simp [this, h2]

/-- `LEBYTES_32` of `LE_32` of four bytes is the four bytes (R41). -/
theorem leBytes32_le32 (b0 b1 b2 b3 : Byte) : leBytes32 (le32 b0 b1 b2 b3) = [b0, b1, b2, b3] := by
  simp only [leBytes32, List.cons.injEq, and_true]
  refine ⟨?_, ?_, ?_, ?_⟩ <;> apply BitVec.eq_of_getLsbD_eq <;> intro i hi <;>
    simp only [le32, le16, BitVec.getLsbD_append, BitVec.getLsbD_extractLsb', hi, decide_true, Bool.true_and]
  · have h1 : 0 + i < 16 := by omega
    have h2 : 0 + i < 8 := by omega
    simp [hi, show i < 16 by omega]
  · simp [show 8 + i < 16 by omega]
  · simp [hi]
  · simp [show ¬ 24 + i < 16 by omega, show ¬ 24 + i - 16 < 8 by omega, show 24 + i - 16 - 8 = i by omega]

/-- The low and high halves of a packed register (R42). -/
@[simp] theorem lowHalf_packHalves (lo hi : Half) : lowHalf (packHalves lo hi) = lo := by
  apply BitVec.eq_of_getLsbD_eq
  intro i h
  simp only [lowHalf, packHalves, BitVec.getLsbD_extractLsb', BitVec.getLsbD_append]
  simp [h]

@[simp] theorem highHalf_packHalves (lo hi : Half) : highHalf (packHalves lo hi) = hi := by
  apply BitVec.eq_of_getLsbD_eq
  intro i h
  simp only [highHalf, packHalves, BitVec.getLsbD_extractLsb', BitVec.getLsbD_append]
  simp [h]

theorem packHalves_low_high (v : Word) : packHalves (lowHalf v) (highHalf v) = v := by
  apply BitVec.eq_of_getLsbD_eq
  intro i h
  simp only [lowHalf, highHalf, packHalves, BitVec.getLsbD_append, BitVec.getLsbD_extractLsb']
  split
  · rename_i h1; simp [h1]
  · have h2 : 16 + (i - 16) = i := by omega
    simp [h2, show i - 16 < 16 by omega]

/-- The register of four wire bytes packs the 16-bit field at the lower address in bits [15:0] (R42). -/
theorem readLe32_eq_pack (rd : Nat → Byte) (o : Nat) :
    readLe32 rd o = packHalves (readLe16 rd o) (readLe16 rd (o + 2)) := rfl

theorem lowHalf_readLe32 (rd : Nat → Byte) (o : Nat) : lowHalf (readLe32 rd o) = readLe16 rd o := by
  rw [readLe32_eq_pack, lowHalf_packHalves]

/-- HDR_SIZE of a header read at `a` is the 16-bit size field at `a + 16` (R58). -/
theorem hdrSize_readHeader (rd : Nat → Byte) (a : Nat) : hdrSize (readHeader rd a) = readLe16 rd (a + 16) :=
  lowHalf_readLe32 rd (a + 16)

/-- Reading a word where `LEBYTES_32(v)` stands gives `v`. -/
theorem readLe32_of_bytes {rd : Nat → Byte} {o : Nat} {v : Word}
    (h0 : rd o = v.extractLsb' 0 8) (h1 : rd (o + 1) = v.extractLsb' 8 8) (h2 : rd (o + 2) = v.extractLsb' 16 8)
    (h3 : rd (o + 3) = v.extractLsb' 24 8) : readLe32 rd o = v := by
  rw [readLe32, h0, h1, h2, h3, le32_leBytes32]

theorem readLe32_congr {rd rd' : Nat → Byte} {o : Nat} (h : ∀ k, k < 4 → rd (o + k) = rd' (o + k)) :
    readLe32 rd o = readLe32 rd' o := by
  simp only [readLe32, h 1 (by omega), h 2 (by omega), h 3 (by omega)]
  have h0 := h 0 (by omega)
  simp only [Nat.add_zero] at h0
  rw [h0]

theorem readLe16_congr {rd rd' : Nat → Byte} {o : Nat} (h : ∀ k, k < 2 → rd (o + k) = rd' (o + k)) :
    readLe16 rd o = readLe16 rd' o := by
  simp only [readLe16, h 1 (by omega)]
  have h0 := h 0 (by omega)
  simp only [Nat.add_zero] at h0
  rw [h0]

/-- The byte `k` of a word read at `o` is the buffer's byte at `o + k` (R41). -/
theorem readLe32_extract (rd : Nat → Byte) (o : Nat) {k : Nat} (hk : k < 4) :
    (readLe32 rd o).extractLsb' (8 * k) 8 = rd (o + k) := by
  have h := leBytes32_le32 (rd o) (rd (o + 1)) (rd (o + 2)) (rd (o + 3))
  simp only [leBytes32, List.cons.injEq, and_true] at h
  match k with
  | 0 => exact h.1
  | 1 => exact h.2.1
  | 2 => exact h.2.2.1
  | 3 => exact h.2.2.2
  | k + 4 => omega

/-- Parsing the bytes of a packed header gives the header back (R79). -/
theorem readHeader_of_bytes {rd : Nat → Byte} {a : Nat} {h : HeaderRegs}
    (hb : ∀ k (hk : k < 20), rd (a + k) = (headerBytes h)[k]'(by simpa using hk)) : readHeader rd a = h := by
  obtain ⟨seq, flags, cksum, w3, w4⟩ := h
  simp only [readHeader, HeaderRegs.mk.injEq]
  refine ⟨readLe32_of_bytes ?_ ?_ ?_ ?_, readLe32_of_bytes ?_ ?_ ?_ ?_, readLe32_of_bytes ?_ ?_ ?_ ?_,
    readLe32_of_bytes ?_ ?_ ?_ ?_, readLe32_of_bytes ?_ ?_ ?_ ?_⟩
  · exact hb 0 (by omega)
  · exact hb 1 (by omega)
  · exact hb 2 (by omega)
  · exact hb 3 (by omega)
  · exact hb 4 (by omega)
  · exact hb 5 (by omega)
  · exact hb 6 (by omega)
  · exact hb 7 (by omega)
  · exact hb 8 (by omega)
  · exact hb 9 (by omega)
  · exact hb 10 (by omega)
  · exact hb 11 (by omega)
  · exact hb 12 (by omega)
  · exact hb 13 (by omega)
  · exact hb 14 (by omega)
  · exact hb 15 (by omega)
  · exact hb 16 (by omega)
  · exact hb 17 (by omega)
  · exact hb 18 (by omega)
  · exact hb 19 (by omega)

/-- Parsing the bytes of a packed fragment header gives the fragment header back (R81). -/
theorem readFragment_of_bytes {rd : Nat → Byte} {a : Nat} {g : FragmentRegs}
    (hb : ∀ k (hk : k < 16), rd (a + k) = (fragmentBytes g)[k]'(by simpa using hk)) : readFragment rd a = g := by
  obtain ⟨seq, id, w2, w3⟩ := g
  simp only [readFragment, FragmentRegs.mk.injEq]
  refine ⟨readLe32_of_bytes ?_ ?_ ?_ ?_, readLe32_of_bytes ?_ ?_ ?_ ?_, readLe32_of_bytes ?_ ?_ ?_ ?_,
    readLe32_of_bytes ?_ ?_ ?_ ?_⟩
  · exact hb 0 (by omega)
  · exact hb 1 (by omega)
  · exact hb 2 (by omega)
  · exact hb 3 (by omega)
  · exact hb 4 (by omega)
  · exact hb 5 (by omega)
  · exact hb 6 (by omega)
  · exact hb 7 (by omega)
  · exact hb 8 (by omega)
  · exact hb 9 (by omega)
  · exact hb 10 (by omega)
  · exact hb 11 (by omega)
  · exact hb 12 (by omega)
  · exact hb 13 (by omega)
  · exact hb 14 (by omega)
  · exact hb 15 (by omega)

/-- The bytes of a header parsed at `a` are the 20 buffer bytes there (R79). -/
theorem headerBytes_readHeader (rd : Nat → Byte) (a : Nat) : headerBytes (readHeader rd a) = memRead rd a 20 := by
  simp only [headerBytes, readHeader, readLe32, leBytes32_le32]
  rfl

/-- The bytes of a fragment header parsed at `a` are the 16 buffer bytes there (R81). -/
theorem fragmentBytes_readFragment (rd : Nat → Byte) (a : Nat) :
    fragmentBytes (readFragment rd a) = memRead rd a 16 := by
  simp only [fragmentBytes, readFragment, readLe32, leBytes32_le32]
  rfl

end Sys2Proof.Machine
end

