-- ==== Sys2Proof/Laws/Walk.lean ====
section
/-! SUPPORT. Laws of the walk (R84, R85): it reads only the payload, and its equations one section at a time. -/
namespace Sys2Proof.Machine

theorem align4_ge (n : Nat) : n ≤ align4 n := by simp [align4]

/-- Two readers that agree below `stop` give the same fragment blocks. -/
theorem walkFragments_congr {rd rd' : Nat → Byte} {p stop : Nat} (h : ∀ x, p ≤ x → x < stop → rd x = rd' x)
    (fuel : Nat) {a : Nat} (ha : p ≤ a) : walkFragments rd stop fuel a = walkFragments rd' stop fuel a := by
  induction fuel generalizing a with
  | zero => rfl
  | succ fuel ih =>
    simp only [walkFragments]
    by_cases h1 : a < stop
    · by_cases h2 : stop - a < 16
      · simp only [if_pos h1, if_pos h2]
      · have hsz : readLe16 rd (a + 10) = readLe16 rd' (a + 10) :=
          readLe16_congr fun k hk => h _ (by omega) (by omega)
        simp only [if_pos h1, if_neg h2, hsz]
        by_cases h3 : (readLe16 rd' (a + 10)).toNat < 16 ∨ (readLe16 rd' (a + 10)).toNat > stop - a
        · simp only [if_pos h3]
        · simp only [if_neg h3]
          rw [ih (by have := align4_ge (readLe16 rd' (a + 10)).toNat; omega)]
    · simp only [if_neg h1]

/-- Two readers that agree on the payload give the same sections. -/
theorem walkTable_congr {rd rd' : Nat → Byte} {p stop : Nat} (h : ∀ x, p ≤ x → x < stop → rd x = rd' x) (f : Word)
    (table : List (Word × SectionKind)) {a : Nat} (ha : p ≤ a) :
    walkTable rd f stop table a = walkTable rd' f stop table a := by
  induction table generalizing a with
  | nil => rfl
  | cons row table ih =>
    obtain ⟨flag, kind⟩ := row
    simp only [walkTable]
    by_cases hf : flagSet f flag = true
    · simp only [if_pos hf]
      cases kind with
      | fixed n => simp only [ih (Nat.le_trans ha (Nat.le_add_right a n))]
      | counted =>
        by_cases h4 : a + 4 > stop
        · simp only [if_pos h4]
        · have hn : readLe32 rd a = readLe32 rd' a := readLe32_congr fun k hk => h _ (by omega) (by omega)
          simp only [if_neg h4, hn, ih (Nat.le_trans ha (Nat.le_add_right a _))]
      | rest => rfl
      | fragments => exact walkFragments_congr h _ ha
    · simp only [if_neg hf]
      exact ih ha

/-- The walk reads only the payload `[p, p + L)`. -/
theorem walk_congr {rd rd' : Nat → Byte} {p len : Nat} (h : ∀ x, p ≤ x → x < p + len → rd x = rd' x)
    (cfg : Config) (f : Word) : walk cfg f rd p len = walk cfg f rd' p len :=
  walkTable_congr h f _ (Nat.le_refl p)

/-- Sections one after another inside `[a, stop)`, with gaps allowed. -/
def InOrder (stop : Nat) : Nat → List Section → Prop
  | a, [] => a ≤ stop
  | a, x :: xs => a ≤ x.addr ∧ InOrder stop (x.addr + x.len) xs

theorem InOrder.le_stop {stop : Nat} {a : Nat} {secs : List Section} (h : InOrder stop a secs) : a ≤ stop := by
  induction secs generalizing a with
  | nil => exact h
  | cons x xs ih => exact Nat.le_trans h.1 (Nat.le_trans (Nat.le_add_right _ _) (ih h.2))

theorem InOrder.mono {stop a b : Nat} {secs : List Section} (hab : a ≤ b) (h : InOrder stop b secs) :
    InOrder stop a secs := by
  cases secs with
  | nil => exact Nat.le_trans hab h
  | cons x xs => exact ⟨Nat.le_trans hab h.1, h.2⟩

/-- Every section of a list in order lies inside its range. -/
theorem InOrder.mem {stop a : Nat} {secs : List Section} (h : InOrder stop a secs) {x : Section} (hx : x ∈ secs) :
    a ≤ x.addr ∧ x.addr + x.len ≤ stop := by
  induction secs generalizing a with
  | nil => simp at hx
  | cons y ys ih =>
    rcases List.mem_cons.1 hx with rfl | hx
    · exact ⟨h.1, h.2.le_stop⟩
    · have := ih h.2 hx
      exact ⟨Nat.le_trans h.1 (Nat.le_trans (Nat.le_add_right _ _) this.1), this.2⟩

/-- A mapped walk that succeeds comes from one that succeeds. -/
theorem Except.map_ok {ε α β : Type} {f : α → β} {e : Except ε α} {y : β} (h : e.map f = .ok y) :
    ∃ x, e = .ok x ∧ y = f x := by
  cases e with
  | error e => cases h
  | ok x => exact ⟨x, rfl, by cases h; rfl⟩

theorem walkFragments_inOrder {rd : Nat → Byte} {stop : Nat} (fuel : Nat) {a : Nat} (ha : a ≤ stop)
    {secs : List Section} (h : walkFragments rd stop fuel a = .ok secs) : InOrder stop a secs := by
  induction fuel generalizing a secs with
  | zero => cases h; exact ha
  | succ fuel ih =>
    simp only [walkFragments] at h
    split at h
    · split at h
      · cases h
      · split at h
        · cases h
        · obtain ⟨xs, hxs, rfl⟩ := Except.map_ok h
          refine ⟨Nat.le_refl _, ?_⟩
          have := align4_ge (readLe16 rd (a + 10)).toNat
          exact (ih (by omega) hxs).mono (show a + _ ≤ _ by simp only; omega)
    · cases h; exact ha

theorem walkTable_inOrder {rd : Nat → Byte} {f : Word} {stop : Nat} (table : List (Word × SectionKind)) {a : Nat}
    (ha : a ≤ stop) {secs : List Section} (h : walkTable rd f stop table a = .ok secs) : InOrder stop a secs := by
  induction table generalizing a secs with
  | nil => cases h; exact ha
  | cons row table ih =>
    obtain ⟨flag, kind⟩ := row
    simp only [walkTable] at h
    split at h
    · cases kind with
      | fixed n =>
        simp only at h
        split at h
        · cases h
        · obtain ⟨xs, hxs, rfl⟩ := Except.map_ok h
          exact ⟨Nat.le_refl _, ih (by simp only; omega) hxs⟩
      | counted =>
        simp only at h
        split at h
        · cases h
        · split at h
          · cases h
          · obtain ⟨xs, hxs, rfl⟩ := Except.map_ok h
            exact ⟨Nat.le_refl _, ih (by simp only; omega) hxs⟩
      | rest => cases h; exact ⟨Nat.le_refl _, show a + (stop - a) ≤ stop by omega⟩
      | fragments => exact walkFragments_inOrder _ ha h
    · exact ih ha h

/-- The payload hash is the sum of the sections' hashes (R87). -/
theorem sumHashes_chip (rd : Nat → Byte) (secs : List Section) :
    sumHashes Config.chip rd secs = sectionHashSum rd secs := by
  have key : ∀ h : Word, secs.foldl (fun h x => h + hash32 (memRead rd x.addr x.len)) h =
      h + sectionHashSum rd secs := by
    induction secs with
    | nil => intro h; simp [sectionHashSum, wordSum]
    | cons x xs ih =>
      intro h
      rw [List.foldl_cons, ih, sectionHashSum, sectionHashSum, List.map_cons, wordSum, add_assoc]
  exact (key 0).trans (zero_add _)

end Sys2Proof.Machine
end

