-- ==== Sys2Proof/Laws/Exec.lean ====
section
/-! SUPPORT. What a command can do, said once: `exec` is the command's body followed by `finish`, and each body's
outcomes. -/
namespace Sys2Proof.Machine

/-- With the modelled configuration a command always ends in a next state (R102). -/
@[simp] theorem runCommand_chip (body : Body) (s : State) :
    runCommand Config.chip body s = .next (finish s (body s)) := rfl

@[simp] theorem finish_ok (s t : State) : finish s (.ok t) = t.succeed := rfl
@[simp] theorem finish_error (s : State) (e : CmdError) : finish s (.error e) = s.raise e := rfl

/-- The body of each command with the modelled configuration. -/
def bodyOf (i : Instr) : Body :=
  match i with
  | .nop => nopBody
  | .cinitTx => cinitBody Config.chip .tx
  | .cinitRx => cinitBody Config.chip .rx
  | .cpeekTx => cpeekBody Config.chip .tx
  | .cpeekRx => cpeekBody Config.chip .rx
  | .cadvTx => cadvBody Config.chip .tx
  | .cadvRx => cadvBody Config.chip .rx
  | .hpackTx => hpackBody .tx
  | .hpackRx => hpackBody .rx
  | .hunpackTx => hunpackBody .tx
  | .hunpackRx => hunpackBody .rx
  | .fpackTx => fpackBody Config.chip .tx
  | .fpackRx => fpackBody Config.chip .rx
  | .funpackTx => funpackBody Config.chip .tx
  | .funpackRx => funpackBody Config.chip .rx
  | .hash32Tx => hash32Body Config.chip .tx
  | .hash32Rx => hash32Body Config.chip .rx
  | .hdrhashTx => hdrhashBody Config.chip .tx
  | .hdrhashRx => hdrhashBody Config.chip .rx
  | .payhashTx => payhashBody Config.chip .tx
  | .payhashRx => payhashBody Config.chip .rx
  | .craccept => cracceptBody Config.chip
  | .txframe => txframeBody Config.chip
  | .rxframe => rxframeBody Config.chip
  | .sreset => sresetBody Config.chip

/-- Every command is its body, all or nothing (R100, R101). -/
theorem exec_eq (i : Instr) (s : State) : exec i s = .next (finish s (bodyOf i s)) := by
  cases i <;> rfl

/-- If a command answers a next state, its body succeeded with that state or raised an error that the state reports. -/
theorem exec_next {i : Instr} {s t : State} (h : exec i s = .next t) :
    (∃ u, bodyOf i s = .ok u ∧ t = u.succeed) ∨ (∃ e, bodyOf i s = .error e ∧ t = s.raise e) := by
  rw [exec_eq] at h
  cases hb : bodyOf i s with
  | ok u => rw [hb, finish_ok] at h; cases h; exact .inl ⟨u, rfl, rfl⟩
  | error e => rw [hb, finish_error] at h; cases h; exact .inr ⟨e, rfl, rfl⟩

/-! ### The shared checks -/

theorem checkRange_ok {cfg : Config} {a n : Nat} {w : Word} (h : a + n ≤ cfg.bufSize) :
    checkRange cfg a n w = .ok () := if_neg (by omega)

theorem checkRange_error {cfg : Config} {a n : Nat} {w : Word} (h : cfg.bufSize < a + n) :
    checkRange cfg a n w = .error (.range w) := if_pos h

/-- A computation after a bounds check succeeds only inside the buffer, and fails with RANGE outside it. -/
theorem checkRange_bind {α : Type} (cfg : Config) (a n : Nat) (w : Word) (k : Unit → Except CmdError α) :
    (checkRange cfg a n w >>= k) = if a + n ≤ cfg.bufSize then k () else .error (.range w) := by
  by_cases h : a + n ≤ cfg.bufSize
  · rw [checkRange_ok h, if_pos h]; rfl
  · rw [checkRange_error (by omega), if_neg h]; rfl

/-- A computation after the length check of a received datagram. -/
theorem checkReceived_bind {α : Type} (s : State) (k : Unit → Except CmdError α) :
    (checkReceived s >>= k) =
      if s.rxLen.toNat < 20 ∨ s.rxLen.toNat < 20 + (readLe16 (s.byteAt .rx) 16).toNat then
        .error (.truncated s.rxLen) else k () := by
  unfold checkReceived
  by_cases h1 : s.rxLen.toNat < 20
  · rw [if_pos h1, if_pos (.inl h1)]; rfl
  · by_cases h2 : s.rxLen.toNat < 20 + (readLe16 (s.byteAt .rx) 16).toNat
    · rw [if_neg h1, if_pos h2, if_pos (.inr h2)]; rfl
    · rw [if_neg h1, if_neg h2, if_neg (by simp only [h1, h2, or_self, not_false_iff])]; rfl

/-- The payload hash of a payload that holds the selected sections. -/
theorem payHash_of_walk {cfg : Config} {f : Word} {rd : Nat → Byte} {p len : Nat} {secs : List Section}
    (h : walk cfg f rd p len = .ok secs) : payHash cfg f rd p len = .ok (sumHashes cfg rd secs) := by
  simp only [payHash, h]

/-- TRUNCATED where the walk fails (R91). -/
theorem payHash_of_fail {cfg : Config} {f : Word} {rd : Nat → Byte} {p len o : Nat}
    (h : walk cfg f rd p len = .error o) : payHash cfg f rd p len = .error (.truncated (addressWord o)) := by
  simp only [payHash, h]

/-! ### The bodies that check first, as one case distinction each -/

theorem fpackBody_eq (cfg : Config) (d : Dir) (s : State) :
    fpackBody cfg d s = if s.arg0.toNat + 16 ≤ cfg.bufSize then
      .ok (s.memWrite d s.arg0.toNat (fragmentBytes s.frg)) else .error (.range s.arg0) :=
  checkRange_bind cfg _ _ _ _

theorem funpackBody_eq (cfg : Config) (d : Dir) (s : State) :
    funpackBody cfg d s = if s.arg0.toNat + 16 ≤ cfg.bufSize then
      .ok (s.setFrg (readFragment (s.byteAt d) s.arg0.toNat)) else .error (.range s.arg0) :=
  checkRange_bind cfg _ _ _ _

theorem hash32Body_eq (cfg : Config) (d : Dir) (s : State) :
    hash32Body cfg d s = if s.arg0.toNat + s.arg1.toNat ≤ cfg.bufSize then
      .ok (s.setRes (cfg.hash32 (memRead (s.byteAt d) s.arg0.toNat s.arg1.toNat)))
      else .error (.range s.arg0) :=
  checkRange_bind cfg _ _ _ _

theorem payhashBody_eq (cfg : Config) (d : Dir) (s : State) :
    payhashBody cfg d s = if s.arg1.toNat + s.arg2.toNat ≤ cfg.bufSize then
      (match walk cfg s.arg0 (s.byteAt d) s.arg1.toNat s.arg2.toNat with
        | .ok secs => .ok (s.setRes (sumHashes cfg (s.byteAt d) secs))
        | .error o => .error (.truncated (addressWord o)))
      else .error (.range s.arg1) := by
  rw [payhashBody, checkRange_bind]
  show (if s.arg1.toNat + s.arg2.toNat ≤ cfg.bufSize then
    (payHash cfg s.arg0 (s.byteAt d) s.arg1.toNat s.arg2.toNat >>= _) else _) = _
  congr 1
  cases h : walk cfg s.arg0 (s.byteAt d) s.arg1.toNat s.arg2.toNat with
  | ok secs => rw [payHash_of_walk h]; rfl
  | error o => rw [payHash_of_fail h]; rfl

theorem txframeBody_eq (cfg : Config) (s : State) :
    txframeBody cfg s = if 20 + s.txPlen.toNat ≤ cfg.bufSize then
      (match walk cfg (txFlags cfg s) (s.byteAt .tx) 20 s.txPlen.toNat with
        | .ok secs => .ok (txCommit cfg s (txCksum cfg s (sumHashes cfg (s.byteAt .tx) secs)))
        | .error o => .error (.truncated (addressWord o)))
      else .error (.range (s.txPlen.zeroExtend 32)) := by
  rw [txframeBody, checkRange_bind]
  congr 1
  cases h : walk cfg (txFlags cfg s) (s.byteAt .tx) 20 s.txPlen.toNat with
  | ok secs => rw [payHash_of_walk h]; rfl
  | error o => rw [payHash_of_fail h]; rfl

theorem rxframeBody_eq (cfg : Config) (s : State) :
    rxframeBody cfg s =
      if s.rxLen.toNat < 20 ∨ s.rxLen.toNat < 20 + (readLe16 (s.byteAt .rx) 16).toNat then
        .error (.truncated s.rxLen)
      else
        match walk cfg (readHeader (s.byteAt .rx) 0).flags (s.byteAt .rx) 20 (readLe16 (s.byteAt .rx) 16).toNat with
        | .error o => .error (.truncated (addressWord o))
        | .ok secs =>
          let h := readHeader (s.byteAt .rx) 0
          let x := rxExpected cfg s h.flags (sumHashes cfg (s.byteAt .rx) secs)
          if encRx cfg h.flags && !s.rxcPresent then .error (.cipherAbsent .rx)
          else if x ≠ h.cksum then .error (.badChecksum x)
          else .ok (rxCommit cfg s h) := by
  rw [rxframeBody, checkReceived_bind]
  congr 1
  simp only [hdrSize_readHeader, Nat.zero_add]
  cases h : walk cfg (readHeader (s.byteAt .rx) 0).flags (s.byteAt .rx) 20 (readLe16 (s.byteAt .rx) 16).toNat with
  | ok secs => rw [payHash_of_walk h]; rfl
  | error o => rw [payHash_of_fail h]; rfl

theorem cracceptBody_eq (cfg : Config) (s : State) :
    cracceptBody cfg s =
      if s.rxLen.toNat < 20 ∨ s.rxLen.toNat < 20 + (readLe16 (s.byteAt .rx) 16).toNat then
        .error (.truncated s.rxLen)
      else if flagSet (readLe32 (s.byteAt .rx) 4) cfg.flags.connectRequest = false then
        .error (.noSection cfg.flags.connectRequest)
      else
        match walk cfg (readLe32 (s.byteAt .rx) 4 &&& preConnectFlags cfg) (s.byteAt .rx) 20
            (readLe16 (s.byteAt .rx) 16).toNat with
        | .error o => .error (.truncated (addressWord o))
        | .ok secs =>
          if connectAddress secs + 28 > 20 + (readLe16 (s.byteAt .rx) 16).toNat then
            .error (.truncated (addressWord (connectAddress secs)))
          else if s.txcPresent then .error (.cipherPresent .tx)
          else if s.rxcPresent then .error (.cipherPresent .rx)
          else .ok (crCommit cfg s (readConnect (s.byteAt .rx) (connectAddress secs))) := by
  rw [cracceptBody, checkReceived_bind]
  congr 1
  simp only [Bool.not_eq_true']
  all_goals
    cases walk cfg (readLe32 (s.byteAt .rx) 4 &&& preConnectFlags cfg) (s.byteAt .rx) 20
      (readLe16 (s.byteAt .rx) 16).toNat <;> rfl

end Sys2Proof.Machine
end

