-- ==== Sys2Proof/Laws/Bodies.lean ====
section
/-! SUPPORT. What a command that succeeds leaves, and which errors a command raises, said once for all 25 commands. -/
namespace Sys2Proof.Machine

/-- The end states of a successful command, before STATUS.ERR and ERR_INFO are cleared. -/
def Leaves (i : Instr) (s u : State) : Prop :=
  match i with
  | .nop => u = s
  | .cinitTx => s.txCipher = none ∧ u = s.setCipher .tx (some (isaacInit s.arg0))
  | .cinitRx => s.rxCipher = none ∧ u = s.setCipher .rx (some (isaacInit s.arg0))
  | .cpeekTx => ∃ c, s.txCipher = some c ∧ u = s.setRes (peek c)
  | .cpeekRx => ∃ c, s.rxCipher = some c ∧ u = s.setRes (peek c)
  | .cadvTx => ∃ c, s.txCipher = some c ∧ u = s.setCipher .tx (some (advance c))
  | .cadvRx => ∃ c, s.rxCipher = some c ∧ u = s.setCipher .rx (some (advance c))
  | .hpackTx => u = s.memWrite .tx 0 (headerBytes s.hdr)
  | .hpackRx => u = s.memWrite .rx 0 (headerBytes s.hdr)
  | .hunpackTx => u = s.setHdr (readHeader (s.byteAt .tx) 0)
  | .hunpackRx => u = s.setHdr (readHeader (s.byteAt .rx) 0)
  | .fpackTx => s.arg0.toNat + 16 ≤ Config.chip.bufSize ∧ u = s.memWrite .tx s.arg0.toNat (fragmentBytes s.frg)
  | .fpackRx => s.arg0.toNat + 16 ≤ Config.chip.bufSize ∧ u = s.memWrite .rx s.arg0.toNat (fragmentBytes s.frg)
  | .funpackTx => s.arg0.toNat + 16 ≤ Config.chip.bufSize ∧
      u = s.setFrg (readFragment (s.byteAt .tx) s.arg0.toNat)
  | .funpackRx => s.arg0.toNat + 16 ≤ Config.chip.bufSize ∧
      u = s.setFrg (readFragment (s.byteAt .rx) s.arg0.toNat)
  | .hash32Tx => s.arg0.toNat + s.arg1.toNat ≤ Config.chip.bufSize ∧
      u = s.setRes (hash32 (memRead (s.byteAt .tx) s.arg0.toNat s.arg1.toNat))
  | .hash32Rx => s.arg0.toNat + s.arg1.toNat ≤ Config.chip.bufSize ∧
      u = s.setRes (hash32 (memRead (s.byteAt .rx) s.arg0.toNat s.arg1.toNat))
  | .hdrhashTx => u = s.setRes (hdrHash Config.chip (memRead (s.byteAt .tx) 0 20))
  | .hdrhashRx => u = s.setRes (hdrHash Config.chip (memRead (s.byteAt .rx) 0 20))
  | .payhashTx => s.arg1.toNat + s.arg2.toNat ≤ Config.chip.bufSize ∧
      ∃ secs, walk Config.chip s.arg0 (s.byteAt .tx) s.arg1.toNat s.arg2.toNat = .ok secs ∧
        u = s.setRes (sumHashes Config.chip (s.byteAt .tx) secs)
  | .payhashRx => s.arg1.toNat + s.arg2.toNat ≤ Config.chip.bufSize ∧
      ∃ secs, walk Config.chip s.arg0 (s.byteAt .rx) s.arg1.toNat s.arg2.toNat = .ok secs ∧
        u = s.setRes (sumHashes Config.chip (s.byteAt .rx) secs)
  | .craccept => s.txCipher = none ∧ s.rxCipher = none ∧
      ∃ secs, walk Config.chip (readLe32 (s.byteAt .rx) 4 &&& preConnectFlags Config.chip) (s.byteAt .rx) 20
          (readLe16 (s.byteAt .rx) 16).toNat = .ok secs ∧
        u = crCommit Config.chip s (readConnect (s.byteAt .rx) (connectAddress secs))
  | .txframe => ∃ secs,
      walk Config.chip (txFlags Config.chip s) (s.byteAt .tx) 20 s.txPlen.toNat = .ok secs ∧
        u = txCommit Config.chip s (txCksum Config.chip s (sumHashes Config.chip (s.byteAt .tx) secs))
  | .rxframe => ¬ (s.rxLen.toNat < 20 ∨ s.rxLen.toNat < 20 + (readLe16 (s.byteAt .rx) 16).toNat) ∧ ∃ secs,
      walk Config.chip (readHeader (s.byteAt .rx) 0).flags (s.byteAt .rx) 20 (readLe16 (s.byteAt .rx) 16).toNat
          = .ok secs ∧
        (encRx Config.chip (readHeader (s.byteAt .rx) 0).flags = true → s.rxCipher.isSome = true) ∧
        rxExpected Config.chip s (readHeader (s.byteAt .rx) 0).flags (sumHashes Config.chip (s.byteAt .rx) secs)
          = (readHeader (s.byteAt .rx) 0).cksum ∧
        u = rxCommit Config.chip s (readHeader (s.byteAt .rx) 0)
  | .sreset => u = s.cleared Config.chip

/-- A command that succeeds leaves what its rule says. -/
theorem bodyOf_ok {i : Instr} {s u : State} (h : bodyOf i s = .ok u) : Leaves i s u := by
  cases i <;> simp only [bodyOf, nopBody, sresetBody, cinitBody, cpeekBody, cadvBody, hpackBody, hunpackBody,
    hdrhashBody, fpackBody_eq, funpackBody_eq, hash32Body_eq, payhashBody_eq, txframeBody_eq, rxframeBody_eq,
    cracceptBody_eq] at h
  case nop => cases h; rfl
  case cinitTx => split at h <;> cases h; exact ⟨by assumption, rfl⟩
  case cinitRx => split at h <;> cases h; exact ⟨by assumption, rfl⟩
  case cpeekTx => split at h <;> cases h; exact ⟨_, by assumption, rfl⟩
  case cpeekRx => split at h <;> cases h; exact ⟨_, by assumption, rfl⟩
  case cadvTx => split at h <;> cases h; exact ⟨_, by assumption, rfl⟩
  case cadvRx => split at h <;> cases h; exact ⟨_, by assumption, rfl⟩
  case hpackTx => cases h; rfl
  case hpackRx => cases h; rfl
  case hunpackTx => cases h; rfl
  case hunpackRx => cases h; rfl
  case fpackTx => split at h <;> cases h; exact ⟨by assumption, rfl⟩
  case fpackRx => split at h <;> cases h; exact ⟨by assumption, rfl⟩
  case funpackTx => split at h <;> cases h; exact ⟨by assumption, rfl⟩
  case funpackRx => split at h <;> cases h; exact ⟨by assumption, rfl⟩
  case hash32Tx => split at h <;> cases h; exact ⟨by assumption, rfl⟩
  case hash32Rx => split at h <;> cases h; exact ⟨by assumption, rfl⟩
  case hdrhashTx => cases h; rfl
  case hdrhashRx => cases h; rfl
  case payhashTx =>
    split at h
    · split at h <;> cases h; exact ⟨by assumption, _, by assumption, rfl⟩
    · cases h
  case payhashRx =>
    split at h
    · split at h <;> cases h; exact ⟨by assumption, _, by assumption, rfl⟩
    · cases h
  case craccept =>
    repeat' split at h
    all_goals cases h
    rename_i h1 h2
    simp only [State.txcPresent, State.rxcPresent, Option.not_isSome_iff_eq_none] at h1 h2
    exact ⟨h1, h2, _, by assumption, rfl⟩
  case txframe =>
    split at h
    · split at h <;> cases h; exact ⟨_, by assumption, rfl⟩
    · cases h
  case rxframe =>
    repeat' split at h
    all_goals cases h
    rename_i h1 _ secs hw h2 h3
    refine ⟨h1, secs, hw, fun he => ?_, not_not.1 h3, rfl⟩
    simpa [he, State.rxcPresent, Option.isSome_iff_ne_none] using h2
  case sreset => cases h; rfl

/-- The codes of the errors a command raises (R99). -/
theorem bodyOf_error {i : Instr} {s : State} {e : CmdError} (h : bodyOf i s = .error e) :
    e.code ∈ (match i with
      | .nop => []
      | .cinitTx => [3]
      | .cinitRx => [3]
      | .cpeekTx => [2]
      | .cpeekRx => [2]
      | .cadvTx => [2]
      | .cadvRx => [2]
      | .hpackTx => []
      | .hpackRx => []
      | .hunpackTx => []
      | .hunpackRx => []
      | .fpackTx => [6]
      | .fpackRx => [6]
      | .funpackTx => [6]
      | .funpackRx => [6]
      | .hash32Tx => [6]
      | .hash32Rx => [6]
      | .hdrhashTx => []
      | .hdrhashRx => []
      | .payhashTx => [4, 6]
      | .payhashRx => [4, 6]
      | .craccept => [3, 4, 7]
      | .txframe => [4, 6]
      | .rxframe => [2, 4, 5]
      | .sreset => [] : List (BitVec 4)) := by
  cases i <;> simp only [bodyOf, nopBody, sresetBody, cinitBody, cpeekBody, cadvBody, hpackBody, hunpackBody,
    hdrhashBody, fpackBody_eq, funpackBody_eq, hash32Body_eq, payhashBody_eq, txframeBody_eq, rxframeBody_eq,
    cracceptBody_eq] at h
  all_goals (repeat' split at h)
  all_goals first | (cases h; done) | (cases h; simp [CmdError.code])

/-- If a command answers a next state, it left what its rule says, or it raised one of its errors. -/
theorem exec_leaves {i : Instr} {s t : State} (h : exec i s = .next t) :
    (∃ u, Leaves i s u ∧ t = u.succeed) ∨ (∃ e, bodyOf i s = .error e ∧ t = s.raise e) := by
  rcases exec_next h with ⟨u, hu, rfl⟩ | h
  · exact .inl ⟨u, bodyOf_ok hu, rfl⟩
  · exact .inr h

/-- The code of an error is one of 1 to 7 (R99). -/
theorem CmdError.code_range (e : CmdError) : 1 ≤ e.code.toNat ∧ e.code.toNat ≤ 7 := by
  cases e <;> simp [CmdError.code]

/-- A command that ends with code 0 left what its rule says. -/
theorem exec_leaves_of_ok {i : Instr} {s t : State} (h : exec i s = .next t) (ht : t.err = 0) :
    ∃ u, Leaves i s u ∧ t = u.succeed := by
  rcases exec_leaves h with h | ⟨e, _, rfl⟩
  · exact h
  · have := e.code_range.1
    have he : e.code = 0 := ht
    rw [he] at this
    exact absurd this (by decide)

end Sys2Proof.Machine
end

