-- ==== Sys2Proof/Laws/Decode.lean ====
section
/-! SUPPORT. Laws of the decoder and the encoder (R51, R53, R54). -/
namespace Sys2Proof

/-- The decoder by the word's fields. -/
theorem decodeWord_eq (w : Word) :
    decodeWord w = if w.extractLsb' 9 23 = 0 then decodeOp (w.extractLsb' 0 8) (w.extractLsb' 8 1)
      else .error .reservedBits := rfl

/-- A word is its three fields (R51). -/
theorem word_of_fields (w : Word) : w = w.extractLsb' 9 23 ++ w.extractLsb' 8 1 ++ w.extractLsb' 0 8 := by
  apply BitVec.eq_of_getLsbD_eq
  intro k hk
  simp only [BitVec.getLsbD_append, BitVec.getLsbD_extractLsb']
  split
  · rename_i h1; simp [h1]
  · split
    · rename_i h1 h2; simp [h2, show 8 + (k - 8) = k by omega]
    · simp [show k - 8 - 1 < 23 by omega, show 9 + (k - 8 - 1) = k by omega]

/-- Every row of the command map: a command decoded from OP and D has that OP and that D (512 cases). -/
theorem decodeOp_fields : ∀ (op : BitVec 8) (d : BitVec 1),
    (match decodeOp op d with
      | .ok i => decide (op = opOf i ∧ d = dirBitOf i)
      | .error _ => true) = true := by decide +kernel

theorem decodeOp_eq_ok {op : BitVec 8} {d : BitVec 1} {i : Instr} (h : decodeOp op d = .ok i) :
    op = opOf i ∧ d = dirBitOf i := by
  have := decodeOp_fields op d
  rw [h] at this
  exact of_decide_eq_true this

/-- A legal pair of fields is one that the checks of WellFormed accept (512 cases). -/
theorem decodeOp_wf : ∀ (op : BitVec 8) (d : BitVec 1),
    (decodeOp op d).isOk = CmdFields.wf { op := op, d := d, rsv := 0 } := by decide +kernel

/-- The decoder accepts exactly the words whose fields are well formed. -/
theorem decodeWord_isOk (w : Word) : (decodeWord w).isOk = CmdFields.wf (cmdFields w) := by
  rw [decodeWord_eq]
  by_cases h : w.extractLsb' 9 23 = 0
  · rw [if_pos h, decodeOp_wf, ← h]; rfl
  · rw [if_neg h]
    have hr : (cmdFields w).rsvOk = false := beq_eq_false_iff_ne.2 h
    rw [CmdFields.wf, hr]
    rfl

end Sys2Proof
end

