-- ==== Sys2Proof/Laws/Keystream.lean ====
section
/-! SUPPORT. Laws of the keystream cipher: what a scramble leaves alone, its last iteration, and that it does not read the
old result array (R67 to R69). -/
namespace Sys2Proof.Machine

theorem cell_val (n : Nat) : (cell n).val = n % 256 := rfl

theorem cell_of_fin (i : Fin 256) : cell i.val = i := by ext; simp [cell_val, Nat.mod_eq_of_lt i.isLt]

/-- Reading an array after a write. -/
theorem get_putWord (v : Words256) (n : Nat) (w : Word) (i : Fin 256) :
    (putWord v n w).get i = if i = cell n then w else v.get i := by
  simp only [putWord, Vector.get_eq_getElem, Vector.getElem_set, eq_comm (a := (cell n).val), Fin.val_inj]

@[simp] theorem scrambleStep_c (C : Cipher) (i : Nat) : (scrambleStep C i).c = C.c := rfl
@[simp] theorem scrambleStep_idx (C : Cipher) (i : Nat) : (scrambleStep C i).idx = C.idx := rfl
@[simp] theorem scrambleStart_c (C : Cipher) : (scrambleStart C).c = C.c + 1 := rfl
@[simp] theorem scrambleStart_idx (C : Cipher) : (scrambleStart C).idx = C.idx := rfl
@[simp] theorem scrambleStart_rsl (C : Cipher) : (scrambleStart C).rsl = C.rsl := rfl

theorem foldl_scrambleStep_c (l : List Nat) (C : Cipher) : (l.foldl scrambleStep C).c = C.c := by
  induction l generalizing C with
  | nil => rfl
  | cons i l ih => rw [List.foldl_cons, ih, scrambleStep_c]

theorem foldl_scrambleStep_idx (l : List Nat) (C : Cipher) : (l.foldl scrambleStep C).idx = C.idx := by
  induction l generalizing C with
  | nil => rfl
  | cons i l ih => rw [List.foldl_cons, ih, scrambleStep_idx]

/-- A scramble counts the block in `c` (R67). -/
@[simp] theorem scramble_c (C : Cipher) : (scramble C).c = C.c + 1 := by
  rw [scramble, foldl_scrambleStep_c, scrambleStart_c]

/-- A scramble leaves `idx` alone; `Init` and `Advance` set it (R68, R69). -/
@[simp] theorem scramble_idx (C : Cipher) : (scramble C).idx = C.idx := by
  rw [scramble, foldl_scrambleStep_idx, scrambleStart_idx]

/-- A scramble ends with iteration 255. -/
theorem scramble_eq_last (C : Cipher) :
    scramble C = scrambleStep ((List.range 255).foldl scrambleStep (scrambleStart C)) 255 := by
  rw [scramble, show 256 = 255 + 1 from rfl, List.range_succ, List.foldl_append]
  rfl

/-- One iteration with another `idx` and another result array differs in those two only, and writes the same word. -/
theorem scrambleStep_with (C : Cipher) (r : Words256) (j : Fin 256) (i : Nat) :
    scrambleStep { C with rsl := r, idx := j } i =
      { scrambleStep C i with rsl := putWord r i (scrambleStep C i).b, idx := j } := rfl

/-- The result array after some iterations: the words they write, over the old array. -/
def writtenWords (l : List Nat) (C : Cipher) (r : Words256) : Words256 :=
  match l with
  | [] => r
  | i :: l => writtenWords l (scrambleStep C i) (putWord r i (scrambleStep C i).b)

theorem foldl_scrambleStep_with (l : List Nat) (C : Cipher) (r : Words256) (j : Fin 256) :
    l.foldl scrambleStep { C with rsl := r, idx := j } =
      { l.foldl scrambleStep C with rsl := writtenWords l C r, idx := j } := by
  induction l generalizing C r with
  | nil => rfl
  | cons i l ih =>
    rw [List.foldl_cons, scrambleStep_with, ih, List.foldl_cons, writtenWords]

/-- At an index that is written, the written words do not depend on the old array. -/
theorem get_writtenWords (l : List Nat) (C : Cipher) (r r' : Words256) (i : Fin 256)
    (h : (∃ n ∈ l, cell n = i) ∨ r.get i = r'.get i) :
    (writtenWords l C r).get i = (writtenWords l C r').get i := by
  induction l generalizing C r r' with
  | nil => simpa [writtenWords] using h
  | cons n l ih =>
    rw [writtenWords, writtenWords]
    apply ih
    by_cases hn : cell n = i
    · right; rw [get_putWord, get_putWord, if_pos hn.symm, if_pos hn.symm]
    · rcases h with ⟨m, hm, hmi⟩ | h
      · rcases List.mem_cons.1 hm with rfl | hm
        · exact absurd hmi hn
        · exact .inl ⟨m, hm, hmi⟩
      · right; rw [get_putWord, get_putWord, if_neg (Ne.symm hn), if_neg (Ne.symm hn), h]

/-- A scramble with another result array and another `idx` gives the same block of words. -/
theorem scramble_with (C : Cipher) (r : Words256) (j : Fin 256) :
    scramble { C with rsl := r, idx := j } = { scramble C with idx := j } := by
  have hC : C = { C with rsl := C.rsl, idx := C.idx } := rfl
  have h1 : scramble { C with rsl := r, idx := j } =
      { scramble C with rsl := writtenWords (List.range 256) (scrambleStart C) r, idx := j } :=
    foldl_scrambleStep_with (List.range 256) (scrambleStart C) r j
  have h2 : scramble C =
      { scramble C with rsl := writtenWords (List.range 256) (scrambleStart C) C.rsl, idx := C.idx } :=
    foldl_scrambleStep_with (List.range 256) (scrambleStart C) C.rsl C.idx
  have h3 : writtenWords (List.range 256) (scrambleStart C) r =
      writtenWords (List.range 256) (scrambleStart C) C.rsl := by
    apply Vector.ext
    intro i hi
    exact get_writtenWords _ _ _ _ ⟨i, hi⟩ (.inl ⟨i, List.mem_range.2 hi, cell_of_fin ⟨i, hi⟩⟩)
  rw [h1, h3]
  conv => rhs; rw [h2]

/-- While keys of the block are left, `Advance` moves the index down by one (R69). -/
theorem advance_of_pos {C : Cipher} (h : 0 < C.idx.val) : advance C = { C with idx := cell (C.idx.val - 1) } :=
  if_pos h

/-- After `rsl[0]`, `Advance` generates a block and restarts at `rsl[255]` (R69). -/
theorem advance_of_zero {C : Cipher} (h : C.idx.val = 0) : advance C = { scramble C with idx := 255 } :=
  if_neg (by omega)

@[simp] theorem Cipher.c_with_idx (C : Cipher) (j : Fin 256) : ({ C with idx := j } : Cipher).c = C.c := rfl

/-- `Init` by the block it generates: with the block named, no proof evaluates it (R68). -/
theorem isaacInit_of_scramble {seed : Word} {D : Cipher}
    (h : scramble ⟨initMem, zeroWords, seed, seed, seed, 255⟩ = D) : isaacInit seed = { D with idx := 255 } := by
  unfold isaacInit
  rw [h]

/-- `Init` counts the block it generates in `c` (R67, R68). -/
theorem isaacInit_c (seed : Word) : (isaacInit seed).c = seed + 1 := by
  have h := scramble_c ⟨initMem, zeroWords, seed, seed, seed, 255⟩
  rw [isaacInit_of_scramble rfl, Cipher.c_with_idx, h]

end Sys2Proof.Machine
end

