-- ==== Sys2Proof/Laws/FastKeystream.lean ====
section
/-! SUPPORT. The keystream cipher over packed arrays, proved equal to the model's, so that the kernel can evaluate the
spec's keystream vectors quickly. An array of 256 words is one number, word `i` in its bits 32i to 32i + 31. -/
namespace Sys2Proof.Machine

/-! ### Packed arrays -/

/-- Word `i` of a packed array. -/
def packedGet (p i : Nat) : Nat := (p >>> (32 * (i % 256))) % 2 ^ 32

/-- A packed array with word `i` replaced. -/
def packedSet (p i w : Nat) : Nat := p ^^^ ((packedGet p i ^^^ w) <<< (32 * (i % 256)))

theorem packedGet_packedSet (p i w j : Nat) (hw : w < 2 ^ 32) :
    packedGet (packedSet p i w) j = if j % 256 = i % 256 then w else packedGet p j := by
  have hi : i % 256 < 256 := Nat.mod_lt _ (by omega)
  have hj : j % 256 < 256 := Nat.mod_lt _ (by omega)
  apply Nat.eq_of_testBit_eq
  intro k
  have hw' : ∀ {k : Nat}, 32 ≤ k → w.testBit k = false := fun hk =>
    Nat.testBit_lt_two_pow (Nat.lt_of_lt_of_le hw (Nat.pow_le_pow_right (by omega) hk))
  simp only [packedGet, packedSet, Nat.testBit_mod_two_pow, Nat.testBit_shiftRight, Nat.testBit_xor,
    Nat.testBit_shiftLeft]
  split
  · rename_i h
    by_cases hk : k < 32
    · simp [hk, h]
    · have hz := hw' (k := k) (by omega)
      simp [hk, hz]
  · rename_i h
    simp only [Nat.testBit_mod_two_pow, Nat.testBit_shiftRight]
    by_cases hk : k < 32
    · by_cases hge : 32 * (i % 256) ≤ 32 * (j % 256) + k
      · have hne : ¬ 32 * (j % 256) + k - 32 * (i % 256) < 32 := by omega
        have hz := hw' (k := 32 * (j % 256) + k - 32 * (i % 256)) (by omega)
        simp [hk, hge, hne, hz]
      · simp [hk, hge]
    · simp [hk]

/-- The packed array that stands for an array of words. -/
def Packs (v : Words256) (p : Nat) : Prop := ∀ n, (getWord v n).toNat = packedGet p n

theorem cell_eq_iff (m n : Nat) : cell m = cell n ↔ m % 256 = n % 256 := by
  rw [← Fin.val_inj, cell_val, cell_val]

theorem Packs.set {v : Words256} {p : Nat} (h : Packs v p) (n : Nat) (w : Word) :
    Packs (putWord v n w) (packedSet p n w.toNat) := by
  intro m
  rw [getWord, get_putWord, packedGet_packedSet _ _ _ _ w.isLt]
  by_cases hm : m % 256 = n % 256
  · rw [if_pos ((cell_eq_iff m n).2 hm), if_pos hm]
  · rw [if_neg (fun he => hm ((cell_eq_iff m n).1 he)), if_neg hm]
    exact h m

theorem Packs.get {v : Words256} {p : Nat} (h : Packs v p) (n : Nat) :
    BitVec.ofNat 32 (packedGet p n) = getWord v n := by
  rw [← h n, BitVec.ofNat_toNat, BitVec.setWidth_eq]

theorem packs_zero : Packs zeroWords 0 := by
  intro n
  simp [getWord, zeroWords, packedGet, Vector.get_eq_getElem]

/-! ### Forcing a number -/

/-- `k n`, with `n` evaluated first. -/
def forced {α : Type} (n : Nat) (k : Nat → α) : α :=
  match n with
  | 0 => k 0
  | m + 1 => k (m + 1)

@[simp] theorem forced_eq {α : Type} (n : Nat) (k : Nat → α) : forced n k = k n := by cases n <;> rfl

/-! ### The scramble -/

/-- The fields of a cipher instance that the scramble works on, as numbers. -/
structure Fast where
  mem : Nat
  rsl : Nat
  a   : Nat
  b   : Nat

/-- One iteration of the scramble (R67). -/
def fastStep (f : Fast) (i : Nat) : Fast :=
  forced (packedGet f.mem i) fun x =>
  forced (BitVec.ofNat 32 (packedGet f.mem (i + 128)) + scrambleShift i (BitVec.ofNat 32 f.a)).toNat fun a =>
  forced (BitVec.ofNat 32 (packedGet f.mem (x >>> 2)) + BitVec.ofNat 32 a + BitVec.ofNat 32 f.b).toNat fun y =>
  forced (packedSet f.mem i y) fun mem =>
  forced (BitVec.ofNat 32 (packedGet mem (y >>> 10)) + BitVec.ofNat 32 x).toNat fun b =>
  forced (packedSet f.rsl i b) fun rsl =>
  { mem := mem, rsl := rsl, a := a, b := b }

/-- The iterations `i`, `i + 1` and so on, each evaluated before the next. -/
def fastLoop : (count i : Nat) → Fast → Fast
  | 0, _, f => f
  | n + 1, i, f =>
    match fastStep f i with
    | ⟨mem, rsl, a, b⟩ => fastLoop n (i + 1) ⟨mem, rsl, a, b⟩

/-- The numbers that stand for a cipher instance. -/
structure Stands (C : Cipher) (f : Fast) : Prop where
  mem : Packs C.mem f.mem
  rsl : Packs C.rsl f.rsl
  a   : C.a.toNat = f.a
  b   : C.b.toNat = f.b

theorem ofNat_of_toNat {w : Word} {n : Nat} (h : w.toNat = n) : BitVec.ofNat 32 n = w := by
  rw [← h, BitVec.ofNat_toNat, BitVec.setWidth_eq]

theorem Stands.step {C : Cipher} {f : Fast} (h : Stands C f) (i : Nat) :
    Stands (scrambleStep C i) (fastStep f i) := by
  have ha := ofNat_of_toNat h.a
  have hb := ofNat_of_toNat h.b
  have hx : packedGet f.mem i = (getWord C.mem i).toNat := (h.mem i).symm
  simp only [fastStep, forced_eq, hx, ha, hb, h.mem.get, BitVec.ofNat_toNat, BitVec.setWidth_eq,
    ← BitVec.toNat_ushiftRight]
  have hm := h.mem.set i (getWord C.mem ((getWord C.mem i) >>> 2).toNat +
    (getWord C.mem (i + 128) + scrambleShift i C.a) + C.b)
  simp only [hm.get]
  exact ⟨hm, h.rsl.set i _, rfl, rfl⟩

theorem Stands.loop (n : Nat) {C : Cipher} {f : Fast} (h : Stands C f) (i : Nat) :
    Stands ((List.range' i n).foldl scrambleStep C) (fastLoop n i f) := by
  induction n generalizing C f i with
  | zero => exact h
  | succ n ih => exact ih (h.step i) (i + 1)

/-- The packed scramble stands for the scramble (R67). -/
theorem Stands.scramble {C : Cipher} {f : Fast} (h : Stands (scrambleStart C) f) :
    Stands (Machine.scramble C) (fastLoop 256 0 f) := by
  rw [Machine.scramble, List.range_eq_range']
  exact h.loop 256 0

/-! ### Init -/

/-- `v[j+k] <- s[k]` on a packed array (R68). -/
def fastStore (p j : Nat) (s : Octet) : Nat :=
  forced (packedSet p j s.a.toNat) fun p =>
  forced (packedSet p (j + 1) s.b.toNat) fun p =>
  forced (packedSet p (j + 2) s.c.toNat) fun p =>
  forced (packedSet p (j + 3) s.d.toNat) fun p =>
  forced (packedSet p (j + 4) s.e.toNat) fun p =>
  forced (packedSet p (j + 5) s.f.toNat) fun p =>
  forced (packedSet p (j + 6) s.g.toNat) fun p =>
  forced (packedSet p (j + 7) s.h.toNat) fun p => p

theorem Packs.store {v : Words256} {p : Nat} (h : Packs v p) (j : Nat) (s : Octet) :
    Packs (storeBlock v j s) (fastStore p j s) := by
  simp only [fastStore, forced_eq]
  exact (((((((h.set j s.a).set (j + 1) s.b).set (j + 2) s.c).set (j + 3) s.d).set (j + 4) s.e).set (j + 5) s.f).set
    (j + 6) s.g).set (j + 7) s.h

/-- The words of an octet, evaluated. -/
def forceOctet {α : Type} (s : Octet) (k : Octet → α) : α :=
  forced s.a.toNat fun a => forced s.b.toNat fun b => forced s.c.toNat fun c => forced s.d.toNat fun d =>
  forced s.e.toNat fun e => forced s.f.toNat fun f => forced s.g.toNat fun g => forced s.h.toNat fun h =>
  k ⟨BitVec.ofNat 32 a, BitVec.ofNat 32 b, BitVec.ofNat 32 c, BitVec.ofNat 32 d, BitVec.ofNat 32 e,
     BitVec.ofNat 32 f, BitVec.ofNat 32 g, BitVec.ofNat 32 h⟩

@[simp] theorem forceOctet_eq {α : Type} (s : Octet) (k : Octet → α) : forceOctet s k = k s := by
  simp [forceOctet]

/-- `s[k] <- s[k] + v[j+k]` from a packed array (R68). -/
def fastAdd (s : Octet) (p j : Nat) : Octet :=
  ⟨s.a + BitVec.ofNat 32 (packedGet p j), s.b + BitVec.ofNat 32 (packedGet p (j + 1)),
   s.c + BitVec.ofNat 32 (packedGet p (j + 2)), s.d + BitVec.ofNat 32 (packedGet p (j + 3)),
   s.e + BitVec.ofNat 32 (packedGet p (j + 4)), s.f + BitVec.ofNat 32 (packedGet p (j + 5)),
   s.g + BitVec.ofNat 32 (packedGet p (j + 6)), s.h + BitVec.ofNat 32 (packedGet p (j + 7))⟩

theorem Packs.add {v : Words256} {p : Nat} (h : Packs v p) (s : Octet) (j : Nat) :
    fastAdd s p j = addBlock s v j := by
  simp only [fastAdd, addBlock, h.get]

/-- One pass of `Init`: `n` blocks from block `q` on; the addends come from `p`, or are zero (R68). -/
def fastPass (fromMem : Bool) : (n q : Nat) → Octet → Nat → Octet × Nat
  | 0, _, s, p => (s, p)
  | n + 1, q, s, p =>
    forceOctet (mix (fastAdd s (if fromMem then p else 0) (8 * q))) fun s =>
    forced (fastStore p (8 * q) s) fun p => fastPass fromMem n (q + 1) s p

theorem fastPass_zero (n : Nat) {v : Words256} {p : Nat} (h : Packs v p) (q : Nat) (s : Octet) :
    ((List.range' q n).foldl initPass0 (s, v)).1 = (fastPass false n q s p).1 ∧
      Packs ((List.range' q n).foldl initPass0 (s, v)).2 (fastPass false n q s p).2 := by
  induction n generalizing v p q s with
  | zero => exact ⟨rfl, h⟩
  | succ n ih =>
    simp only [fastPass, forceOctet_eq, forced_eq, Bool.false_eq_true, if_false, packs_zero.add]
    exact ih (h.store (8 * q) _) (q + 1) _

theorem fastPass_mem (n : Nat) {v : Words256} {p : Nat} (h : Packs v p) (q : Nat) (s : Octet) :
    Packs ((List.range' q n).foldl initPass1 (s, v)).2 (fastPass true n q s p).2 := by
  induction n generalizing v p q s with
  | zero => exact h
  | succ n ih =>
    simp only [fastPass, forceOctet_eq, forced_eq, if_true, h.add]
    exact ih (h.store (8 * q) _) (q + 1) _

/-- The array that the two passes of `Init` leave, packed (R68). -/
def fastInitMem : Nat :=
  forceOctet (mix (mix (mix (mix ⟨golden, golden, golden, golden, golden, golden, golden, golden⟩)))) fun s =>
  match fastPass false 32 0 s 0 with
  | (s, p) => (fastPass true 32 0 s p).2

theorem packs_passes (n : Nat) (s : Octet) :
    Packs ((List.range' 0 n).foldl initPass1 ((List.range' 0 n).foldl initPass0 (s, zeroWords))).2
      (match fastPass false n 0 s 0 with | (s, p) => (fastPass true n 0 s p).2) := by
  have h := fastPass_zero n packs_zero 0 s
  generalize (List.range' 0 n).foldl initPass0 (s, zeroWords) = a at h ⊢
  generalize fastPass false n 0 s 0 = b at h ⊢
  obtain ⟨a1, a2⟩ := a
  obtain ⟨b1, b2⟩ := b
  obtain ⟨h1, h⟩ := h
  simp only at h1 h ⊢
  subst h1
  exact fastPass_mem n h 0 a1

theorem packs_initMem : Packs initMem fastInitMem := by
  unfold initMem fastInitMem
  rw [forceOctet_eq, List.range_eq_range']
  exact packs_passes 32 _

/-- The instance right after `Init(seed)`, as numbers (R68). -/
def fastInit (seed : Nat) : Fast :=
  forced fastInitMem fun mem =>
  forced ((seed + 1 + seed) % 2 ^ 32) fun b => fastLoop 256 0 { mem := mem, rsl := 0, a := seed, b := b }

theorem stands_init (seed : Nat) (hs : seed < 2 ^ 32) : Stands (isaacInit (BitVec.ofNat 32 seed)) (fastInit seed) := by
  have hC : Stands (scrambleStart ⟨initMem, zeroWords, BitVec.ofNat 32 seed, BitVec.ofNat 32 seed,
      BitVec.ofNat 32 seed, 255⟩) ⟨fastInitMem, 0, seed, (seed + 1 + seed) % 2 ^ 32⟩ := by
    refine ⟨packs_initMem, packs_zero, ?_, ?_⟩
    · simp only [scrambleStart, BitVec.toNat_ofNat]; omega
    · have h1 : BitVec.toNat (1 : Word) = 1 := rfl
      simp only [scrambleStart, BitVec.toNat_ofNat, BitVec.toNat_add, h1]; omega
  have h := hC.scramble
  unfold isaacInit fastInit
  rw [forced_eq, forced_eq]
  exact ⟨h.mem, h.rsl, h.a, h.b⟩

/-- Word `n` of the block that `Init(seed)` leaves (R68). -/
theorem initBlock_eq (seed : Nat) (hs : seed < 2 ^ 32) (n : Nat) :
    (getWord (isaacInit (BitVec.ofNat 32 seed)).rsl n).toNat = packedGet (fastInit seed).rsl n :=
  (stands_init seed hs).rsl n

/-- `k f`, with the numbers of `f` evaluated first. -/
def forcedFast {α : Type} (f : Fast) (k : Fast → α) : α :=
  forced f.mem fun mem => forced f.rsl fun rsl => forced f.a fun a => forced f.b fun b => k ⟨mem, rsl, a, b⟩

theorem forcedFast_eq {α : Type} (f : Fast) (k : Fast → α) : forcedFast f k = k f := by
  rw [forcedFast, forced_eq, forced_eq, forced_eq, forced_eq]

/-- The numbers a scramble starts from, `c` being counted up to the given value (R67). -/
def fastStart (f : Fast) (c : Nat) : Fast := { f with b := (f.b + c) % 2 ^ 32 }

theorem Stands.start {C : Cipher} {f : Fast} (h : Stands C f) {c : Nat} (hc : (C.c + 1).toNat = c % 2 ^ 32) :
    Stands (scrambleStart C) (fastStart f c) := by
  refine ⟨h.mem, h.rsl, h.a, ?_⟩
  have h2 := h.b
  show (C.b + (C.c + 1)).toNat = (f.b + c) % 2 ^ 32
  rw [BitVec.toNat_add, hc, h2]
  omega

/-- The numbers after one more scramble. -/
def fastNext (seed : Nat) : Fast := forcedFast (fastInit seed) fun f => fastLoop 256 0 (fastStart f (seed + 2))

/-- Word `n` of the block after that (R67). -/
theorem nextBlock_eq (seed : Nat) (hs : seed < 2 ^ 32) (n : Nat) :
    (getWord (scramble (isaacInit (BitVec.ofNat 32 seed))).rsl n).toNat = packedGet (fastNext seed).rsl n := by
  have hc := isaacInit_c (BitVec.ofNat 32 seed)
  have h := stands_init seed hs
  rw [fastNext, forcedFast_eq]
  generalize isaacInit (BitVec.ofNat 32 seed) = C at h hc ⊢
  generalize fastInit seed = f at h ⊢
  refine (h.start ?_).scramble.rsl n
  have h1 : BitVec.toNat (1 : Word) = 1 := rfl
  rw [hc, BitVec.toNat_add, BitVec.toNat_add, BitVec.toNat_ofNat, h1]
  omega

end Sys2Proof.Machine
end

