-- ==== Sys2Proof/Laws/Hash.lean ====
section
/-! SUPPORT. Laws of the 32-bit hash (R75, R76). -/
namespace Sys2Proof.Machine

theorem hashFrom_word (h : Word) (b0 b1 b2 b3 : Byte) (s : List Byte) :
    hashFrom h (b0 :: b1 :: b2 :: b3 :: s) = hashFrom (h + le32 b0 b1 b2 b3) s := by
  rw [hashFrom]

theorem hashFrom_three (h : Word) (b0 b1 b2 : Byte) :
    hashFrom h [b0, b1, b2] =
      h + (b0.zeroExtend 32 <<< 24) + (b1.zeroExtend 32 <<< 16) + (b2.zeroExtend 32 <<< 8) := by
  rw [hashFrom]

theorem hashFrom_two (h : Word) (b0 b1 : Byte) :
    hashFrom h [b0, b1] = h + (b0.zeroExtend 32 <<< 24) + (b1.zeroExtend 32 <<< 16) := by
  rw [hashFrom]

theorem hashFrom_one (h : Word) (b0 : Byte) : hashFrom h [b0] = h + (b0.zeroExtend 32 <<< 24) := by
  rw [hashFrom]

theorem hashFrom_nil (h : Word) : hashFrom h [] = h := by rw [hashFrom]

/-- Induction on a byte string four bytes at a time, as the hash reads it. -/
theorem byWords {P : List Byte → Prop} (h0 : P []) (h1 : ∀ a, P [a]) (h2 : ∀ a b, P [a, b])
    (h3 : ∀ a b c, P [a, b, c]) (h4 : ∀ a b c d s, P s → P (a :: b :: c :: d :: s)) : ∀ s, P s
  | [] => h0
  | [a] => h1 a
  | [a, b] => h2 a b
  | [a, b, c] => h3 a b c
  | a :: b :: c :: d :: s => h4 a b c d s (byWords h0 h1 h2 h3 h4 s)

/-- The sum so far is a summand of the hash. -/
theorem hashFrom_add (s : List Byte) (g h : Word) : hashFrom (g + h) s = g + hashFrom h s := by
  induction s using byWords generalizing h with
  | h0 => rw [hashFrom_nil, hashFrom_nil]
  | h1 a => simp only [hashFrom_one, add_assoc]
  | h2 a b => simp only [hashFrom_two, add_assoc]
  | h3 a b c => simp only [hashFrom_three, add_assoc]
  | h4 a b c d s ih => rw [hashFrom_word, hashFrom_word, add_assoc, ih]

theorem hashFrom_eq_add (s : List Byte) (h : Word) : hashFrom h s = h + hashFrom 0 s := by
  rw [← hashFrom_add, add_zero]

/-- Reading on after a whole number of words. -/
theorem hashFrom_append {s : List Byte} (hs : s.length % 4 = 0) (t : List Byte) (h : Word) :
    hashFrom h (s ++ t) = hashFrom (hashFrom h s) t := by
  induction s using byWords generalizing h with
  | h0 => rw [List.nil_append, hashFrom_nil]
  | h1 a => simp at hs
  | h2 a b => simp at hs
  | h3 a b c => simp at hs
  | h4 a b c d s ih =>
    simp only [List.length_cons] at hs
    simp only [List.cons_append, hashFrom_word]
    exact ih (by omega) _

/-- Two strings of equal words hash alike: the hash of a string of whole words, word by word. -/
theorem hashFrom_leBytes32 (h v : Word) (t : List Byte) : hashFrom h (leBytes32 v ++ t) = hashFrom (h + v) t := by
  simp only [leBytes32, List.cons_append, List.nil_append, hashFrom_word, le32_leBytes32]

/-- HDRHASH of 20 buffer bytes, word by word: the checksum field does not occur (R77, R83). -/
theorem hdrHash_memRead (rd : Nat → Byte) (a : Nat) :
    hdrHash Config.chip (memRead rd a 20) =
      0x00140000 + readLe32 rd a + readLe32 rd (a + 4) + 0xBADD70DD + readLe32 rd (a + 12) + readLe32 rd (a + 16) := by
  rw [← headerBytes_readHeader]
  have h : hdrHash Config.chip (headerBytes (readHeader rd a)) =
      hashFrom (BitVec.ofNat 32 (20 * 65536)) (leBytes32 (readLe32 rd a) ++ (leBytes32 (readLe32 rd (a + 4)) ++
        (leBytes32 0xBADD70DD ++ (leBytes32 (readLe32 rd (a + 12)) ++ (leBytes32 (readLe32 rd (a + 16)) ++ []))))) := by
    simp only [readHeader, headerBytes]
    generalize readLe32 rd a = x0
    generalize readLe32 rd (a + 4) = x1
    generalize readLe32 rd (a + 8) = x2
    generalize readLe32 rd (a + 12) = x3
    generalize readLe32 rd (a + 16) = x4
    rfl
  rw [h]
  simp only [hashFrom_leBytes32, hashFrom_nil]
  rfl

end Sys2Proof.Machine
end

