-- ==== Sys2Proof/Laws/PerInstr.lean ====
section
/-! SUPPORT. One lemma per command for each family named in LAWS.json. -/

/-- The family: the word a command is encoded as passes the checks of WellFormed (R51, R53, R54), and its fields are the
row's OP and D with the reserved bits 0. -/
def Sys2Proof.Laws.EncodingWellFormed.Statement (i : Sys2Proof.Instr) : Prop :=
  (Sys2Proof.cmdFields (Sys2Proof.encode i)).wf = true ∧
    Sys2Proof.cmdFields (Sys2Proof.encode i) = { op := Sys2Proof.opOf i, d := Sys2Proof.dirBitOf i, rsv := 0 }

theorem Sys2Proof.Laws.EncodingWellFormed.nop : Sys2Proof.Laws.EncodingWellFormed.Statement .nop := by
  exact ⟨by decide, by decide⟩

theorem Sys2Proof.Laws.EncodingWellFormed.cinitTx : Sys2Proof.Laws.EncodingWellFormed.Statement .cinitTx := by
  exact ⟨by decide, by decide⟩

theorem Sys2Proof.Laws.EncodingWellFormed.cinitRx : Sys2Proof.Laws.EncodingWellFormed.Statement .cinitRx := by
  exact ⟨by decide, by decide⟩

theorem Sys2Proof.Laws.EncodingWellFormed.cpeekTx : Sys2Proof.Laws.EncodingWellFormed.Statement .cpeekTx := by
  exact ⟨by decide, by decide⟩

theorem Sys2Proof.Laws.EncodingWellFormed.cpeekRx : Sys2Proof.Laws.EncodingWellFormed.Statement .cpeekRx := by
  exact ⟨by decide, by decide⟩

theorem Sys2Proof.Laws.EncodingWellFormed.cadvTx : Sys2Proof.Laws.EncodingWellFormed.Statement .cadvTx := by
  exact ⟨by decide, by decide⟩

theorem Sys2Proof.Laws.EncodingWellFormed.cadvRx : Sys2Proof.Laws.EncodingWellFormed.Statement .cadvRx := by
  exact ⟨by decide, by decide⟩

theorem Sys2Proof.Laws.EncodingWellFormed.hpackTx : Sys2Proof.Laws.EncodingWellFormed.Statement .hpackTx := by
  exact ⟨by decide, by decide⟩

theorem Sys2Proof.Laws.EncodingWellFormed.hpackRx : Sys2Proof.Laws.EncodingWellFormed.Statement .hpackRx := by
  exact ⟨by decide, by decide⟩

theorem Sys2Proof.Laws.EncodingWellFormed.hunpackTx : Sys2Proof.Laws.EncodingWellFormed.Statement .hunpackTx := by
  exact ⟨by decide, by decide⟩

theorem Sys2Proof.Laws.EncodingWellFormed.hunpackRx : Sys2Proof.Laws.EncodingWellFormed.Statement .hunpackRx := by
  exact ⟨by decide, by decide⟩

theorem Sys2Proof.Laws.EncodingWellFormed.fpackTx : Sys2Proof.Laws.EncodingWellFormed.Statement .fpackTx := by
  exact ⟨by decide, by decide⟩

theorem Sys2Proof.Laws.EncodingWellFormed.fpackRx : Sys2Proof.Laws.EncodingWellFormed.Statement .fpackRx := by
  exact ⟨by decide, by decide⟩

theorem Sys2Proof.Laws.EncodingWellFormed.funpackTx : Sys2Proof.Laws.EncodingWellFormed.Statement .funpackTx := by
  exact ⟨by decide, by decide⟩

theorem Sys2Proof.Laws.EncodingWellFormed.funpackRx : Sys2Proof.Laws.EncodingWellFormed.Statement .funpackRx := by
  exact ⟨by decide, by decide⟩

theorem Sys2Proof.Laws.EncodingWellFormed.hash32Tx : Sys2Proof.Laws.EncodingWellFormed.Statement .hash32Tx := by
  exact ⟨by decide, by decide⟩

theorem Sys2Proof.Laws.EncodingWellFormed.hash32Rx : Sys2Proof.Laws.EncodingWellFormed.Statement .hash32Rx := by
  exact ⟨by decide, by decide⟩

theorem Sys2Proof.Laws.EncodingWellFormed.hdrhashTx : Sys2Proof.Laws.EncodingWellFormed.Statement .hdrhashTx := by
  exact ⟨by decide, by decide⟩

theorem Sys2Proof.Laws.EncodingWellFormed.hdrhashRx : Sys2Proof.Laws.EncodingWellFormed.Statement .hdrhashRx := by
  exact ⟨by decide, by decide⟩

theorem Sys2Proof.Laws.EncodingWellFormed.payhashTx : Sys2Proof.Laws.EncodingWellFormed.Statement .payhashTx := by
  exact ⟨by decide, by decide⟩

theorem Sys2Proof.Laws.EncodingWellFormed.payhashRx : Sys2Proof.Laws.EncodingWellFormed.Statement .payhashRx := by
  exact ⟨by decide, by decide⟩

theorem Sys2Proof.Laws.EncodingWellFormed.craccept : Sys2Proof.Laws.EncodingWellFormed.Statement .craccept := by
  exact ⟨by decide, by decide⟩

theorem Sys2Proof.Laws.EncodingWellFormed.txframe : Sys2Proof.Laws.EncodingWellFormed.Statement .txframe := by
  exact ⟨by decide, by decide⟩

theorem Sys2Proof.Laws.EncodingWellFormed.rxframe : Sys2Proof.Laws.EncodingWellFormed.Statement .rxframe := by
  exact ⟨by decide, by decide⟩

theorem Sys2Proof.Laws.EncodingWellFormed.sreset : Sys2Proof.Laws.EncodingWellFormed.Statement .sreset := by
  exact ⟨by decide, by decide⟩
end

