-- ==== Sys2Proof/Laws/Step.lean ====
section
/-! SUPPORT. What one step can do, said once per kind of host event. -/
namespace Sys2Proof.Machine

/-- An idle block stays as it is (R111). -/
theorem step_idle {s : State} (h : s.pending = []) : step s = .next s := by
  show stepBlock s = _
  rw [stepBlock, h]

/-- A step performs the oldest pending event. -/
theorem step_event {s : State} {e : HostEvent} {rest : List HostEvent} (h : s.pending = e :: rest) :
    step s = takeEvent e (s.taken rest) := by
  show stepBlock s = _
  rw [stepBlock, h]

theorem badForm_iff (offset width : Nat) : badForm offset width = true ↔ width ≠ 4 ∨ offset % 4 ≠ 0 := by
  simp [badForm]

theorem takeEvent_regWrite_eq (offset width : Nat) (v : Word) (s : State) :
    takeEvent (.regWrite offset width v) s =
      if badForm offset width then .refused .registerAccessForm
      else if offset < 256 then hostWrite offset v s else .fault .noSuchAddress := rfl

theorem takeEvent_regRead_eq (offset width : Nat) (s : State) :
    takeEvent (.regRead offset width) s =
      if badForm offset width then .refused .registerAccessForm
      else if offset < 256 then .next (s.answer (.word (s.readOffset offset))) else .fault .noSuchAddress := rfl

theorem takeEvent_bufWrite_eq (d : Dir) (a : Nat) (v : Byte) (s : State) :
    takeEvent (.bufWrite d a v) s =
      if a < Config.chip.bufSize then .next (s.memWrite d a [v]) else .fault .noSuchAddress := rfl

theorem takeEvent_bufRead_eq (d : Dir) (a : Nat) (s : State) :
    takeEvent (.bufRead d a) s =
      if a < Config.chip.bufSize then .next (s.answer (.byte (s.byteAt d a))) else .fault .noSuchAddress := rfl

theorem takeEvent_reset (s : State) : takeEvent .reset s = .next (s.afterReset Config.chip) := rfl

theorem takeEvent_concurrent (s : State) : takeEvent .concurrent s = .refused .concurrentAccess := rfl

/-- A register access of the interface is of the right form. -/
theorem badForm_false {offset : Nat} (h : offset % 4 = 0) : badForm offset 4 = false := by
  simp [badForm, h]

/-- Issuing a word that decodes runs its command. -/
theorem issue_of_decode {w : Word} {i : Instr} (h : decodeWord w = .ok i) (s : State) : issue w s = exec i s := by
  simp only [issue, h]

/-- Issuing a word that is no command raises ILLEGAL_CMD (R54). -/
theorem issue_of_illegal {w : Word} {e : DecodeReject} (h : decodeWord w = .error e) (s : State) :
    issue w s = .next (s.raise (.illegalCmd w)) := by
  simp only [issue, h, runCommand_chip, finish_error]

/-- Issuing a word always ends in a next state (R102). -/
theorem issue_next (w : Word) (s : State) : ∃ t, issue w s = .next t := by
  cases h : decodeWord w with
  | ok i => exact ⟨_, by rw [issue_of_decode h, exec_eq]⟩
  | error e => exact ⟨_, issue_of_illegal h s⟩

/-- The only offset that issues a command is CMD's. -/
theorem regAt_cmd {offset : Nat} {acc : Access} (h : regAt offset = some (.cmd, acc)) : offset = 0 := by
  by_contra hne
  have hmem : ∀ (l : List (Nat × Reg × Access)), (∀ x ∈ l, x.2.1 = .cmd → x.1 = 0) →
      l.lookup offset = some (.cmd, acc) → offset = 0 := by
    intro l
    induction l with
    | nil => intro _ h; simp at h
    | cons x l ih =>
      intro hx hl
      obtain ⟨o, r⟩ := x
      rw [List.lookup_cons] at hl
      by_cases ho : offset == o
      · rw [ho] at hl
        simp only [Option.some.injEq] at hl
        rw [beq_iff_eq] at ho
        rw [ho]
        exact hx (o, r) (by simp) (by rw [hl])
      · simp only [ho] at hl
        exact ih (fun y hy => hx y (List.mem_cons_of_mem _ hy)) hl
  exact hne (hmem regMap (by decide) h)

/-- A host write to CMD issues the word. -/
theorem hostWrite_cmd (v : Word) (s : State) : hostWrite 0 v s = issue v s := rfl

/-- A host write to any other offset stores. -/
theorem hostWrite_store {offset : Nat} (h : offset ≠ 0) (v : Word) (s : State) :
    hostWrite offset v s = .next (s.writeOffset Config.chip offset v) := by
  unfold hostWrite
  split
  · rename_i hc; exact absurd (regAt_cmd hc) h
  · rfl
  · rfl

/-! ### One step per kind of legal access -/

theorem State.taken_eq (s : State) (rest : List HostEvent) : s.taken rest = { s with pending := rest } := rfl

/-- A step that issues a command runs it (R17). -/
theorem step_command {s : State} {i : Instr} {w : Word} {rest : List HostEvent}
    (h : s.pending = .regWrite 0 4 w :: rest) (hw : decodeWord w = .ok i) :
    step s = exec i { s with pending := rest } := by
  rw [step_event h]
  exact issue_of_decode hw _

/-- A step that stores into the register window (R18). -/
theorem step_regWrite {s : State} {offset : Nat} {v : Word} {rest : List HostEvent}
    (h : s.pending = .regWrite offset 4 v :: rest) (h4 : offset % 4 = 0) (hw : offset < 256) (h0 : offset ≠ 0) :
    step s = .next (State.writeOffset Config.chip { s with pending := rest } offset v) := by
  rw [step_event h, takeEvent_regWrite_eq, badForm_false h4, if_neg (by simp), if_pos hw, hostWrite_store h0]
  rfl

/-- A step that reads the register window (R18). -/
theorem step_regRead {s : State} {offset : Nat} {rest : List HostEvent}
    (h : s.pending = .regRead offset 4 :: rest) (h4 : offset % 4 = 0) (hw : offset < 256) :
    step s = .next { s with pending := rest, answers := .word (s.readOffset offset) :: s.answers } := by
  rw [step_event h, takeEvent_regRead_eq, badForm_false h4, if_neg (by simp), if_pos hw]
  rfl

/-- A step that writes a buffer byte (R38). -/
theorem step_bufWrite {s : State} {d : Dir} {a : Nat} {v : Byte} {rest : List HostEvent}
    (h : s.pending = .bufWrite d a v :: rest) (ha : a < Config.chip.bufSize) :
    step s = .next (State.memWrite { s with pending := rest } d a [v]) := by
  rw [step_event h, takeEvent_bufWrite_eq, if_pos ha]
  rfl

/-- A step that reads a buffer byte (R38, R45). -/
theorem step_bufRead {s : State} {d : Dir} {a : Nat} {rest : List HostEvent}
    (h : s.pending = .bufRead d a :: rest) (ha : a < Config.chip.bufSize) :
    step s = .next { s with pending := rest, answers := .byte (s.byteAt d a) :: s.answers } := by
  rw [step_event h, takeEvent_bufRead_eq, if_pos ha]
  cases d <;> rfl

/-- A run whose first step answers a next state goes on from there. -/
theorem run_succ {s t : State} (h : step s = .next t) (k : Nat) :
    Host.Core.run Sys2Proof.core (k + 1) s = Host.Core.run Sys2Proof.core k t := by
  have h' : Sys2Proof.core.step s = .next t := h
  change Host.Core.run Sys2Proof.core (Nat.succ k) s = _
  simp only [Host.Core.run, h']

end Sys2Proof.Machine
end

