-- ==== Sys2Proof/Laws/Registers.lean ====
section
/-! SUPPORT. Laws of the register window (R17, R18): the map, and what a host write leaves alone. -/
namespace Sys2Proof.Machine

/-- A register found at an offset stands in the map there. -/
theorem regAt_mem {offset : Nat} {r : Reg} {acc : Access} (h : regAt offset = some (r, acc)) :
    (offset, r, acc) ∈ regMap := by
  obtain ⟨l, l', hl, -⟩ := List.lookup_eq_some_iff.1 h
  rw [hl]
  exact List.mem_append_right _ (List.mem_cons_self ..)

/-- Where the map puts a register (R17). -/
def Reg.offset : Reg → Nat
  | .cmd => 0x00 | .status => 0x04 | .arg0 => 0x08 | .arg1 => 0x0C | .arg2 => 0x10 | .res => 0x14
  | .errInfo => 0x18 | .errSticky => 0x1C | .txSeq => 0x20 | .lastRxSeq => 0x24 | .clientId => 0x28
  | .txPlen => 0x2C | .txLen => 0x30 | .rxLen => 0x34 | .hdrSeq => 0x38 | .hdrFlags => 0x3C | .hdrCksum => 0x40
  | .hdrW3 => 0x44 | .hdrW4 => 0x48 | .frgSeq => 0x4C | .frgId => 0x50 | .frgW2 => 0x54 | .frgW3 => 0x58
  | .crTimeLo => 0x5C | .crTimeHi => 0x60 | .crCookieLo => 0x64 | .crCookieHi => 0x68 | .crCid => 0x6C
  | .crSseed => 0x70 | .crCseed => 0x74

/-- Every register has one offset. -/
theorem regAt_offset {offset : Nat} {r : Reg} {acc : Access} (h : regAt offset = some (r, acc)) :
    offset = r.offset := by
  have key : ∀ x ∈ regMap, x.1 = x.2.1.offset := by decide
  exact key _ (regAt_mem h)

/-- A host write to one register leaves every other register reading as before. -/
theorem readReg_writeReg_other {r q : Reg} (h : r ≠ q) (cfg : Config) (s : State) (v : Word) :
    (s.writeReg cfg r v).readReg q = s.readReg q := by
  cases r <;> cases q <;> first | rfl | exact absurd rfl h

/-- A host write leaves every other offset reading as before. -/
theorem readOffset_writeOffset_other {o offset : Nat} (h : o ≠ offset) (cfg : Config) (s : State) (v : Word) :
    (s.writeOffset cfg offset v).readOffset o = s.readOffset o := by
  unfold State.writeOffset
  split
  · rename_i r hr
    unfold State.readOffset
    split
    · rename_i q acc hq
      apply readReg_writeReg_other
      rintro rfl
      exact h ((regAt_offset hq).trans (regAt_offset hr).symm)
    · rfl
  · rfl
  · rfl
  · rfl

/-- What a host write leaves alone, whatever the offset. -/
theorem writeOffset_frame (cfg : Config) (s : State) (offset : Nat) (v : Word) :
    (s.writeOffset cfg offset v).txCipher = s.txCipher ∧ (s.writeOffset cfg offset v).rxCipher = s.rxCipher ∧
    (s.writeOffset cfg offset v).txBuf = s.txBuf ∧ (s.writeOffset cfg offset v).rxBuf = s.rxBuf ∧
    (s.writeOffset cfg offset v).pending = s.pending ∧ (s.writeOffset cfg offset v).answers = s.answers ∧
    (s.writeOffset cfg offset v).draws = s.draws := by
  unfold State.writeOffset
  split
  · rename_i r _
    cases r <;> exact ⟨rfl, rfl, rfl, rfl, rfl, rfl, rfl⟩
  all_goals exact ⟨rfl, rfl, rfl, rfl, rfl, rfl, rfl⟩

end Sys2Proof.Machine
end

