-- ==== Sys2Proof/Tests/Slice0.lean ====
section
/-! SUPPORT. Small tests: the checks of WellFormed on ill-formed terms, one word per row of the command map, at most two
tests per command with expected results from 95_test_vectors.md (named in each docstring), and for every obligation with
hypotheses a state and operands that meet them. -/
namespace Sys2Proof.Tests

-- One theorem at a time: many kernel evaluations at once take more threads than the memory limit allows.
set_option Elab.async false

open Sys2Proof Sys2Proof.Machine

/-! ### Helpers -/

/-- The state a command leaves. -/
def after (i : Instr) (s : State) : State :=
  match exec i s with
  | .next t => t
  | .fault _ => s
  | .refused _ => s

/-- A command always leaves a next state. -/
theorem exec_after (i : Instr) (s : State) : exec i s = .next (after i s) := by
  unfold after
  rw [exec_eq]

/-- The state a step leaves. -/
def stepped (s : State) : State :=
  match step s with
  | .next t => t
  | .fault _ => s
  | .refused _ => s

/-- The reset state with bytes in one buffer. -/
def holding (d : Dir) (a : Nat) (bs : List Byte) : State := State.reset.memWrite d a bs

/-- The reset state with bytes and a length in RXBUF. -/
def received (bs : List Byte) (len : Word) : State := { holding .rx 0 bs with rxLen := len }

/-- A cipher instance whose current key is `k0` and whose next key is `k1`. -/
def keyed (k0 k1 : Word) : Cipher :=
  { mem := zeroWords, rsl := putWord (putWord zeroWords 255 k0) 254 k1, a := 0, b := 0, c := 0, idx := 255 }

/-- A cipher instance at its block's last key. -/
def atLastKey (k : Word) : Cipher :=
  { mem := zeroWords, rsl := putWord zeroWords 0 k, a := 0, b := 0, c := 0, idx := 0 }

/-- One pending host event. -/
def event (e : HostEvent) : State := { State.reset with pending := [e] }

/-! ### WellFormed: each check refuses an ill-formed term -/

theorem test_wf_refuses_reserved_bit : (cmdFields 0x00000202).rsvOk = false ∧ (cmdFields 0x00000202).wf = false := by
  decide

theorem test_wf_refuses_unknown_op : (cmdFields 0x00000004).opOk = false ∧ (cmdFields 0x00000004).wf = false := by
  decide

theorem test_wf_refuses_direction : (cmdFields 0x00000023).dirOk = false ∧ (cmdFields 0x00000100).dirOk = false := by
  decide

theorem test_wf_refuses_small_buffer :
    { Config.chip with bufSize := 19 }.wf = false ∧ { Config.chip with bufSize := 20 }.wf = true := by decide

theorem test_wf_refuses_short_connect_request :
    { Config.chip with crLen := 27 }.wf = false ∧ { Config.chip with crLen := 28 }.wf = true := by decide

theorem test_wf_refuses_echo_response_length :
    { Config.chip with echoRespLen := 5 }.wf = false ∧ { Config.chip with echoRespLen := 4 }.wf = true := by decide

/-! ### Decode: a word for every row of the command map (R53), and V-X1 -/

theorem test_decode_control : decodeWord 0x00000000 = .ok .nop ∧ decodeWord 0x0000003F = .ok .sreset := by decide

theorem test_decode_cipher :
    decodeWord 0x00000001 = .ok .cinitTx ∧ decodeWord 0x00000101 = .ok .cinitRx ∧
    decodeWord 0x00000002 = .ok .cpeekTx ∧ decodeWord 0x00000102 = .ok .cpeekRx ∧
    decodeWord 0x00000003 = .ok .cadvTx ∧ decodeWord 0x00000103 = .ok .cadvRx := by decide

theorem test_decode_header :
    decodeWord 0x00000010 = .ok .hpackTx ∧ decodeWord 0x00000110 = .ok .hpackRx ∧
    decodeWord 0x00000011 = .ok .hunpackTx ∧ decodeWord 0x00000111 = .ok .hunpackRx ∧
    decodeWord 0x00000012 = .ok .fpackTx ∧ decodeWord 0x00000112 = .ok .fpackRx ∧
    decodeWord 0x00000013 = .ok .funpackTx ∧ decodeWord 0x00000113 = .ok .funpackRx := by decide

theorem test_decode_hash :
    decodeWord 0x00000020 = .ok .hash32Tx ∧ decodeWord 0x00000120 = .ok .hash32Rx ∧
    decodeWord 0x00000021 = .ok .hdrhashTx ∧ decodeWord 0x00000121 = .ok .hdrhashRx ∧
    decodeWord 0x00000022 = .ok .payhashTx ∧ decodeWord 0x00000122 = .ok .payhashRx := by decide

theorem test_decode_framing :
    decodeWord 0x00000123 = .ok .craccept ∧ decodeWord 0x00000030 = .ok .txframe ∧
    decodeWord 0x00000131 = .ok .rxframe := by decide

/-- V-X1. -/
theorem test_decode_illegal :
    decodeWord 0x00000004 = .error .unknownOp ∧ decodeWord 0x00000040 = .error .unknownOp ∧
    decodeWord 0x00000100 = .error .directionNotAllowed ∧ decodeWord 0x00000130 = .error .directionNotAllowed ∧
    decodeWord 0x00000031 = .error .directionNotAllowed ∧ decodeWord 0x00000023 = .error .directionNotAllowed ∧
    decodeWord 0x0000013F = .error .directionNotAllowed ∧ decodeWord 0x00000202 = .error .reservedBits ∧
    decodeWord 0x80000000 = .error .reservedBits := by decide

theorem test_decodeTableWord :
    decodeTableWord 32 0x00000131 = some .rxframe ∧ decodeTableWord 32 0x00000031 = none := by decide

/-- V-X1 through a step: the word is reported and only the error registers change. -/
theorem test_illegal_word_step :
    (stepped (State.reset.withCommand 0x80000000)).err = 1 ∧
    (stepped (State.reset.withCommand 0x80000000)).errInfo = 0x80000000 ∧
    (stepped (State.reset.withCommand 0x80000000)).errSticky = 0x0002 := by decide +kernel

/-- `withFetchWord` makes the word the very next thing the block does. -/
theorem test_withFetchWord :
    (stepped (State.reset.withFetchWord 32 0x00000102)).err = 2 ∧
    (stepped (State.reset.withFetchWord 32 0x00000102)).errInfo = 1 := by decide +kernel

/-! ### The host's registers -/

/-- R19: V-C7 step 5 (the keys do not matter there), and R18: CMD and reserved offsets read 0. -/
theorem test_status_word :
    ({ State.reset with err := 3, rxCipher := some (keyed 1 2) } : State).readOffset 0x04 = 0x00000023 ∧
    ({ State.reset with rxSeen := true, lastTxEnc := true, lastRxEnc := true, txCipher := some (keyed 1 2),
                        rxCipher := some (keyed 1 2) } : State).readOffset 0x04 = 0x000003F0 ∧
    State.reset.readOffset 0x00 = 0 ∧ State.reset.readOffset 0x78 = 0 := by decide +kernel

/-- R24, R25, R27, R18. -/
theorem test_host_writes :
    (stepped (event (.regWrite 0x28 4 0xFFFF0042))).clientId = 0x0042 ∧
    (stepped (event (.regWrite 0x2C 4 0x0001FFFF))).txPlen = 0xFFFF ∧
    (stepped (event (.regWrite 0x34 4 0x00010014))).rxLen = 0x00010013 ∧
    (stepped (event (.regWrite 0x34 4 0x00010013))).rxLen = 0x00010013 ∧
    (stepped (event (.regWrite 0x14 4 0x55))).res = 0 := by decide +kernel

/-! ### Control commands -/

/-- V-X3. -/
theorem test_nop : (after .nop { State.reset with err := 5, errInfo := 0xCD30B12B, errSticky := 0x0020 }).err = 0 ∧
    (after .nop { State.reset with err := 5, errInfo := 0xCD30B12B, errSticky := 0x0020 }).errSticky = 0x0020 := by
  decide +kernel

/-- V-X4. -/
theorem test_sreset :
    let s := after .sreset { holding .tx 3 [7] with txSeq := 2, errSticky := 0x20, txCipher := some (keyed 1 2) }
    s.txSeq = 0 ∧ s.errSticky = 0 ∧ s.txCipher.isSome = false ∧ s.byteAt .tx 3 = 7 := by decide +kernel

/-! ### Cipher commands -/

/-- V-C7 step 4: a second CINIT leaves the instance where it is. -/
theorem test_cinit_present :
    let s := after .cinitRx { State.reset with rxCipher := some (keyed 1 2) }
    s.err = 3 ∧ s.errInfo = 1 ∧ s.errSticky = 0x0008 ∧ s.rxCipher.map peek = some 1 := by decide +kernel

theorem test_cinit_tx_present :
    let s := after .cinitTx { State.reset with txCipher := some (keyed 1 2) }
    s.err = 3 ∧ s.errInfo = 0 ∧ s.txCipher.map peek = some 1 := by decide +kernel

/-- V-C7 step 1, and a present instance's current key (R73). -/
theorem test_cpeek_tx :
    (after .cpeekTx { State.reset with res := 9 }).err = 2 ∧ (after .cpeekTx { State.reset with res := 9 }).res = 9 ∧
    (after .cpeekTx { State.reset with txCipher := some (keyed 0x828E2147 0xE79A0CAC) }).res = 0x828E2147 := by
  decide +kernel

/-- P1 step 8. -/
theorem test_cpeek_rx :
    (after .cpeekRx { State.reset with txCipher := some (keyed 1 2) }).errInfo = 1 ∧
    (after .cpeekRx { State.reset with rxCipher := some (keyed 3 4) }).res = 3 := by decide +kernel

/-- R69: the index goes down. -/
theorem test_cadv_tx :
    ((after .cadvTx { State.reset with txCipher := some (keyed 0x828E2147 0xE79A0CAC) }).txCipher.map peek)
      = some 0xE79A0CAC := by decide +kernel

/-- V-C7 step 2. -/
theorem test_cadv_rx : (after .cadvRx State.reset).err = 2 ∧ (after .cadvRx State.reset).errInfo = 1 := by decide +kernel

/-- V-C1, V-C3, V-C4, V-C5: key 0 (word 255 of the first block) of four seeds. -/
theorem test_keystream_key0 :
    (peek (isaacInit 0x00000000)).toNat = 0x182600F3 ∧ (peek (isaacInit 0xAABBCCDD)).toNat = 0x2E27DAFC ∧
    (peek (isaacInit 0x11223344)).toNat = 0x828E2147 ∧ (peek (isaacInit 0xFFFFFFFF)).toNat = 0x4317C641 :=
  ⟨(initBlock_eq 0x00000000 (by decide) 255).trans (by decide +kernel),
   (initBlock_eq 0xAABBCCDD (by decide) 255).trans (by decide +kernel),
   (initBlock_eq 0x11223344 (by decide) 255).trans (by decide +kernel),
   (initBlock_eq 0xFFFFFFFF (by decide) 255).trans (by decide +kernel)⟩

/-- V-C1: keys 1, 255 and 256 of seed 0. -/
theorem test_keystream_later_keys :
    (getWord (isaacInit 0x00000000).rsl 254).toNat = 0x300B4A8D ∧
    (getWord (isaacInit 0x00000000).rsl 0).toNat = 0xE76DD339 ∧
    (getWord (scramble (isaacInit 0x00000000)).rsl 255).toNat = 0x7A68710F :=
  ⟨(initBlock_eq 0 (by decide) 254).trans (by decide +kernel), (initBlock_eq 0 (by decide) 0).trans (by decide +kernel),
   (nextBlock_eq 0 (by decide) 255).trans (by decide +kernel)⟩

/-- G-ISAAC: the first results of the standard zero-key ISAAC. -/
theorem test_zero_key_isaac :
    (List.range 8).map (fun n => (getWord (scramble (isaacInit 0x00000000)).rsl n).toNat) =
      [0xF650E4C8, 0xE448E96D, 0x98DB2FB4, 0xF5FAD54F, 0x433F1AFB, 0xEDEC154A, 0xD8370487, 0x46CA4F9A] :=
  (List.map_congr_left fun n _ => nextBlock_eq 0 (by decide) n).trans (by decide +kernel)

/-! ### Header and fragment header (V-H1, V-H3) -/

/-- The V-H1 registers. -/
def vh1 : HeaderRegs :=
  { seq := 0x12345678, flags := 0x00004000, cksum := 0xDEADBEEF, w3 := 0x12340042, w4 := 0x00010004 }

/-- The V-H1 bytes. -/
def vh1Bytes : List Byte :=
  [0x78, 0x56, 0x34, 0x12, 0x00, 0x40, 0x00, 0x00, 0xEF, 0xBE, 0xAD, 0xDE, 0x42, 0x00, 0x34, 0x12, 0x04, 0x00, 0x01,
   0x00]

theorem test_hpack_tx :
    memRead ((after .hpackTx { State.reset with hdr := vh1 }).byteAt .tx) 0 20 = vh1Bytes := by decide +kernel

theorem test_hpack_rx :
    memRead ((after .hpackRx { State.reset with hdr := vh1 }).byteAt .rx) 0 20 = vh1Bytes := by decide +kernel

theorem test_hunpack_tx : (after .hunpackTx (holding .tx 0 vh1Bytes)).hdr = vh1 := by decide +kernel

theorem test_hunpack_rx : (after .hunpackRx (holding .rx 0 vh1Bytes)).hdr = vh1 := by decide +kernel

/-- The V-H3 registers. -/
def vh3 : FragmentRegs := { seq := 0x11111111, id := 0x22222222, w2 := 0x00180001, w3 := 0x00050000 }

/-- The V-H3 bytes. -/
def vh3Bytes : List Byte :=
  [0x11, 0x11, 0x11, 0x11, 0x22, 0x22, 0x22, 0x22, 0x01, 0x00, 0x18, 0x00, 0x00, 0x00, 0x05, 0x00]

theorem test_fpack_tx :
    memRead ((after .fpackTx { State.reset with frg := vh3, arg0 := 20 }).byteAt .tx) 20 16 = vh3Bytes := by
  decide +kernel

theorem test_fpack_range :
    (after .fpackTx { State.reset with arg0 := 65539 }).err = 0 ∧
    (after .fpackTx { State.reset with arg0 := 65540 }).errInfo = 0x00010004 ∧
    (after .fpackTx { State.reset with arg0 := 65540 }).txBuf = [] := by decide +kernel

theorem test_fpack_rx :
    memRead ((after .fpackRx { State.reset with frg := vh3, arg0 := 20 }).byteAt .rx) 20 16 = vh3Bytes := by
  decide +kernel

theorem test_funpack_tx : (after .funpackTx { holding .tx 20 vh3Bytes with arg0 := 20 }).frg = vh3 := by
  decide +kernel

theorem test_funpack_rx : (after .funpackRx { holding .rx 20 vh3Bytes with arg0 := 20 }).frg = vh3 := by
  decide +kernel

theorem test_funpack_range :
    (after .funpackRx { State.reset with arg0 := 0xFFFFFFFF }).err = 6 ∧
    (after .funpackRx { State.reset with arg0 := 0xFFFFFFFF }).errInfo = 0xFFFFFFFF := by decide +kernel

/-! ### Hashes (V-H2, V-H4) -/

theorem test_hash32 :
    hash32 [] = 0 ∧ hash32 [0x01] = 0x01010000 ∧ hash32 [0xAB] = 0xAB010000 ∧ hash32 [0x01, 0x02] = 0x01040000 ∧
    hash32 [0x01, 0x02, 0x03] = 0x01050300 ∧ hash32 [0x01, 0x02, 0x03, 0x04] = 0x04070201 ∧
    hash32 [0x01, 0x02, 0x03, 0x04, 0x05] = 0x09080201 ∧ hash32 [0xFF, 0xFF, 0xFF] = 0x0002FF00 ∧
    hash32 [0xC8, 0xF7, 0x00, 0x00, 0x01, 0x00, 0x00, 0x50] = 0x5008F7C9 := by decide +kernel

theorem test_hash32_tx :
    (after .hash32Tx { holding .tx 100 [0x01, 0x02, 0x03, 0x04, 0x05] with arg0 := 100, arg1 := 5 }).res = 0x09080201 := by
  decide +kernel

theorem test_hash32_tx_range :
    (after .hash32Tx { State.reset with arg0 := 65555, arg1 := 0 }).err = 0 ∧
    (after .hash32Tx { State.reset with arg0 := 65555, arg1 := 1 }).errInfo = 0x00010013 ∧
    (after .hash32Tx { State.reset with arg0 := 65550, arg1 := 10 }).errInfo = 0x0001000E := by decide +kernel

theorem test_hash32_rx :
    (after .hash32Rx { holding .rx 100 [0xFF, 0xFF, 0xFF, 0xFF] with arg0 := 100, arg1 := 4 }).res = 0x0003FFFF := by
  decide +kernel

theorem test_hdrhash_tx : (after .hdrhashTx (holding .tx 0 vh1Bytes)).res = 0xDF5B079B := by decide +kernel

theorem test_hdrhash_rx : (after .hdrhashRx (holding .rx 0 (List.replicate 20 0xFF))).res = 0xBAF170D9 := by
  decide +kernel

/-! ### The walk and the payload hash (V-P1, V-W1 to V-W16) -/

/-- PAYHASH.TX over a payload at 20. -/
def payhashOf (f : Word) (bs : List Byte) : State :=
  after .payhashTx { holding .tx 20 bs with arg0 := f, arg1 := 20, arg2 := BitVec.ofNat 32 bs.length }

/-- The V-W6 bytes. -/
def vw6 : List Byte :=
  [0x01, 0x00, 0x00, 0x00, 0x02, 0x00, 0x00, 0x00, 0x01, 0x00, 0x12, 0x00, 0x00, 0x00, 0x00, 0x00, 0xAA, 0xBB, 0x00,
   0x00]

/-- The block that V-W8 adds. -/
def vw8 : List Byte :=
  [0x03, 0x00, 0x00, 0x00, 0x04, 0x00, 0x00, 0x00, 0x01, 0x00, 0x10, 0x00, 0x00, 0x00, 0x00, 0x00]

/-- V-W1, V-W3, V-W5, V-W6, V-W7, V-W8, V-W11, V-W14, V-W16. -/
theorem test_payhash_sections :
    (payhashOf 0x00001000 [0x02, 0, 0, 0, 0x11, 0x11, 0x11, 0x11, 0x22, 0x22, 0x22, 0x22]).res = 0x333F3335 ∧
    (payhashOf 0x08010000 [1, 2, 3, 4, 5, 6, 7, 8, 9, 10]).res = 0x151E0806 ∧
    (payhashOf 0x00004000 [1, 0, 0, 0, 0x99, 0x99, 0x99, 0x99]).res = 0x00040001 ∧
    (payhashOf 0x00000004 vw6).res = 0xAADF0004 ∧ (payhashOf 0x00000004 (vw6.take 18)).res = 0xAADF0004 ∧
    (payhashOf 0x00000004 (vw6 ++ vw8)).res = 0xAAFF000C ∧
    (payhashOf 0x08000004 ([1, 2, 3, 4, 5, 6] ++ vw8)).res = 0x092F0209 ∧
    (payhashOf 0x0F484100 ((List.range 54).map fun k => BitVec.ofNat 8 (k + 1))).res = 0xA2CC5345 ∧
    (payhashOf 0x00020000 [0, 0, 0, 0, 0, 0, 0, 0]).res = 0 := by decide +kernel

/-- V-W2, V-W9, V-W10, V-W12, V-W13, V-P2. -/
theorem test_payhash_errors :
    (payhashOf 0x00001000 [0, 0, 0, 0x40, 0, 0, 0, 0, 0, 0, 0, 0]).errInfo = 0x14 ∧
    (payhashOf 0x00000004 [1, 0, 0, 0, 2, 0, 0, 0, 1, 0, 0x0F, 0, 0, 0, 0, 0]).errInfo = 0x14 ∧
    (payhashOf 0x00000004 [0, 0, 0, 0, 0, 0, 0, 0, 0, 0]).err = 4 ∧ (payhashOf 0x00004000 [0, 0, 0]).errInfo = 0x14 ∧
    (payhashOf 0x00000004 [1, 0, 0, 0, 2, 0, 0, 0, 1, 0, 0x14, 0, 0, 0, 0, 0, 0, 0]).errInfo = 0x14 ∧
    (after .payhashTx { State.reset with arg1 := 65550, arg2 := 10 }).errInfo = 0x0001000E := by decide +kernel

/-- V-P1 in RXBUF. -/
theorem test_payhash_rx :
    (after .payhashRx { holding .rx 20 [0, 0, 0, 0] with arg0 := 0x00004000, arg1 := 20, arg2 := 4 }).res
      = 0x00040000 := by decide +kernel

/-! ### Framing (V-T, V-R, V-S, P2, P3) -/

/-- The state in which P3 step 10 sends: the encrypted ack and fragment. -/
def p3Sender : State :=
  { holding .tx 20 ([0, 0, 0, 0, 0x01, 0, 0, 0, 0x01, 0, 0, 0, 0x01, 0, 0x18, 0, 0, 0, 0x05, 0] ++
      [0xC8, 0xF7, 0, 0, 0x01, 0, 0, 0x50]) with
    txPlen := 28, txSeq := 1, clientId := 0x42,
    hdr := { seq := 0, flags := 0x00004004, cksum := 0x218A1BF3, w3 := 0x00000042, w4 := 0x00000008 },
    txCipher := some (keyed 0x828E2147 0xE79A0CAC), rxCipher := some (keyed 0x2E27DAFC 0xF195EBB8) }

/-- P3 step 10. -/
theorem test_txframe_encrypted :
    (after .txframe p3Sender).res = 0x8DA987CD ∧ (after .txframe p3Sender).hdr.flags = 0x00004006 ∧
    (after .txframe p3Sender).txSeq = 2 ∧ (after .txframe p3Sender).txLen = 48 ∧
    (after .txframe p3Sender).lastTxEnc = true ∧
    ((after .txframe p3Sender).txCipher.map peek) = some 0xE79A0CAC ∧
    (after .txframe p3Sender).outgoing =
      [0x01, 0, 0, 0, 0x06, 0x40, 0, 0, 0xCD, 0x87, 0xA9, 0x8D, 0x42, 0, 0, 0, 0x1C, 0, 0, 0, 0, 0, 0, 0] ++
      [0x01, 0, 0, 0, 0x01, 0, 0, 0, 0x01, 0, 0x18, 0, 0, 0, 0x05, 0, 0xC8, 0xF7, 0, 0, 0x01, 0, 0, 0x50] := by
  decide +kernel

/-- The state of V-T1: an empty datagram, the encrypted flag requested, no cipher. -/
def vt1 : State := { State.reset with hdr := { seq := 0, flags := 0x00000002, cksum := 0, w3 := 0, w4 := 0 } }

/-- V-T1, V-T3, V-T4. -/
theorem test_txframe_cleartext :
    (after .txframe vt1).res = 0xBAF170DD ∧ (after .txframe vt1).hdr.flags = 0 ∧ (after .txframe vt1).txLen = 20 ∧
    (after .txframe { State.reset with txSeq := 0xFFFFFFFF }).res = 0xBAF170DC ∧
    (after .txframe { State.reset with txSeq := 0xFFFFFFFF }).txSeq = 0 ∧
    (after .txframe { State.reset with txPlen := 2, hdr := { vt1.hdr with flags := 0x00004000 } }).errInfo = 0x14 := by
  decide +kernel

/-- V-T6: TXFRAME with BUF_SIZE = 40 and TX_PLEN = 21. -/
theorem test_txframe_range :
    (finish State.reset (txframeBody { Config.chip with bufSize := 40 } { State.reset with txPlen := 21 })).errInfo
      = 0x15 := by decide +kernel

/-- The V-R3 datagram. -/
def vr3 : List Byte :=
  [0x05, 0x00, 0x00, 0x00, 0x00, 0x40, 0x00, 0x00, 0x2B, 0xB1, 0x30, 0xCD, 0x42, 0x00, 0x34, 0x12, 0x04, 0x00, 0x07,
   0x00, 0x03, 0x00, 0x00, 0x00]

/-- V-R3, V-R4, V-R5. -/
theorem test_rxframe_cleartext :
    (after .rxframe (received (vr3 ++ [0xEE, 0xEE]) 26)).res = 0xCD30B12B ∧
    (after .rxframe (received (vr3 ++ [0xEE, 0xEE]) 26)).lastRxSeq = 5 ∧
    (after .rxframe (received (vr3 ++ [0xEE, 0xEE]) 26)).hdr.w4 = 0x00070004 ∧
    (after .rxframe (received vr3 23)).errInfo = 0x17 ∧
    (after .rxframe (received (vr3.set 8 0x2A) 24)).err = 5 ∧
    (after .rxframe (received (vr3.set 8 0x2A) 24)).errInfo = 0xCD30B12B := by decide +kernel

/-- The state before P3 step 13. -/
def p3Receiver : State :=
  { received [0x01, 0, 0, 0, 0x02, 0x40, 0, 0, 0x23, 0x8C, 0x15, 0xE9, 0x42, 0, 0, 0, 0x04, 0, 0, 0, 0x01, 0, 0, 0] 24
    with txCipher := some (keyed 0xE79A0CAC 0), rxCipher := some (keyed 0x2E27DAFC 0xF195EBB8) }

/-- P3 steps 13 and 14, V-R2. -/
theorem test_rxframe_encrypted :
    (after .rxframe p3Receiver).res = 0xE9158C23 ∧ (after .rxframe p3Receiver).lastRxEnc = true ∧
    (after .rxframe (after .rxframe p3Receiver)).err = 5 ∧
    (after .rxframe (after .rxframe p3Receiver)).errInfo = 0xAC839CDF ∧
    (after .rxframe { p3Receiver with rxCipher := none }).err = 2 ∧
    (after .rxframe { p3Receiver with rxCipher := none, rxLen := 22 }).errInfo = 0x16 := by decide +kernel

/-- The V-S2 datagram. -/
def vs2 : List Byte :=
  [0x00, 0x00, 0x00, 0x00, 0x00, 0x40, 0x04, 0x00, 0x43, 0x66, 0x87, 0xE3, 0x00, 0x00, 0x00, 0x00, 0x24, 0x00, 0x00,
   0x00, 0x07, 0x00, 0x00, 0x00] ++
  [0x08, 0x07, 0x06, 0x05, 0x04, 0x03, 0x02, 0x01, 0x88, 0x77, 0x66, 0x55, 0x44, 0x33, 0x22, 0x11, 0x42, 0x00, 0xFF,
   0xFF, 0xDD, 0xCC, 0xBB, 0xAA, 0x44, 0x33, 0x22, 0x11, 0x00, 0x00, 0x00, 0x00]

/-- The "fields do not fit" datagram of V-S3. -/
def vs3Short : List Byte := [0, 0, 0, 0, 0, 0, 0x04, 0, 0, 0, 0, 0, 0, 0, 0, 0, 20, 0, 0, 0] ++ List.replicate 20 0

/-- V-S2: the fields after an ack section. -/
theorem test_craccept :
    (after .craccept (received vs2 56)).cr =
      { timeLo := 0x05060708, timeHi := 0x01020304, cookieLo := 0x55667788, cookieHi := 0x11223344,
        cid := 0xFFFF0042, serverSeed := 0xAABBCCDD, clientSeed := 0x11223344 } ∧
    (after .craccept (received vs2 56)).clientId = 0x0042 ∧
    (after .craccept (received vs2 56)).txCipher.isSome = true ∧
    (after .craccept (received vs2 56)).rxCipher.isSome = true := by decide +kernel

/-- V-S3. -/
theorem test_craccept_errors :
    (after .craccept (received vr3 24)).err = 7 ∧ (after .craccept (received vr3 24)).errInfo = 0x00040000 ∧
    (after .craccept (received vs3Short 40)).errInfo = 0x14 ∧
    (after .craccept (received vs3Short 30)).errInfo = 0x1E ∧
    (after .craccept { received vs2 56 with txCipher := some (keyed 1 2) }).err = 3 := by decide +kernel

/-! ### The register map (R17) and buffer reads (R45, U1) -/

/-- A state whose registers all hold different values. -/
def distinct : State :=
  { State.reset with
    arg0 := 0x101, arg1 := 0x102, arg2 := 0x103, res := 0x104, errInfo := 0x105, errSticky := 0x0106, txSeq := 0x107,
    lastRxSeq := 0x108, clientId := 0x0109, txPlen := 0x010A, txLen := 0x10B, rxLen := 0x10C,
    hdr := { seq := 0x10D, flags := 0x10E, cksum := 0x10F, w3 := 0x110, w4 := 0x111 },
    frg := { seq := 0x112, id := 0x113, w2 := 0x114, w3 := 0x115 },
    cr := { timeLo := 0x116, timeHi := 0x117, cookieLo := 0x118, cookieHi := 0x119, cid := 0x11A, serverSeed := 0x11B,
            clientSeed := 0x11C } }

/-- R17, column "name", from ARG0 at 0x08 on. -/
theorem test_register_map_reads :
    ([0x08, 0x0C, 0x10, 0x14, 0x18, 0x1C, 0x20, 0x24, 0x28, 0x2C, 0x30, 0x34, 0x38, 0x3C, 0x40, 0x44, 0x48, 0x4C, 0x50,
      0x54, 0x58, 0x5C, 0x60, 0x64, 0x68, 0x6C, 0x70, 0x74].map distinct.readOffset) =
    [0x101, 0x102, 0x103, 0x104, 0x105, 0x106, 0x107, 0x108, 0x109, 0x10A, 0x10B, 0x10C, 0x10D, 0x10E, 0x10F, 0x110,
     0x111, 0x112, 0x113, 0x114, 0x115, 0x116, 0x117, 0x118, 0x119, 0x11A, 0x11B, 0x11C] := by decide

/-- R17: the writable operand registers. -/
theorem test_register_map_writes :
    (stepped (event (.regWrite 0x0C 4 9))).arg1 = 9 ∧ (stepped (event (.regWrite 0x10 4 9))).arg2 = 9 ∧
    (stepped (event (.regWrite 0x14 4 9))).res = 0 ∧ (stepped (event (.regWrite 0x40 4 9))).hdr.cksum = 9 ∧
    (stepped (event (.regWrite 0x58 4 9))).frg.w3 = 9 := by decide

/-- R40, U1: SRESET draws nothing new, a reset does. -/
theorem test_draws :
    (after .sreset State.reset).draws = State.reset.draws ∧
    (stepped (event .reset)).draws ≠ State.reset.draws := by decide

/-! ### Witnesses: states and operands that meet the hypotheses of the obligations, a clause at a time -/

theorem witness_WordsOutsideTheMapRaiseIllegalCmd :
    ((0x00000004 : Word).extractLsb' 0 8 = 0x04 ∧ decodeWord 0x00000004 ≠ .ok .nop) ∧
    ((0x0000013F : Word).extractLsb' 0 8 = 0x3F ∧ (0x0000013F : Word).extractLsb' 8 1 = 1) ∧
    ((0x00000031 : Word).extractLsb' 0 8 = 0x31 ∧ (0x00000031 : Word).extractLsb' 8 1 = 0) ∧
    (0x80000000 : Word).extractLsb' 9 23 ≠ 0 ∧ (0x00000200 : Word).extractLsb' 9 23 ≠ 0 := by decide

theorem witness_StepRunsTheDecodedCommand :
    decodeWord 0x0000003F = .ok .sreset ∧
    (event (.regWrite 0x00 4 0x0000003F)).pending = [.regWrite 0x00 4 0x0000003F] ∧ State.reset.pending = [] := by
  decide

/-- The offset of every writable register, read-only ones, the first and the last reserved one. -/
theorem witness_HostWriteStoresOnlyItsRegister :
    ∀ off ∈ [0x04, 0x08, 0x0C, 0x10, 0x14, 0x28, 0x2C, 0x34, 0x38, 0x3C, 0x40, 0x44, 0x48, 0x4C, 0x50, 0x54, 0x58, 0x5C,
        0x78, 0xFC],
      (event (.regWrite off 4 0x00010014)).pending = [.regWrite off 4 0x00010014] ∧ off % 4 = 0 ∧ off < 256 ∧ off ≠ 0 := by
  decide

theorem witness_HostReadReturnsRegisterUnchanged :
    ∀ off ∈ [0x00, 0x04, 0x74, 0x78, 0xFC],
      (event (.regRead off 4)).pending = [.regRead off 4] ∧ off % 4 = 0 ∧ off < 256 := by decide

theorem witness_AccessesOutsideTheInterfaceStop :
    (event (.regWrite 0x08 2 5)).pending = [.regWrite 0x08 2 5] ∧ (event (.regRead 0x02 4)).pending = [.regRead 0x02 4] ∧
    (event (.regWrite 256 4 5)).pending = [.regWrite 256 4 5] ∧ (event (.regRead 256 4)).pending = [.regRead 256 4] ∧
    (event (.bufWrite .tx 65555 1)).pending = [.bufWrite .tx 65555 1] ∧
    (event (.bufRead .rx 65555)).pending = [.bufRead .rx 65555] ∧ (event .concurrent).pending = [.concurrent] := by
  decide

theorem witness_HostBufferWriteStoresOneByte :
    (event (.bufWrite .rx 65554 0xAB)).pending = [.bufWrite .rx 65554 0xAB] ∧ 65554 < 65555 := by decide

theorem witness_HostBufferReadReturnsTheByte :
    (event (.bufRead .tx 65554)).pending = [.bufRead .tx 65554] ∧ 65554 < 65555 ∧
    ({ State.reset with pending := [.bufRead .tx 65554, .bufRead .tx 65554] } : State).pending =
      .bufRead .tx 65554 :: .bufRead .tx 65554 :: [] ∧
    Memory.get ((holding .tx 65554 [7]).buf .tx) 65554 = some 7 ∧ Memory.get (State.reset.buf .tx) 65554 = none := by
  decide +kernel

/-- The premise of both statements about legal accesses. -/
theorem witness_LegalAccessesNeverStopTheBlock :
    ({ State.reset with
       pending := [.regWrite 0xFC 4 1, .regRead 0x00 4, .bufWrite .tx 65554 1, .bufRead .rx 0, .reset] }
      : State).legalInput = true := by decide

theorem witness_LegalRunsReachTheirEndState :
    ({ State.reset with pending := wr 0x08 0 ++ issueStmt .cinitTx ++ cnext .tx } : State).legalInput = true := by decide

/-- A command that fails, for the statements about failed commands. -/
theorem witness_FailedCommandsChangeOnlyErrorRegisters :
    exec .cpeekTx State.reset = .next (after .cpeekTx State.reset) ∧ (after .cpeekTx State.reset).err ≠ 0 :=
  ⟨exec_after _ _, by decide +kernel⟩

/-- A command that succeeds, one that fails, and SRESET. -/
theorem witness_ErrorRegistersFollowTheLastCommand :
    (exec .nop State.reset = .next (after .nop State.reset) ∧ (after .nop State.reset).err = 0) ∧
    (exec .cadvRx State.reset = .next (after .cadvRx State.reset) ∧ (after .cadvRx State.reset).err ≠ 0) ∧
    exec .sreset State.reset = .next (after .sreset State.reset) ∧ (after .sreset State.reset).err = 0 :=
  ⟨⟨exec_after _ _, by decide +kernel⟩, ⟨exec_after _ _, by decide +kernel⟩, exec_after _ _, by decide +kernel⟩

/-- Every command answers a next state, so `exec i s = .next t` is met by every command in every state. -/
theorem witness_EachCommandRaisesOnlyItsErrors (i : Instr) : exec i State.reset = .next (after i State.reset) :=
  exec_after i State.reset

theorem witness_HardwiredBitsReadZero : 1 ≤ 1 ∧ 15 < 16 := by decide

/-- The invariant holds of a state with a pending event, and that state steps. -/
theorem witness_InvariantKeptByEveryStep :
    (event (.bufWrite .tx 65554 1)).Inv ∧
    step (event (.bufWrite .tx 65554 1)) = .next ((event (.bufWrite .tx 65554 1)).taken [] |>.memWrite .tx 65554 [1]) := by
  refine ⟨?_, rfl⟩
  constructor <;> simp [event, State.reset, State.resetWith] <;> decide

theorem witness_RegistersChangeOnlyByTheirCommands :
    exec .txframe vt1 = .next (after .txframe vt1) ∧ Instr.txframe ≠ .sreset ∧ Instr.txframe ≠ .rxframe ∧
    Instr.txframe ≠ .craccept ∧ Instr.txframe ∉ [Instr.funpackTx, .funpackRx] ∧
    exec .hpackTx vt1 = .next (after .hpackTx vt1) ∧ Instr.hpackTx ∉ [Instr.hunpackTx, .hunpackRx, .txframe, .rxframe] :=
  ⟨exec_after _ _, by decide, by decide, by decide, by decide, exec_after _ _, by decide⟩

theorem witness_BuffersChangeOnlyByTheirWriters :
    exec .fpackTx { State.reset with arg0 := 65539 } = .next (after .fpackTx { State.reset with arg0 := 65539 }) :=
  exec_after _ _

theorem witness_CiphersChangeOnlyByTheirCommands :
    exec .cadvTx { State.reset with txCipher := some (keyed 1 2) } =
      .next (after .cadvTx { State.reset with txCipher := some (keyed 1 2) }) := exec_after _ _

/-- A TXFRAME that succeeds, one that fails, another command, SRESET, a pending reset and a host write to TX_SEQ. -/
theorem witness_TxSeqCountsSuccessfulDatagrams :
    (exec .txframe vt1 = .next (after .txframe vt1) ∧ (after .txframe vt1).err = 0) ∧
    (let s : State := { vt1 with txPlen := 2, hdr := { vt1.hdr with flags := 0x00004000 } }
     exec .txframe s = .next (after .txframe s) ∧ (after .txframe s).err ≠ 0) ∧
    exec .nop vt1 = .next (after .nop vt1) ∧ exec .sreset vt1 = .next (after .sreset vt1) ∧
    (∃ t, step (event .reset) = .next t) ∧ ∃ t, step (event (.regWrite 0x20 4 9)) = .next t :=
  ⟨⟨exec_after _ _, by decide +kernel⟩, ⟨exec_after _ _, by decide +kernel⟩, exec_after _ _, exec_after _ _,
   ⟨_, rfl⟩, ⟨_, rfl⟩⟩

/-- The instances the cipher statements speak of: absent, present, at its last key. -/
theorem witness_CinitSeedsAnAbsentInstance :
    State.reset.txCipher = none ∧ State.reset.rxCipher = none ∧ p3Sender.txCipher = some (keyed 0x828E2147 0xE79A0CAC) ∧
    p3Sender.rxCipher = some (keyed 0x2E27DAFC 0xF195EBB8) := ⟨rfl, rfl, rfl, rfl⟩

theorem witness_CpeekReadsTheCurrentKey :
    State.reset.txCipher = none ∧ State.reset.rxCipher = none ∧ p3Sender.txCipher = some (keyed 0x828E2147 0xE79A0CAC) ∧
    p3Sender.rxCipher = some (keyed 0x2E27DAFC 0xF195EBB8) := ⟨rfl, rfl, rfl, rfl⟩

theorem witness_CadvConsumesOneKey :
    p3Sender.txCipher = some (keyed 0x828E2147 0xE79A0CAC) ∧ 0 < (keyed 0x828E2147 0xE79A0CAC).idx.val ∧
    ({ p3Sender with rxCipher := some (atLastKey 7) } : State).rxCipher = some (atLastKey 7) ∧
    (atLastKey 7).idx.val = 0 ∧ State.reset.txCipher = none ∧ State.reset.rxCipher = none :=
  ⟨rfl, by decide, rfl, rfl, rfl, rfl⟩

theorem witness_KeyNumbersFollowTheBlocks :
    0 < (keyed 0x828E2147 0xE79A0CAC).idx.val ∧ (atLastKey 7).idx.val = 0 := by decide

theorem witness_CnextTakesAndConsumesTheKey :
    ({ p3Sender with pending := cnext .rx ++ wr 0x08 1 } : State).cipher .rx = some (keyed 0x2E27DAFC 0xF195EBB8) ∧
    ({ p3Sender with pending := cnext .rx ++ wr 0x08 1 } : State).pending = cnext .rx ++ wr 0x08 1 := ⟨rfl, rfl⟩

theorem witness_PseudoInstructionsReachTheirOperands :
    ({ State.reset with pending := cinitSeed .rx 7 ++ wr 0x08 1 } : State).pending = cinitSeed .rx 7 ++ wr 0x08 1 ∧
    ({ State.reset with pending := fpackAt .tx 20 ++ [] } : State).pending = fpackAt .tx 20 ++ [] ∧
    ({ State.reset with pending := funpackAt .rx 20 ++ [] } : State).pending = funpackAt .rx 20 ++ [] ∧
    ({ State.reset with pending := hash32Range .tx 20 4 ++ [] } : State).pending = hash32Range .tx 20 4 ++ [] ∧
    ({ State.reset with pending := payhashRange .tx 4 20 16 ++ [] } : State).pending = payhashRange .tx 4 20 16 ++ [] :=
  ⟨rfl, rfl, rfl, rfl, rfl⟩

/-- A range that ends at the last byte of the buffer, its bytes, and addresses on both sides of a range. -/
theorem witness_WbWritesConsecutiveBytes :
    ({ State.reset with pending := wb .rx 65552 [1, 2, 3] ++ [.reset] } : State).pending =
      wb .rx 65552 [1, 2, 3] ++ [.reset] ∧ 65552 + [1, 2, 3].length ≤ 65555 ∧ 2 < [1, 2, 3].length ∧
    (Dir.tx ≠ .rx ∨ 65552 < 65552 ∨ 65552 + [1, 2, 3].length ≤ 65552) ∧
    (Dir.rx ≠ .rx ∨ 65551 < 65552 ∨ 65552 + [1, 2, 3].length ≤ 65551) := ⟨rfl, by decide, by decide, by decide, by decide⟩

/-- The byte numbers of the header statements, and the addresses outside the header. -/
theorem witness_HpackWritesTheHeaderBytes : 3 < 4 ∧ (Dir.rx ≠ .tx ∨ 20 ≤ 0) ∧ (Dir.tx ≠ .tx ∨ 20 ≤ 20) := by decide

theorem witness_HunpackReadsTheHeaderBytes : 0 < 4 ∧ 3 < 4 := by decide

theorem witness_HeaderRoundTrips :
    let s : State := { State.reset with hdr := vh1 }
    let r := holding .rx 0 vh1Bytes
    (exec (forDir .tx .hpackTx .hpackRx) s = .next (after .hpackTx s) ∧
      exec (forDir .tx .hunpackTx .hunpackRx) (after .hpackTx s) = .next (after .hunpackTx (after .hpackTx s))) ∧
    exec (forDir .rx .hunpackTx .hunpackRx) r = .next (after .hunpackRx r) ∧
      exec (forDir .rx .hpackTx .hpackRx) (after .hunpackRx r) = .next (after .hpackRx (after .hunpackRx r)) :=
  ⟨⟨exec_after _ _, exec_after _ _⟩, exec_after _ _, exec_after _ _⟩

/-- The last address that holds a fragment header, and the first that does not. -/
theorem witness_FpackWritesTheFragmentHeader :
    ({ State.reset with arg0 := 65539 } : State).arg0.toNat + 16 ≤ 65555 ∧
    65555 < ({ State.reset with arg0 := 65540 } : State).arg0.toNat + 16 ∧
    65555 < ({ State.reset with arg0 := 0xFFFFFFFF } : State).arg0.toNat + 16 := by decide

theorem witness_FunpackReadsTheFragmentHeader :
    ({ State.reset with arg0 := 65539 } : State).arg0.toNat + 16 ≤ 65555 ∧
    65555 < ({ State.reset with arg0 := 65540 } : State).arg0.toNat + 16 := by decide

theorem witness_FragmentHeaderRoundTrips :
    let s : State := { State.reset with frg := vh3, arg0 := 65539 }
    exec (forDir .tx .fpackTx .fpackRx) s = .next (after .fpackTx s) ∧
      exec (forDir .tx .funpackTx .funpackRx) (after .fpackTx s) = .next (after .funpackTx (after .fpackTx s)) :=
  ⟨exec_after _ _, exec_after _ _⟩

theorem witness_Hash32HashesTheRange :
    ({ State.reset with arg0 := 65555, arg1 := 0 } : State).arg0.toNat + (0 : Word).toNat ≤ 65555 ∧
    65555 < ({ State.reset with arg0 := 65555, arg1 := 1 } : State).arg0.toNat + (1 : Word).toNat := by decide

theorem witness_Hash32IsAdditiveOverWholeWords :
    ([1, 2, 3, 4] : List Byte).length % 4 = 0 ∧ (List.replicate 65536 (0 : Byte)).length = 65536 ∧ 1 % 4 ≠ 0 ∧
    3 % 4 ≠ 0 := ⟨rfl, List.length_replicate, by decide, by decide⟩

theorem witness_HeaderHashHasItsClosedForm : vh1Bytes.length = 20 := rfl

/-- The walk of V-W11: two sections in order. -/
theorem witness_SectionsLieInOrderInsideThePayload :
    walk Config.chip 0x08000004 ((holding .tx 20 ([1, 2, 3, 4, 5, 6] ++ vw8)).byteAt .tx) 20 22 =
      .ok [⟨20, 6⟩, ⟨26, 16⟩] := by decide +kernel

/-- V-W16: an unknown bit, and a reader that differs outside the payload. -/
theorem witness_UntestedFlagsAndOuterBytesDoNotMatter :
    (0x00024000 : Word) &&& 0x0F4D7104 = 0x00004000 &&& 0x0F4D7104 ∧
    ∀ x, 20 ≤ x → x < 20 + 4 → (fun _ => 0 : Nat → Byte) x = (fun x => if x < 20 then 9 else 0 : Nat → Byte) x :=
  ⟨by decide, fun x hx _ => (if_neg (by omega)).symm⟩

/-- V-W14: eight sections, no fragments. -/
theorem witness_SectionHashesSumToTheRegionHash :
    (0x0F484100 : Word) &&& 0x00000004 = 0 ∧
    walk Config.chip 0x0F484100 (fun x => BitVec.ofNat 8 (x - 19)) 20 54 =
      .ok [⟨20, 8⟩, ⟨28, 4⟩, ⟨32, 8⟩, ⟨40, 8⟩, ⟨48, 8⟩, ⟨56, 4⟩, ⟨60, 8⟩, ⟨68, 6⟩] := by decide +kernel

/-- V-P1, V-W12 and V-P2. -/
theorem witness_PayhashSumsTheSelectedSections :
    walkPseudocode Config.chip 0x00004000 ((holding .tx 20 [0, 0, 0, 0]).byteAt .tx) 20 4 = .ok [⟨20, 4⟩] ∧
    walkPseudocode Config.chip 0x00004000 ((holding .tx 20 [0, 0, 0]).byteAt .tx) 20 3 = .error 20 ∧
    (65535 : Word).toNat + (20 : Word).toNat ≤ 65555 ∧ 65555 < (65550 : Word).toNat + (10 : Word).toNat := by
  decide +kernel

/-- P3 step 10 (encrypted) and V-T1 (cleartext). -/
theorem witness_TxframeBuildsTheDatagram :
    (((true : Bool) = true ↔ p3Sender.txCipher.isSome = true ∧ p3Sender.rxCipher.isSome = true ∧
        p3Sender.hdr.flags &&& 0x000D0000 = 0) ∧
      (0x00004006 : Word) = (if true then p3Sender.hdr.flags ||| 0x00000002 else p3Sender.hdr.flags &&& ~~~0x00000002) ∧
      walkPseudocode Config.chip 0x00004006 (p3Sender.byteAt .tx) 20 p3Sender.txPlen.toNat =
        .ok [⟨20, 4⟩, ⟨24, 24⟩]) ∧
    ((false : Bool) = true ↔ vt1.txCipher.isSome = true ∧ vt1.rxCipher.isSome = true ∧
        vt1.hdr.flags &&& 0x000D0000 = 0) ∧
    (0 : Word) = (if false then vt1.hdr.flags ||| 0x00000002 else vt1.hdr.flags &&& ~~~0x00000002) ∧
    walkPseudocode Config.chip 0 (vt1.byteAt .tx) 20 vt1.txPlen.toNat = .ok [] := by decide +kernel

/-- V-T3 and V-T6. -/
theorem witness_TxframeErrorsLeaveTheSession :
    (let s : State := { State.reset with txPlen := 2, hdr := { vt1.hdr with flags := 0x00004000 } }
     ((false : Bool) = true ↔ s.txCipher.isSome = true ∧ s.rxCipher.isSome = true ∧ s.hdr.flags &&& 0x000D0000 = 0) ∧
     (0x00004000 : Word) = (if false then s.hdr.flags ||| 0x00000002 else s.hdr.flags &&& ~~~0x00000002) ∧
     walkPseudocode Config.chip 0x00004000 (s.byteAt .tx) 20 s.txPlen.toNat = .error 20) ∧
    { Config.chip with bufSize := 40 }.wf = true ∧ 40 < 20 + ({ State.reset with txPlen := 21 } : State).txPlen.toNat := by
  decide +kernel

/-- The cases of RXFRAME in its order: V-R1, V-R4, a payload without its section, V-R2, V-R5, V-R3 and P3 step 13. -/
theorem witness_RxframeDecidesInOrder :
    (received vr3 19).rxLen.toNat < 20 ∧
    ((received vr3 23).rxLen.toNat < 20 + (hdrSize (readHeader ((received vr3 23).byteAt .rx) 0)).toNat) ∧
    (20 + 4 ≤ (received vr3 24).rxLen.toNat ∧ (hdrSize (readHeader ((received vr3 24).byteAt .rx) 0)).toNat = 4) ∧
    walkPseudocode Config.chip (readHeader ((received vs3Short 40).byteAt .rx) 0).flags
      ((received vs3Short 40).byteAt .rx) 20 20 = .error 20 ∧
    walkPseudocode Config.chip (readHeader (p3Receiver.byteAt .rx) 0).flags (p3Receiver.byteAt .rx) 20 4 =
      .ok [⟨20, 4⟩] ∧
    ((readHeader (p3Receiver.byteAt .rx) 0).flags &&& 0x00000002 != 0) = true ∧
    ({ p3Receiver with rxCipher := none } : State).rxCipher = none ∧
    (0x00140000 + (readHeader (p3Receiver.byteAt .rx) 0).seq + (readHeader (p3Receiver.byteAt .rx) 0).flags + 0xBADD70DD
      + (readHeader (p3Receiver.byteAt .rx) 0).w3 + (readHeader (p3Receiver.byteAt .rx) 0).w4)
      + (sectionHashSum (p3Receiver.byteAt .rx) [⟨20, 4⟩] ^^^ peek (keyed 0x2E27DAFC 0xF195EBB8)) =
        (readHeader (p3Receiver.byteAt .rx) 0).cksum ∧
    ((readHeader ((received vr3 24).byteAt .rx) 0).flags &&& 0x00000002 != 0) = false ∧
    (readHeader ((received vr3 24).byteAt .rx) 0).cksum = 0xCD30B12B ∧
    (readHeader ((received (vr3.set 8 0x2A) 24).byteAt .rx) 0).cksum ≠ 0xCD30B12B := by decide +kernel

/-- The cases of CRACCEPT in its order (V-S3, V-S2), and the last size that holds the 28 field bytes. -/
theorem witness_CracceptDecidesInOrder :
    (received vs2 19).rxLen.toNat < 20 ∧ (received vs2 55).rxLen.toNat < 20 + 36 ∧
    (readLe16 ((received vs2 56).byteAt .rx) 16).toNat = 36 ∧ 20 + 36 ≤ (received vs2 56).rxLen.toNat ∧
    readLe32 ((received vr3 24).byteAt .rx) 4 &&& 0x00040000 = 0 ∧
    readLe32 ((received vs2 56).byteAt .rx) 4 &&& 0x00040000 ≠ 0 ∧
    walkPseudocode Config.chip (0x00044000 &&& 0x00007100) (fun _ => 0) 20 3 = .error 20 ∧
    walkPseudocode Config.chip (readLe32 ((received vs2 56).byteAt .rx) 4 &&& 0x00007100)
      ((received vs2 56).byteAt .rx) 20 36 = .ok [⟨20, 4⟩] ∧
    24 = 20 + totalLength [⟨20, 4⟩] ∧ 20 + 31 < 24 + 28 ∧ 24 + 28 ≤ 20 + 32 ∧
    p3Sender.txCipher.isSome = true ∧ ({ p3Sender with txCipher := none } : State).rxCipher.isSome = true ∧
    (received vs2 56).txCipher = none ∧ (received vs2 56).rxCipher = none := by decide +kernel

/-- The peer of `p3Sender`: what it sent stands in RXBUF, and the RX cipher where its TX cipher stood. -/
def p3Peer : State :=
  { received (after .txframe p3Sender).outgoing 48 with rxCipher := some (keyed 0x828E2147 0xE79A0CAC) }

theorem witness_BuiltDatagramsAreAcceptedByThePeer :
    exec .txframe p3Sender = .next (after .txframe p3Sender) ∧ (after .txframe p3Sender).err = 0 ∧
    p3Peer.rxLen = (after .txframe p3Sender).txLen ∧
    (∀ a, a < (after .txframe p3Sender).txLen.toNat → p3Peer.byteAt .rx a = (after .txframe p3Sender).byteAt .tx a) ∧
    ((after .txframe p3Sender).lastTxEnc = true → p3Peer.rxCipher = p3Sender.txCipher) :=
  ⟨exec_after _ _, by decide +kernel, by decide +kernel, by decide +kernel, fun _ => rfl⟩

theorem witness_ReplayedEncryptedDatagramIsRejected :
    p3Receiver.rxCipher = some (keyed 0x2E27DAFC 0xF195EBB8) ∧
    peek (advance (keyed 0x2E27DAFC 0xF195EBB8)) ≠ peek (keyed 0x2E27DAFC 0xF195EBB8) ∧
    exec .rxframe p3Receiver = .next (after .rxframe p3Receiver) ∧ (after .rxframe p3Receiver).err = 0 ∧
    (after .rxframe p3Receiver).lastRxEnc = true :=
  ⟨rfl, by decide +kernel, exec_after _ _, by decide +kernel, by decide +kernel⟩

theorem witness_SurplusBytesDoNotInfluenceRxframe :
    let s := received vr3 24
    let m := (received (vr3 ++ [0xEE, 0xEE]) 26).rxBuf
    (readLe16 (s.byteAt .rx) 16).toNat = 4 ∧ 20 + 4 ≤ s.rxLen.toNat ∧ 20 + 4 ≤ (26 : Word).toNat ∧
    (∀ a, a < 20 + 4 → ({ s with rxBuf := m } : State).byteAt .rx a = s.byteAt .rx a) ∧
    exec .rxframe s = .next (after .rxframe s) :=
  ⟨by decide +kernel, by decide +kernel, by decide, by decide +kernel, exec_after _ _⟩

theorem witness_TxframeIgnoresTheHostsOtherHeaderFields :
    exec .txframe p3Sender = .next (after .txframe p3Sender) ∧ (after .txframe p3Sender).err = 0 :=
  ⟨exec_after _ _, by decide +kernel⟩

theorem witness_ResetGivesEveryRegisterItsValue : (event .reset).pending = [.reset] := rfl

/-- The last bad and the first good value of each parameter. -/
theorem witness_ConfigurationsThatBreakAConstraintAreRefused :
    { Config.chip with bufSize := 19 }.bufSize < 20 ∧ { Config.chip with crLen := 27 }.crLen < 28 ∧
    ({ Config.chip with echoRespLen := 6 }.echoRespLen ≠ 4 ∧ { Config.chip with echoRespLen := 6 }.echoRespLen ≠ 8) ∧
    20 ≤ { Config.chip with bufSize := 20 }.bufSize ∧ 28 ≤ { Config.chip with crLen := 28 }.crLen ∧
    ({ Config.chip with echoRespLen := 4 }.echoRespLen = 4 ∨ { Config.chip with echoRespLen := 4 }.echoRespLen = 8) := by
  decide

end Sys2Proof.Tests
end

section
/-! PROOFS. The configuration check of R8: what `Config.wf` says of the parameters, and how `runCommand` answers on each
side of it. -/
namespace Sys2Proof

/-- The constraints of R8, as the check reads them. -/
theorem Config.wf_iff (cfg : Config) :
    cfg.wf = true ↔ 20 ≤ cfg.bufSize ∧ 28 ≤ cfg.crLen ∧ (cfg.echoRespLen = 4 ∨ cfg.echoRespLen = 8) := by
  simp [Config.wf, Config.bufSizeOk, Config.crLenOk, Config.echoRespLenOk, and_assoc]

namespace Machine

theorem runCommand_of_wf {cfg : Config} (h : cfg.wf = true) (body : Body) (s : State) :
    runCommand cfg body s = .next (finish s (body s)) := if_pos h

theorem runCommand_of_not_wf {cfg : Config} (h : ¬ cfg.wf = true) (body : Body) (s : State) :
    runCommand cfg body s = .refused .badConfiguration := if_neg h

/-- Settles O59: a broken constraint contradicts its conjunct of `Config.wf_iff`, so the command is refused; the three
constraints together are `Config.wf_iff`, so the command runs to its end. -/
theorem configurationsThatBreakAConstraintAreRefused :
    Obligations.ConfigurationsThatBreakAConstraintAreRefused := by
  intro cfg body s
  refine ⟨fun hbroken => ?refused, fun hbuf hcr hecho => ?runs, chip_wf⟩
  case refused =>
    refine runCommand_of_not_wf (fun hwf => ?_) body s
    obtain ⟨hbuf, hcr, hecho⟩ := cfg.wf_iff.mp hwf
    omega
  case runs =>
    exact ⟨_, runCommand_of_wf (cfg.wf_iff.mpr ⟨hbuf, hcr, hecho⟩) body s⟩

end Machine
end Sys2Proof
end

section
/-! PROOFS. What a command does to the block, said once as one of eleven effects (R44, R100): every statement about which
command changes what is a case distinction over these, not over the 25 commands. -/
namespace Sys2Proof.Machine

/-- The commands whose own rule writes RES and nothing else (R73, R82, R83, R91). -/
def resultCommands : List Instr :=
  [.cpeekTx, .cpeekRx, .hash32Tx, .hash32Rx, .hdrhashTx, .hdrhashRx, .payhashTx, .payhashRx]

/-- What the command `i` that succeeds in the state `s` leaves, by the part of the state it replaces. The two
directions of a command share one case, and so do the commands that only write RES, or only a buffer. -/
inductive Effect (s : State) : Instr → State → Prop
  | none : Effect s .nop s
  | seed (d : Dir) (absent : s.cipher d = .none) :
      Effect s (forDir d .cinitTx .cinitRx) (s.setCipher d (some (isaacInit s.arg0)))
  | consume (d : Dir) (c : Cipher) (present : s.cipher d = some c) :
      Effect s (forDir d .cadvTx .cadvRx) (s.setCipher d (some (advance c)))
  | result (i : Instr) (w : Word) (hi : i ∈ resultCommands) : Effect s i (s.setRes w)
  | bytes (i : Instr) (d : Dir) (a : Nat) (bs : List Byte) (hi : i ∈ [Instr.hpackTx, .hpackRx, .fpackTx, .fpackRx])
      (fits : a + bs.length ≤ Config.chip.bufSize) : Effect s i (s.memWrite d a bs)
  | header (d : Dir) (h : HeaderRegs) : Effect s (forDir d .hunpackTx .hunpackRx) (s.setHdr h)
  | fragment (d : Dir) (g : FragmentRegs) : Effect s (forDir d .funpackTx .funpackRx) (s.setFrg g)
  | connect (cr : ConnectRegs) (txAbsent : s.txCipher = .none) (rxAbsent : s.rxCipher = .none) :
      Effect s .craccept (crCommit Config.chip s cr)
  | transmit (ck : Word) : Effect s .txframe (txCommit Config.chip s ck)
  | receive (h : HeaderRegs) (keyed : encRx Config.chip h.flags = true → s.rxCipher.isSome = true) :
      Effect s .rxframe (rxCommit Config.chip s h)
  | clear : Effect s .sreset (s.cleared Config.chip)

/-- Every command's rule (`Leaves`) is one of the effects. -/
theorem effect_of_leaves {i : Instr} {s u : State} (h : Leaves i s u) : Effect s i u := by
  cases i <;> simp only [Leaves] at h
  case nop => exact h ▸ .none
  case cinitTx => obtain ⟨absent, rfl⟩ := h; exact .seed .tx absent
  case cinitRx => obtain ⟨absent, rfl⟩ := h; exact .seed .rx absent
  case cpeekTx => obtain ⟨c, -, rfl⟩ := h; exact .result _ _ (by decide)
  case cpeekRx => obtain ⟨c, -, rfl⟩ := h; exact .result _ _ (by decide)
  case cadvTx => obtain ⟨c, present, rfl⟩ := h; exact .consume .tx c present
  case cadvRx => obtain ⟨c, present, rfl⟩ := h; exact .consume .rx c present
  case hpackTx => exact h ▸ .bytes _ .tx 0 _ (by decide) (by simp)
  case hpackRx => exact h ▸ .bytes _ .rx 0 _ (by decide) (by simp)
  case hunpackTx => exact h ▸ .header .tx _
  case hunpackRx => exact h ▸ .header .rx _
  case fpackTx => obtain ⟨fits, rfl⟩ := h; exact .bytes _ .tx _ _ (by decide) fits
  case fpackRx => obtain ⟨fits, rfl⟩ := h; exact .bytes _ .rx _ _ (by decide) fits
  case funpackTx => obtain ⟨-, rfl⟩ := h; exact .fragment .tx _
  case funpackRx => obtain ⟨-, rfl⟩ := h; exact .fragment .rx _
  case hash32Tx => obtain ⟨-, rfl⟩ := h; exact .result _ _ (by decide)
  case hash32Rx => obtain ⟨-, rfl⟩ := h; exact .result _ _ (by decide)
  case hdrhashTx => exact h ▸ .result _ _ (by decide)
  case hdrhashRx => exact h ▸ .result _ _ (by decide)
  case payhashTx => obtain ⟨-, secs, -, rfl⟩ := h; exact .result _ _ (by decide)
  case payhashRx => obtain ⟨-, secs, -, rfl⟩ := h; exact .result _ _ (by decide)
  case craccept => obtain ⟨txAbsent, rxAbsent, secs, -, rfl⟩ := h; exact .connect _ txAbsent rxAbsent
  case txframe => obtain ⟨secs, -, rfl⟩ := h; exact .transmit _
  case rxframe => obtain ⟨-, secs, -, keyed, -, rfl⟩ := h; exact .receive _ keyed
  case sreset => exact h ▸ .clear

/-- A command has its effect and reports success, or it raises an error (R100, R101). -/
theorem exec_effect {i : Instr} {s t : State} (h : exec i s = .next t) :
    (∃ u, Effect s i u ∧ t = u.succeed) ∨ ∃ e, t = s.raise e := by
  rcases exec_leaves h with ⟨u, hu, rfl⟩ | ⟨e, -, rfl⟩
  · exact .inl ⟨u, effect_of_leaves hu, rfl⟩
  · exact .inr ⟨e, rfl⟩

/-- `if enc: Advance(C_d)` leaves the cipher or advances a present one (R92, R93). -/
theorem advanceFor_cases (cfg : Config) (enc : Bool) (c : Option Cipher) :
    advanceFor cfg enc c = c ∨ ∃ x, c = some x ∧ advanceFor cfg enc c = some (cfg.isaac.advance x) := by
  cases enc with
  | false => exact .inl rfl
  | true =>
    cases c with
    | none => exact .inl rfl
    | some x => exact .inr ⟨x, rfl, rfl⟩

@[simp] theorem advanceFor_isSome (cfg : Config) (enc : Bool) (c : Option Cipher) :
    (advanceFor cfg enc c).isSome = c.isSome := by
  cases enc <;> cases c <;> rfl

/-- A checksum is encrypted on transmit only with both ciphers present (R90). -/
theorem present_of_encTx {cfg : Config} {s : State} {f : Word} (h : encTx cfg s f = true) :
    s.txCipher.isSome = true ∧ s.rxCipher.isSome = true := by
  simp only [encTx, State.encActive, State.txcPresent, State.rxcPresent, Bool.and_eq_true] at h
  exact h.1

end Sys2Proof.Machine
end

section
/-! PROOFS. The invariant of the block's state (R19 to R27, R32, R37, R99): each update of the state keeps it, so each
command's effect and each host event keeps it, and so does every step. -/
namespace Sys2Proof.Machine

/-! ### What one event of the host does -/

/-- A host event that answers a next state runs a command, raises ILLEGAL_CMD, stores in the register window, hands a
value over, stores a byte inside a buffer, or resets the block (R17, R45, R48, R54, R110). -/
theorem takeEvent_next {e : HostEvent} {s t : State} (h : takeEvent e s = .next t) :
    (∃ i, exec i s = .next t) ∨ (∃ w, t = s.raise (.illegalCmd w)) ∨
    (∃ offset v, t = s.writeOffset Config.chip offset v) ∨ (∃ a, t = s.answer a) ∨
    (∃ d a v, a < Config.chip.bufSize ∧ t = s.memWrite d a [v]) ∨ t = s.afterReset Config.chip := by
  cases e with
  | regWrite offset width v =>
    rw [takeEvent_regWrite_eq] at h
    split at h
    · cases h
    split at h
    case isFalse => cases h
    by_cases h0 : offset = 0
    · subst h0
      rw [hostWrite_cmd] at h
      cases hw : decodeWord v with
      | ok i => exact .inl ⟨i, issue_of_decode hw s ▸ h⟩
      | error r => rw [issue_of_illegal hw] at h; cases h; exact .inr (.inl ⟨v, rfl⟩)
    · rw [hostWrite_store h0] at h; cases h; exact .inr (.inr (.inl ⟨offset, v, rfl⟩))
  | regRead offset width =>
    rw [takeEvent_regRead_eq] at h
    split at h
    · cases h
    split at h <;> cases h
    exact .inr (.inr (.inr (.inl ⟨_, rfl⟩)))
  | bufWrite d a v =>
    rw [takeEvent_bufWrite_eq] at h
    split at h <;> cases h
    exact .inr (.inr (.inr (.inr (.inl ⟨d, a, v, by assumption, rfl⟩))))
  | bufRead d a =>
    rw [takeEvent_bufRead_eq] at h
    split at h <;> cases h
    exact .inr (.inr (.inr (.inl ⟨_, rfl⟩)))
  | reset => rw [takeEvent_reset] at h; cases h; exact .inr (.inr (.inr (.inr (.inr rfl))))
  | concurrent => rw [takeEvent_concurrent] at h; cases h

/-! ### The errors' bits -/

/-- The bit of a code 1 to 7 is none of the ERR_STICKY bits that stay 0 (R21, R99). -/
theorem stickyBit_and_unused : ∀ c : BitVec 4, 1 ≤ c.toNat → c.toNat ≤ 7 → stickyBit c &&& 0xFF01 = 0 := by decide

/-- The bit of a code is the bit with the code's number (R21). -/
theorem stickyBit_getLsbD : ∀ c : BitVec 4, (stickyBit c).getLsbD c.toNat = true := by decide

/-- RX_LEN after a host write fits the buffer (R27). -/
theorem clampLen_le (v : Word) : (clampLen Config.chip v).toNat ≤ Config.chip.bufSize := by
  unfold clampLen
  split
  · assumption
  · decide

/-- The length of the datagram TXFRAME builds (R26). -/
theorem txLen_toNat (n : Half) : (20 + n.zeroExtend 32 : Word).toNat = 20 + n.toNat := by
  have hn := n.isLt
  rw [BitVec.toNat_add, BitVec.toNat_setWidth, show (20 : Word).toNat = 20 from rfl]
  omega

/-! ### The registers at their reset values -/

/-- The state with every register and cipher at its reset value (R35), the other fields as given: what reset, SRESET and
the power-on state have in common. -/
def State.resetOver (tx rx : Memory) (pending : List HostEvent) (answers : List HostAnswer) (draws : Nat) : State :=
  { State.reset with txBuf := tx, rxBuf := rx, pending := pending, answers := answers, draws := draws }

theorem reset_eq_resetOver : State.reset = State.resetOver [] [] [] [] 0 := rfl

theorem cleared_eq_resetOver (s : State) :
    s.cleared Config.chip = State.resetOver s.txBuf s.rxBuf s.pending s.answers s.draws := rfl

theorem afterReset_eq_resetOver (s : State) :
    s.afterReset Config.chip = State.resetOver [] [] s.pending s.answers (s.draws + 1) := rfl

/-! ### Each update keeps the invariant -/

namespace State.Inv
variable {s : State}

theorem taken (h : s.Inv) (rest : List HostEvent) : (s.taken rest).Inv := { h with }
theorem answer (h : s.Inv) (a : HostAnswer) : (s.answer a).Inv := { h with }
theorem setRes (h : s.Inv) (w : Word) : (s.setRes w).Inv := { h with }
theorem setHdr (h : s.Inv) (r : HeaderRegs) : (s.setHdr r).Inv := { h with }
theorem setFrg (h : s.Inv) (g : FragmentRegs) : (s.setFrg g).Inv := { h with }

theorem succeed (h : s.Inv) : s.succeed.Inv :=
  { h with
    errCode := Nat.zero_le 7
    infoOfOk := fun _ => rfl
    stickyOfErr := fun hne => absurd rfl hne }

theorem raise (h : s.Inv) (e : CmdError) : (s.raise e).Inv :=
  { h with
    errCode := e.code_range.2
    infoOfOk := fun h0 => by
      have hpos := e.code_range.1
      rw [show e.code = 0 from h0] at hpos
      exact absurd hpos (by decide)
    stickyOfErr := fun _ => by
      rw [State.raise_errSticky, State.raise_err, BitVec.getLsbD_or, stickyBit_getLsbD, Bool.or_true]
    stickyCodes := by
      have hbit := stickyBit_and_unused e.code e.code_range.1 e.code_range.2
      rw [State.raise_errSticky, BitVec.and_or_distrib_right, h.stickyCodes, hbit]; rfl }

/-- A string written inside a buffer keeps the canonical form and the buffer's limit (R37). -/
theorem memWrite (h : s.Inv) (d : Dir) {a : Nat} {bs : List Byte} (fits : a + bs.length ≤ Config.chip.bufSize) :
    (s.memWrite d a bs).Inv := by
  cases d with
  | tx =>
    exact { h with
      txBufWf := Memory.wf_write bs a h.txBufWf
      txBufBelow := Memory.below_write bs fits h.txBufBelow }
  | rx =>
    exact { h with
      rxBufWf := Memory.wf_write bs a h.rxBufWf
      rxBufBelow := Memory.below_write bs fits h.rxBufBelow }

/-- Putting a cipher in place takes none away. -/
theorem setCipher_some (h : s.Inv) (d : Dir) (c : Cipher) : (s.setCipher d (some c)).Inv := by
  cases d with
  | tx => exact { h with txEncPresent := fun he => ⟨rfl, (h.txEncPresent he).2⟩ }
  | rx => exact { h with txEncPresent := fun he => ⟨(h.txEncPresent he).1, rfl⟩, rxEncPresent := fun _ => rfl }

/-- Both ciphers in place make the clauses about their presence true. (They are variables here, so that no
two states that hold a seeded one are compared.) -/
theorem connected (h : s.Inv) (cr : ConnectRegs) (cid : Half) (c0 c1 : Cipher) :
    State.Inv { s with cr := cr, clientId := cid, txCipher := some c0, rxCipher := some c1 } :=
  { h with txEncPresent := fun _ => ⟨rfl, rfl⟩, rxEncPresent := fun _ => rfl }

theorem crCommit (h : s.Inv) (cr : ConnectRegs) : (crCommit Config.chip s cr).Inv := h.connected cr _ _ _

/-- What TXFRAME's register updates owe: a length that fits, and both ciphers for an encrypted datagram (R26, R90). -/
theorem sent (h : s.Inv) (len seq res : Word) (hdr : HeaderRegs) (enc : Bool) (c : Option Cipher)
    (fits : len.toNat ≤ Config.chip.bufSize ∧ (len = 0 ∨ 20 ≤ len.toNat))
    (keyed : enc = true → c.isSome = true ∧ s.rxCipher.isSome = true) :
    State.Inv { s with txLen := len, hdr := hdr, txSeq := seq, lastTxEnc := enc, txCipher := c, res := res } :=
  { h with txLenFits := fits, txEncPresent := keyed }

/-- TXFRAME writes a header inside the buffer, a length that fits it, and LAST_TX_ENC only with both ciphers (R92). -/
theorem txCommit (h : s.Inv) (ck : Word) : (txCommit Config.chip s ck).Inv := by
  have hlen := txLen_toNat s.txPlen
  have hplen := s.txPlen.isLt
  refine (h.memWrite .tx (by simp)).sent _ _ _ _ _ _ ?fits ?keyed
  case fits => rw [chip_bufSize]; omega
  case keyed =>
    intro henc
    rw [advanceFor_isSome, State.memWrite_rxCipher]
    exact present_of_encTx henc

/-- RXFRAME sets LAST_RX_ENC only with the RX cipher, and RX_SEEN always (R93). -/
theorem rxCommit (h : s.Inv) {r : HeaderRegs} (keyed : encRx Config.chip r.flags = true → s.rxCipher.isSome = true) :
    (rxCommit Config.chip s r).Inv :=
  { h with
    txEncPresent := fun henc => by
      rw [rxCommit_txCipher, rxCommit_rxCipher, advanceFor_isSome]
      exact h.txEncPresent henc
    rxEncPresent := fun henc => by
      rw [rxCommit_rxCipher, advanceFor_isSome]
      exact keyed henc
    unseen := fun hseen => nomatch hseen }

/-- A host write stores in an operand register, or a length clamped to the buffer in RX_LEN (R18, R27). -/
theorem writeReg (h : s.Inv) (r : Reg) (v : Word) : (s.writeReg Config.chip r v).Inv := by
  cases r
  case rxLen => exact { h with rxLenFits := clampLen_le v }
  all_goals exact { h with }

theorem writeOffset (h : s.Inv) (offset : Nat) (v : Word) : (s.writeOffset Config.chip offset v).Inv := by
  unfold State.writeOffset
  split
  · exact h.writeReg _ v
  all_goals exact h

/-- Registers at their reset values meet their clauses, over any buffers that meet theirs (R35). -/
theorem resetOver {tx rx : Memory} (txWf : Memory.wf tx = true) (rxWf : Memory.wf rx = true)
    (txBelow : Memory.below Config.chip.bufSize tx = true) (rxBelow : Memory.below Config.chip.bufSize rx = true)
    (pending : List HostEvent) (answers : List HostAnswer) (draws : Nat) :
    (State.resetOver tx rx pending answers draws).Inv where
  txBufWf := txWf
  rxBufWf := rxWf
  txBufBelow := txBelow
  rxBufBelow := rxBelow
  rxLenFits := Nat.zero_le _
  txLenFits := ⟨Nat.zero_le _, .inl rfl⟩
  errCode := Nat.zero_le 7
  infoOfOk := fun _ => rfl
  stickyOfErr := fun hne => absurd rfl hne
  stickyCodes := BitVec.zero_and
  txEncPresent := fun henc => nomatch henc
  rxEncPresent := fun henc => nomatch henc
  unseen := fun _ => ⟨rfl, rfl⟩

theorem cleared (h : s.Inv) : (s.cleared Config.chip).Inv := by
  rw [cleared_eq_resetOver]
  exact resetOver h.txBufWf h.rxBufWf h.txBufBelow h.rxBufBelow _ _ _

/-- The external reset meets the invariant whatever the state before (R110). -/
theorem afterReset (s : State) : (s.afterReset Config.chip).Inv := by
  rw [afterReset_eq_resetOver]
  exact resetOver rfl rfl rfl rfl _ _ _

/-! ### Commands, events and steps keep the invariant -/

theorem effect {i : Instr} {u : State} (h : s.Inv) (he : Effect s i u) : u.Inv := by
  cases he with
  | none => exact h
  | seed d => exact h.setCipher_some d _
  | consume d c => exact h.setCipher_some d _
  | result i w => exact h.setRes w
  | bytes i d a bs hi fits => exact h.memWrite d fits
  | header d r => exact h.setHdr r
  | fragment d g => exact h.setFrg g
  | connect cr => exact h.crCommit cr
  | transmit ck => exact h.txCommit ck
  | receive r keyed => exact h.rxCommit keyed
  | clear => exact h.cleared

theorem exec {i : Instr} {t : State} (h : s.Inv) (ht : exec i s = .next t) : t.Inv := by
  rcases exec_effect ht with ⟨u, he, rfl⟩ | ⟨e, rfl⟩
  · exact (h.effect he).succeed
  · exact h.raise e

end State.Inv

/-- Settles O18: the registers at their reset values, over two empty buffers. -/
theorem invariantHoldsAtReset : Obligations.InvariantHoldsAtReset := by
  rw [Obligations.InvariantHoldsAtReset, reset_eq_resetOver]
  exact .resetOver rfl rfl rfl rfl _ _ _

/-- An event of the host keeps the invariant. -/
theorem State.Inv.takeEvent {s t : State} {e : HostEvent} (h : s.Inv) (ht : takeEvent e s = .next t) : t.Inv := by
  rcases takeEvent_next ht with ⟨i, hi⟩ | ⟨w, rfl⟩ | ⟨offset, v, rfl⟩ | ⟨a, rfl⟩ | ⟨d, a, v, ha, rfl⟩ | rfl
  · exact h.exec hi
  · exact h.raise _
  · exact h.writeOffset offset v
  · exact h.answer a
  · exact h.memWrite d ha
  · exact .afterReset s

/-- Settles O17: an idle step changes nothing, and every other one performs a host event. -/
theorem invariantKeptByEveryStep : Obligations.InvariantKeptByEveryStep := by
  intro s t h ht
  cases hp : s.pending with
  | nil => rw [step_idle hp] at ht; cases ht; exact h
  | cons e rest => rw [step_event hp] at ht; exact (h.taken rest).takeEvent ht

end Sys2Proof.Machine
end

section
/-! PROOFS. Which commands change which registers and ciphers (R15, R19, R22 to R30, R32, R71): a failed command changes
none of them, and a successful one only what its effect replaces. -/
namespace Sys2Proof.Machine

/-! ### Registers -/

/-- Settles O19: each effect replaces registers of its own commands only, and reporting the outcome changes none but the
error registers. -/
theorem registersChangeOnlyByTheirCommands : Obligations.RegistersChangeOnlyByTheirCommands := by
  intro i s t h hi
  rcases exec_effect h with ⟨u, hu, rfl⟩ | ⟨e, rfl⟩
  case inr => simp
  case inl =>
    cases hu with
    | none | seed | consume | bytes | connect | transmit | receive => simp
    | header d => cases d <;> simp [forDir]
    | fragment d => cases d <;> simp [forDir]
    | result _ w hmem =>
      have hres := List.mem_append_left [.txframe, .rxframe] hmem
      exact ⟨by simp, by simp, by simp, by simp, by simp, by simp, fun hnot => absurd hres hnot⟩
    | clear => exact absurd rfl hi

/-! ### TX_SEQ -/

/-- The header that stands in TXBUF after a successful TXFRAME is the one it built (R92). -/
theorem readHeader_txCommit (cfg : Config) (s : State) (ck : Word) :
    readHeader ((txCommit cfg s ck).byteAt .tx) 0 = txHeader s (txFlags cfg s) ck := by
  apply readHeader_of_bytes
  intro k hk
  rw [byteAt_txCommit, State.byteAt_memWrite_same, dif_pos (by rw [headerBytes_length]; omega)]
  simp

/-- The sequence field of the datagram that a successful TXFRAME leaves in TXBUF (R22). -/
theorem readLe32_seq_txCommit (cfg : Config) (s : State) (ck : Word) :
    readLe32 ((txCommit cfg s ck).byteAt .tx) 0 = s.txSeq :=
  congrArg HeaderRegs.seq (readHeader_txCommit cfg s ck)

/-- A TXFRAME that ends with code 0 leaves its end state for some checksum (R92). -/
theorem txframe_of_ok {s t : State} (h : exec .txframe s = .next t) (ht : t.err = 0) :
    ∃ ck, t = (txCommit Config.chip s ck).succeed := by
  obtain ⟨u, ⟨secs, -, rfl⟩, rfl⟩ := exec_leaves_of_ok h ht
  exact ⟨_, rfl⟩

/-- A command that ends with an error code raised an error (R100). -/
theorem exec_of_failed {i : Instr} {s t : State} (h : exec i s = .next t) (ht : t.err ≠ 0) : ∃ e, t = s.raise e := by
  rcases exec_effect h with ⟨u, -, rfl⟩ | he
  · exact absurd u.succeed_err ht
  · exact he

/-- Settles O22: TXFRAME's end state has the next number and the old one in its header; the other clauses are the error
entry, the frame of the other commands, the two resets, and the write to a read-only offset. -/
theorem txSeqCountsSuccessfulDatagrams : Obligations.TxSeqCountsSuccessfulDatagrams := by
  refine ⟨?succeeded, ?failed, ?other, ?sreset, ?reset, ?hostWrite⟩
  case succeeded =>
    intro s t h ht
    obtain ⟨ck, rfl⟩ := txframe_of_ok h ht
    have hbytes := readLe32_congr fun k (_ : k < 4) =>
      State.succeed_byteAt (txCommit Config.chip s ck) .tx (0 + k)
    exact ⟨by simp, by simp [txHeader], hbytes.trans (readLe32_seq_txCommit Config.chip s ck)⟩
  case failed =>
    intro s t h ht
    obtain ⟨e, rfl⟩ := exec_of_failed h ht
    exact s.raise_txSeq e
  case other =>
    intro i s t h htx hsr
    obtain ⟨-, hseq, -⟩ := registersChangeOnlyByTheirCommands i s t h hsr
    exact (hseq htx).1
  case sreset =>
    intro s t h
    rw [exec_eq] at h
    cases h
    rfl
  case reset =>
    intro s t rest hp h
    rw [step_event hp, takeEvent_reset] at h
    cases h
    rfl
  case hostWrite =>
    intro s t v rest hp h
    rw [step_regWrite hp (by decide) (by decide) (by decide)] at h
    cases h
    rfl

/-! ### Ciphers -/

@[simp] theorem State.cipher_setCipher_same (s : State) (d : Dir) (c : Option Cipher) :
    (s.setCipher d c).cipher d = c := by cases d <;> rfl

theorem State.cipher_setCipher_other {d e : Dir} (h : e ≠ d) (s : State) (c : Option Cipher) :
    (s.setCipher e c).cipher d = s.cipher d := by
  cases d <;> cases e
  case tx.tx | rx.rx => exact absurd rfl h
  case tx.rx | rx.tx => rfl

/-- The connect-request register that CRACCEPT seeds `C_d` with (R94). -/
def ConnectRegs.seed (cr : ConnectRegs) (d : Dir) : Word :=
  match d with
  | .tx => cr.clientSeed
  | .rx => cr.serverSeed

theorem cipher_crCommit (cfg : Config) (s : State) (cr : ConnectRegs) (d : Dir) :
    (crCommit cfg s cr).cipher d = some (cfg.isaac.init (cr.seed d)) := by
  cases d
  · exact crCommit_txCipher cfg s cr
  · exact crCommit_rxCipher cfg s cr

/-- The ways in which the command `i`, run in `s` and ending in `t`, may treat `C_d` (R32, R71). -/
def CipherRule (d : Dir) (i : Instr) (s t : State) : Prop :=
  t.cipher d = s.cipher d ∨
  (s.cipher d = none ∧ (i = forDir d .cinitTx .cinitRx ∧ t.cipher d = some (isaacInit s.arg0) ∨
    i = .craccept ∧ t.cipher d = some (isaacInit (t.cr.seed d)))) ∨
  ((i = forDir d .cadvTx .cadvRx ∨ i = forDir d .txframe .rxframe) ∧
    ∃ c, s.cipher d = some c ∧ t.cipher d = some (advance c)) ∨
  (i = .sreset ∧ t.cipher d = none)

/-- A framing command of the cipher's own direction keeps or advances it (R92, R93). -/
theorem CipherRule.of_advanceFor {d : Dir} {s t : State} {enc : Bool}
    (h : t.cipher d = advanceFor Config.chip enc (s.cipher d)) : CipherRule d (forDir d .txframe .rxframe) s t := by
  rcases advanceFor_cases Config.chip enc (s.cipher d) with keep | ⟨c, present, adv⟩
  · exact .inl (h.trans keep)
  · exact .inr (.inr (.inl ⟨.inr rfl, c, present, h.trans adv⟩))

theorem Effect.cipherRule {i : Instr} {s u : State} (h : Effect s i u) (d : Dir) : CipherRule d i s u := by
  cases h with
  | none => exact .inl rfl
  | seed e absent =>
    by_cases hed : e = d
    · subst hed; exact .inr (.inl ⟨absent, .inl ⟨rfl, by simp⟩⟩)
    · exact .inl (s.cipher_setCipher_other hed _)
  | consume e c present =>
    by_cases hed : e = d
    · subst hed; exact .inr (.inr (.inl ⟨.inl rfl, c, present, by simp⟩))
    · exact .inl (s.cipher_setCipher_other hed _)
  | connect cr txAbsent rxAbsent =>
    have absent : s.cipher d = .none := by cases d <;> assumption
    refine .inr (.inl ⟨absent, .inr ⟨rfl, ?_⟩⟩)
    rw [crCommit_cr]
    exact cipher_crCommit Config.chip s cr d
  | transmit ck =>
    cases d with
    | tx => exact .of_advanceFor (txCommit_txCipher Config.chip s ck)
    | rx => exact .inl (txCommit_rxCipher Config.chip s ck)
  | receive r =>
    cases d with
    | tx => exact .inl (rxCommit_txCipher Config.chip s r)
    | rx => exact .of_advanceFor (rxCommit_rxCipher Config.chip s r)
  | clear => exact .inr (.inr (.inr ⟨rfl, by cases d <;> rfl⟩))
  | result | header | fragment => exact .inl (by cases d <;> rfl)
  | bytes i e => exact .inl (by cases d <;> simp)

/-- Reporting the outcome changes no cipher and no connect-request register, so a command treats both ciphers as its
effect does (R100, R101). -/
theorem exec_cipherRule {i : Instr} {s t : State} (h : exec i s = .next t) (d : Dir) : CipherRule d i s t := by
  rcases exec_effect h with ⟨u, hu, rfl⟩ | ⟨e, rfl⟩
  · have hrule := hu.cipherRule d
    cases d <;> exact hrule
  · exact .inl (by cases d <;> simp)

/-- Settles O21: the one rule for a cipher, for both ciphers. -/
theorem ciphersChangeOnlyByTheirCommands : Obligations.CiphersChangeOnlyByTheirCommands :=
  fun _ _ _ h => ⟨exec_cipherRule h .tx, exec_cipherRule h .rx⟩

end Sys2Proof.Machine
end

section
/-! PROOFS. The host's side of the block (R15 to R30, R45, R48, R49): what an event does by its kind, and what each
offset of the register window reads and stores. -/
namespace Sys2Proof.Machine

/-! ### Events by their kind -/

/-- Settles O4: a command event, and no event. -/
theorem stepRunsTheDecodedCommand : Obligations.StepRunsTheDecodedCommand :=
  ⟨fun _ _ _ _ hw hp => step_command hp hw, fun _ hp => step_idle hp⟩

/-- A register access of the wrong form is refused before anything else is looked at (R18, R43). -/
theorem step_regWrite_badForm {s : State} {offset width : Nat} {v : Word} {rest : List HostEvent}
    (h : s.pending = .regWrite offset width v :: rest) (hbad : width ≠ 4 ∨ offset % 4 ≠ 0) :
    step s = .refused .registerAccessForm := by
  rw [step_event h, takeEvent_regWrite_eq, if_pos ((badForm_iff offset width).mpr hbad)]

theorem step_regRead_badForm {s : State} {offset width : Nat} {rest : List HostEvent}
    (h : s.pending = .regRead offset width :: rest) (hbad : width ≠ 4 ∨ offset % 4 ≠ 0) :
    step s = .refused .registerAccessForm := by
  rw [step_event h, takeEvent_regRead_eq, if_pos ((badForm_iff offset width).mpr hbad)]

/-- Settles O7: the form of a register access is checked first, then each address against the end of its space. -/
theorem accessesOutsideTheInterfaceStop : Obligations.AccessesOutsideTheInterfaceStop := by
  intro s rest off width a v b d
  refine ⟨fun hbad hp => step_regWrite_badForm hp hbad, fun hbad hp => step_regRead_badForm hp hbad,
    fun h4 hout hp => ?regWrite, fun h4 hout hp => ?regRead, fun hout hp => ?bufWrite, fun hout hp => ?bufRead,
    fun hp => ?concurrent⟩
  case regWrite =>
    rw [step_event hp, takeEvent_regWrite_eq, badForm_false h4, if_neg (by decide), if_neg (by omega)]
  case regRead =>
    rw [step_event hp, takeEvent_regRead_eq, badForm_false h4, if_neg (by decide), if_neg (by omega)]
  case bufWrite => rw [step_event hp, takeEvent_bufWrite_eq, if_neg (by rw [chip_bufSize]; omega)]
  case bufRead => rw [step_event hp, takeEvent_bufRead_eq, if_neg (by rw [chip_bufSize]; omega)]
  case concurrent => rw [step_event hp, takeEvent_concurrent]

/-! ### STATUS and the hardwired bits -/

theorem bitAt_getLsbD (n : Nat) (b : Bool) {k : Nat} (hk : k < 32) :
    (bitAt n b).getLsbD k = (b && decide (k = n)) := by
  cases b with
  | false => rw [bitAt, if_neg (by decide), Bool.false_and]; exact BitVec.getLsbD_zero
  | true =>
    rw [bitAt, if_pos rfl, BitVec.natCast_eq_ofNat, BitVec.getLsbD_ofNat, Nat.one_shiftLeft, Nat.testBit_two_pow,
      decide_eq_true hk, Bool.true_and, Bool.true_and]
    exact decide_eq_decide.mpr eq_comm

/-- STATUS bit by bit (R19). -/
theorem State.statusWord_getLsbD (s : State) {k : Nat} (hk : k < 32) :
    s.statusWord.getLsbD k =
      (s.err.getLsbD k || (s.txCipher.isSome && decide (k = 4)) || (s.rxCipher.isSome && decide (k = 5)) ||
        (s.txCipher.isSome && s.rxCipher.isSome && decide (k = 6)) || (s.rxSeen && decide (k = 7)) ||
        (s.lastTxEnc && decide (k = 8)) || (s.lastRxEnc && decide (k = 9))) := by
  simp only [State.statusWord, BitVec.getLsbD_or, bitAt_getLsbD _ _ hk, BitVec.getLsbD_setWidth, hk, decide_true,
    Bool.true_and, State.encActive, State.txcPresent, State.rxcPresent]

/-- STATUS as its fields one after another, the lowest last (R19). -/
theorem State.statusWord_eq_fields (s : State) :
    s.statusWord = (0 : BitVec 22) ++ BitVec.ofBool s.lastRxEnc ++ BitVec.ofBool s.lastTxEnc ++
      BitVec.ofBool s.rxSeen ++ BitVec.ofBool (s.txCipher.isSome && s.rxCipher.isSome) ++
      BitVec.ofBool s.rxCipher.isSome ++ BitVec.ofBool s.txCipher.isSome ++ s.err := by
  apply BitVec.eq_of_getLsbD_eq
  intro k hk
  simp only [s.statusWord_getLsbD hk, BitVec.getLsbD_append, BitVec.getLsbD_ofBool]
  interval_cases k <;> simp

/-- Settles O15: each single bit from STATUS bit by bit, and so each bit of the two longer fields. -/
theorem statusReadsItsFields : Obligations.StatusReadsItsFields := by
  intro s w
  have hbit : ∀ {k : Nat}, k < 32 → w.getLsbD k = _ := s.statusWord_getLsbD
  refine ⟨BitVec.eq_of_getLsbD_eq fun k hk => ?err, ?_, ?_, ?_, ?_, ?_, ?_,
    BitVec.eq_of_getLsbD_eq fun k hk => ?zero⟩
  case err =>
    rw [BitVec.getLsbD_extractLsb', hbit (by omega)]
    interval_cases k <;> simp
  case zero =>
    rw [BitVec.getLsbD_extractLsb', hbit (by omega)]
    interval_cases k <;> simp
  all_goals rw [hbit (by decide)]; simp

/-- ERR_STICKY bit by bit (R21). -/
theorem State.stickyWord_getLsbD (s : State) (k : Nat) :
    s.stickyWord.getLsbD k = (decide (1 ≤ k ∧ k < 16) && s.errSticky.getLsbD k) := by
  by_cases hk : k < 16
  · simp only [State.stickyWord, BitVec.getLsbD_and, BitVec.getLsbD_setWidth]
    interval_cases k <;> simp
  · have hhigh : s.errSticky.getLsbD k = false := BitVec.getLsbD_of_ge _ _ (by omega)
    simp [State.stickyWord, BitVec.getLsbD_setWidth, hhigh]

/-- A 16-bit register reads as its field in [15:0] and 0 in [31:16] (R24, R25). -/
theorem zeroExtend_halves (v : Half) :
    (v.zeroExtend 32).extractLsb' 16 16 = 0 ∧ (v.zeroExtend 32).extractLsb' 0 16 = v := by
  constructor
  · apply BitVec.eq_of_getLsbD_eq
    intro k hk
    simp [BitVec.getLsbD_extractLsb', BitVec.getLsbD_setWidth]
  · apply BitVec.eq_of_getLsbD_eq
    intro k hk
    simp [hk, show k < 32 by omega]

/-- Settles O16: from ERR_STICKY bit by bit and the two halves of a 16-bit register. -/
theorem hardwiredBitsReadZero : Obligations.HardwiredBitsReadZero := by
  intro s
  obtain ⟨cidHigh, cidLow⟩ := zeroExtend_halves s.clientId
  obtain ⟨plenHigh, plenLow⟩ := zeroExtend_halves s.txPlen
  refine ⟨s.stickyWord_getLsbD 0, BitVec.eq_of_getLsbD_eq fun k hk => ?high, fun k h1 h16 => ?stored,
    cidHigh, cidLow, plenHigh, plenLow⟩
  case high =>
    rw [BitVec.getLsbD_extractLsb', show s.readOffset 0x1C = s.stickyWord from rfl, s.stickyWord_getLsbD]
    simp
  case stored =>
    rw [show s.readOffset 0x1C = s.stickyWord from rfl, s.stickyWord_getLsbD, decide_eq_true ⟨h1, h16⟩, Bool.true_and]

/-! ### The register window -/

/-- The last register of the map stands below 0x78 (R17). -/
theorem Reg.offset_lt (r : Reg) : r.offset < 0x78 := by cases r <;> decide

/-- A reserved offset reads 0 (R18). -/
theorem State.readOffset_reserved (s : State) {offset : Nat} (h : regAt offset = none) : s.readOffset offset = 0 := by
  rw [State.readOffset, h]

/-- No register stands at 0x78 or above (R17). -/
theorem regAt_none {offset : Nat} (h : 0x78 ≤ offset) : regAt offset = none := by
  cases hr : regAt offset with
  | none => rfl
  | some p =>
    have hoff := regAt_offset hr
    have hlt := p.1.offset_lt
    omega

/-- Settles O6: a read is `step_regRead`; the map puts each register where the statement looks for it. -/
theorem hostReadReturnsRegisterUnchanged : Obligations.HostReadReturnsRegisterUnchanged := by
  refine ⟨fun s off rest hp h4 hw => ⟨step_regRead hp h4 hw, ?zero⟩, fun s => ?map⟩
  case zero =>
    rintro (rfl | hres)
    · rfl
    · exact s.readOffset_reserved (regAt_none hres)
  case map =>
    refine ⟨rfl, s.statusWord_eq_fields, ?_⟩
    exact ⟨rfl, rfl, rfl, rfl, rfl, rfl, rfl, rfl, rfl, rfl, rfl, rfl, rfl, rfl,
      rfl, rfl, rfl, rfl, rfl, rfl, rfl, rfl, rfl, rfl, rfl, rfl, rfl, rfl⟩

/-- STATUS reads 0 at the reset values (R35). -/
theorem statusWord_resetOver (tx rx : Memory) (pending : List HostEvent) (answers : List HostAnswer) (draws : Nat) :
    (State.resetOver tx rx pending answers draws).statusWord = 0 := by
  change State.reset.statusWord = 0
  decide

/-- Every offset reads 0 at the reset values (R35; TX_SEQ reads SEQ_INIT, which is 0). -/
theorem readOffset_resetOver (tx rx : Memory) (pending : List HostEvent) (answers : List HostAnswer)
    (draws offset : Nat) :
    (State.resetOver tx rx pending answers draws).readOffset offset = 0 := by
  cases hr : regAt offset with
  | none => exact State.readOffset_reserved _ hr
  | some p =>
    obtain ⟨r, acc⟩ := p
    rw [State.readOffset, hr]
    cases r
    case status => exact statusWord_resetOver ..
    case errSticky => exact BitVec.zero_and
    all_goals rfl

/-- Over two empty buffers no byte is written (R40). -/
theorem get_buf_resetOver (pending : List HostEvent) (answers : List HostAnswer) (draws : Nat) (d : Dir) (a : Nat) :
    Memory.get ((State.resetOver [] [] pending answers draws).buf d) a = none := by
  cases d <;> rfl

/-- Settles O58: reset leaves the registers at their reset values over two empty buffers, and so does power-on. -/
theorem resetGivesEveryRegisterItsValue : Obligations.ResetGivesEveryRegisterItsValue := by
  constructor
  · intro s rest hp
    refine ⟨(s.taken rest).afterReset Config.chip, by rw [step_event hp, takeEvent_reset], ?_, rfl, rfl, ?_⟩
    · rw [afterReset_eq_resetOver]; exact readOffset_resetOver _ _ _ _ _
    · rw [afterReset_eq_resetOver]; exact get_buf_resetOver _ _ _
  · rw [reset_eq_resetOver]
    exact ⟨readOffset_resetOver _ _ _ _ _, rfl, rfl, get_buf_resetOver _ _ _⟩

/-! ### Host register writes -/

/-- An offset is reserved or a register's own (R17). -/
theorem regAt_none_or_offset (offset : Nat) : regAt offset = none ∨ ∃ r : Reg, offset = r.offset := by
  cases hr : regAt offset with
  | none => exact .inl rfl
  | some p => exact .inr ⟨p.1, regAt_offset hr⟩

/-- A reserved offset is none of the map's (R17). -/
theorem ne_of_regAt_none {offset o : Nat} (h : regAt offset = none) (ho : o ∈ regMap.map Prod.fst) : offset ≠ o := by
  obtain ⟨p, hp, rfl⟩ := List.mem_map.1 ho
  simpa using List.lookup_eq_none_iff.1 h p hp

/-- A write to a reserved offset is ignored (R18). -/
theorem State.writeOffset_reserved (cfg : Config) (s : State) {offset : Nat} (v : Word) (h : regAt offset = none) :
    s.writeOffset cfg offset v = s := by
  rw [State.writeOffset, h]

/-- What CLIENT_ID and TX_PLEN read after a write of `v` (R24, R25). -/
theorem zeroExtend_lowHalf (v : Word) : (lowHalf v).zeroExtend 32 = v &&& 0xFFFF := by
  apply BitVec.eq_of_getLsbD_eq
  intro k hk
  simp only [lowHalf, BitVec.getLsbD_setWidth, BitVec.getLsbD_extractLsb', BitVec.getLsbD_and]
  interval_cases k <;> simp

@[simp] theorem State.taken_readOffset (s : State) (rest : List HostEvent) (offset : Nat) :
    (s.taken rest).readOffset offset = s.readOffset offset := by
  cases s; rfl

/-- Settles O5: at a register's offset, register by register, what is stored and what it reads back is `writeReg` and
`readReg` of that register; a reserved offset is none of those the statement names; the rest is the frame of a write. -/
theorem hostWriteStoresOnlyItsRegister : Obligations.HostWriteStoresOnlyItsRegister := by
  intro s off v rest hp h4 hw h0
  have hread : ∀ o, State.readOffset { s with pending := rest } o = s.readOffset o := s.taken_readOffset rest
  refine ⟨_, step_regWrite hp h4 hw h0, ?fields, ?readBack,
    fun o ho => (readOffset_writeOffset_other ho _ _ _).trans (hread o),
    writeOffset_frame Config.chip { s with pending := rest } off v⟩
  case fields =>
    rcases regAt_none_or_offset off with hnone | ⟨r, rfl⟩
    · rw [State.writeOffset_reserved _ _ _ hnone]
      simp [ne_of_regAt_none hnone, regMap]
    · cases r
      case cmd => exact absurd rfl h0
      all_goals rfl
  case readBack =>
    rcases regAt_none_or_offset off with hnone | ⟨r, rfl⟩
    · rw [State.writeOffset_reserved _ _ _ hnone, hread]
      simp [ne_of_regAt_none hnone, regMap]
    · cases r
      case cmd => exact absurd rfl h0
      case clientId | txPlen => exact zeroExtend_lowHalf v
      all_goals rfl

end Sys2Proof.Machine
end

section
/-! PROOFS. The frame buffers (R38 to R40, R45): what a write changes, what a host access to a byte does, which bytes
each command writes. -/
namespace Sys2Proof.Machine

/-! ### What MemWrite changes -/

theorem State.buf_memWrite_same (s : State) (d : Dir) (a : Nat) (bs : List Byte) :
    (s.memWrite d a bs).buf d = Memory.write (s.buf d) a bs := by cases d <;> rfl

theorem State.buf_memWrite_other {d e : Dir} (h : e ≠ d) (s : State) (a : Nat) (bs : List Byte) :
    (s.memWrite d a bs).buf e = s.buf e := by
  cases d <;> cases e
  case tx.tx | rx.rx => exact absurd rfl h
  case tx.rx | rx.tx => rfl

/-- A write of one byte leaves the written value of every other byte of both buffers. -/
theorem State.get_memWrite_byte_other {d e : Dir} {a x : Nat} (h : e ≠ d ∨ x ≠ a) (s : State) (v : Byte) :
    Memory.get ((s.memWrite d a [v]).buf e) x = Memory.get (s.buf e) x := by
  by_cases hed : e = d
  · subst hed
    have hx : x < a ∨ a + [v].length ≤ x := by
      have hne := h.resolve_left (not_not_intro rfl)
      rw [List.length_singleton]
      omega
    rw [State.buf_memWrite_same, Memory.get_write_outside hx]
  · rw [State.buf_memWrite_other hed]

/-- Under the old buffers a write leaves no trace (R38). -/
theorem State.memWrite_frame (s : State) (d : Dir) (a : Nat) (bs : List Byte) :
    { s.memWrite d a bs with txBuf := s.txBuf, rxBuf := s.rxBuf } = s := by cases d <;> rfl

/-- A byte reads as before a write, or lies in the written range. -/
theorem State.byteAt_memWrite_or_inside (s : State) (e : Dir) (b : Nat) (bs : List Byte) (d : Dir) (a : Nat) :
    (s.memWrite e b bs).byteAt d a = s.byteAt d a ∨ d = e ∧ b ≤ a ∧ a < b + bs.length := by
  by_cases h : d ≠ e ∨ a < b ∨ b + bs.length ≤ a
  · exact .inl (State.byteAt_memWrite_outside h)
  · exact .inr (by simpa using h)

/-! ### The host's buffer accesses -/

/-- Settles O8: the step is `memWrite` of one byte, whose value, other bytes and frame are the statement's clauses. -/
theorem hostBufferWriteStoresOneByte : Obligations.HostBufferWriteStoresOneByte := by
  intro s d a v rest hp ha
  refine ⟨_, step_bufWrite hp ha, ?stored, fun e x hother => ?others, State.memWrite_frame _ d a [v]⟩
  case stored =>
    rw [State.buf_memWrite_same, Memory.get_write, if_pos ⟨Nat.le_refl a, by simp⟩]
    simp
  case others =>
    rw [State.get_memWrite_byte_other hother]
    cases e <;> rfl

/-- Settles O9: the step hands over `byteAt`, which a read leaves as it was, so a second read hands over the same. -/
theorem hostBufferReadReturnsTheByte : Obligations.HostBufferReadReturnsTheByte := by
  intro s d a rest ha
  refine ⟨fun hp => step_bufRead hp ha, fun hp => ⟨_, s.byteAt d a, step_bufRead hp ha, ?again⟩⟩
  have same : State.byteAt { s with
      pending := .bufRead d a :: rest, answers := .byte (s.byteAt d a) :: s.answers } d a = s.byteAt d a :=
    State.byteAt_congr (by cases d <;> rfl) rfl a
  rw [step_bufRead rfl ha, same]

/-! ### The bytes a command writes -/

/-- The commands that write the twenty header bytes of `B_d` (R39). -/
def headerWriters : Dir → List Instr
  | .tx => [.hpackTx, .txframe]
  | .rx => [.hpackRx]

/-- The bytes of `B_d` that the command `i` writes when it runs in `s`: the column 'writes' of R39. -/
def WritesByte (i : Instr) (s : State) (d : Dir) (a : Nat) : Prop :=
  (i ∈ headerWriters d ∧ a < 20) ∨
  (i = forDir d .fpackTx .fpackRx ∧ s.arg0.toNat ≤ a ∧ a < s.arg0.toNat + 16)

/-- A header that one of the buffer's header writers stores at 0 changes no byte out of that command's reach. -/
theorem byteAt_headerWrite {i : Instr} {e : Dir} (hi : i ∈ headerWriters e) (s : State) (h : HeaderRegs) (d : Dir)
    (a : Nat) : (s.memWrite e 0 (headerBytes h)).byteAt d a = s.byteAt d a ∨ WritesByte i s d a := by
  rcases s.byteAt_memWrite_or_inside e 0 (headerBytes h) d a with same | ⟨rfl, -, hlt⟩
  · exact .inl same
  · exact .inr (.inl ⟨hi, by simpa using hlt⟩)

/-- A fragment header that FPACK stores at ARG0 changes no byte out of FPACK's reach. -/
theorem byteAt_fragmentWrite (s : State) (e : Dir) (g : FragmentRegs) (d : Dir) (a : Nat) :
    (s.memWrite e s.arg0.toNat (fragmentBytes g)).byteAt d a = s.byteAt d a ∨
      WritesByte (forDir e .fpackTx .fpackRx) s d a := by
  rcases s.byteAt_memWrite_or_inside e s.arg0.toNat (fragmentBytes g) d a with same | ⟨rfl, hle, hlt⟩
  · exact .inl same
  · exact .inr (.inr ⟨rfl, hle, hlt⟩)

/-- A command that succeeds changes no byte out of its reach: the header and fragment-header writes apart, its effect
replaces no buffer (R39). -/
theorem Leaves.byteAt {i : Instr} {s u : State} (h : Leaves i s u) (d : Dir) (a : Nat) :
    u.byteAt d a = s.byteAt d a ∨ WritesByte i s d a := by
  cases effect_of_leaves h with
  | none | seed | consume | result | header | fragment | connect | receive | clear => exact .inl (by simp)
  | transmit ck =>
    rw [byteAt_txCommit]
    exact byteAt_headerWrite (by decide) s _ d a
  | bytes _ e b bs hi =>
    simp only [List.mem_cons, List.not_mem_nil, or_false] at hi
    rcases hi with rfl | rfl | rfl | rfl
    case inl | inr.inl =>
      rw [show s.memWrite e b bs = _ from h]
      exact byteAt_headerWrite (by decide) s _ d a
    case inr.inr.inl =>
      obtain ⟨-, hu⟩ := h
      rw [hu]
      exact byteAt_fragmentWrite s .tx _ d a
    case inr.inr.inr =>
      obtain ⟨-, hu⟩ := h
      rw [hu]
      exact byteAt_fragmentWrite s .rx _ d a

/-- Reporting the outcome writes no byte, so a command changes no byte out of its reach (R39, R100, R101). -/
theorem exec_byteAt {i : Instr} {s t : State} (h : exec i s = .next t) (d : Dir) (a : Nat) :
    t.byteAt d a = s.byteAt d a ∨ WritesByte i s d a := by
  rcases exec_leaves h with ⟨u, hu, rfl⟩ | ⟨e, -, rfl⟩
  · rw [State.succeed_byteAt]; exact hu.byteAt d a
  · exact .inl (s.raise_byteAt e d a)

/-- Settles O20: the reach of a command, spelt out for each of the two buffers. -/
theorem buffersChangeOnlyByTheirWriters : Obligations.BuffersChangeOnlyByTheirWriters := by
  intro i s t h a
  have tx := exec_byteAt h .tx a
  have rx := exec_byteAt h .rx a
  simp only [WritesByte, headerWriters, forDir, List.mem_cons, List.not_mem_nil, or_false] at tx rx
  exact ⟨tx, rx⟩

end Sys2Proof.Machine
end

section
/-! PROOFS. The decoder against the encoder (R51, R53, R54), and the host's program notation (R55, R56, R38): what the
steps of a statement do. -/
namespace Sys2Proof.Machine

/-! ### The decoder and the encoder -/

/-- The word a command is encoded as decodes to that command (R51, R53). -/
@[simp] theorem decode_encode (i : Instr) : decodeWord (encode i) = .ok i := by cases i <;> rfl

/-- A word that decodes to a command has reserved bits 0 and that command's OP and D, so it is the command's word. -/
theorem encode_of_decode {w : Word} {i : Instr} (h : decodeWord w = .ok i) : w = encode i := by
  rw [decodeWord_eq] at h
  by_cases hrsv : w.extractLsb' 9 23 = 0
  · rw [if_pos hrsv] at h
    obtain ⟨hop, hd⟩ := decodeOp_eq_ok h
    rw [word_of_fields w, hrsv, hd, hop, encode]
  · rw [if_neg hrsv] at h
    cases h

/-- Settles O1: encode then decode, and decode then encode. -/
theorem decodeInvertsEncodeExactly : Obligations.DecodeInvertsEncodeExactly :=
  fun _ i => ⟨encode_of_decode, fun h => h ▸ decode_encode i⟩

/-- Settles O2: each of the 25 words is the one the encoder gives for its row. -/
theorem commandMapWordsDecode : Obligations.CommandMapWordsDecode :=
  ⟨decode_encode .nop,
    decode_encode .cinitTx, decode_encode .cinitRx, decode_encode .cpeekTx, decode_encode .cpeekRx,
    decode_encode .cadvTx, decode_encode .cadvRx, decode_encode .hpackTx, decode_encode .hpackRx,
    decode_encode .hunpackTx, decode_encode .hunpackRx, decode_encode .fpackTx, decode_encode .fpackRx,
    decode_encode .funpackTx, decode_encode .funpackRx, decode_encode .hash32Tx, decode_encode .hash32Rx,
    decode_encode .hdrhashTx, decode_encode .hdrhashRx, decode_encode .payhashTx, decode_encode .payhashRx,
    decode_encode .craccept, decode_encode .txframe, decode_encode .rxframe, decode_encode .sreset⟩

/-! ### Words that are no command -/

/-- A word is no command exactly when the decoder gives a reason. -/
theorem decodeWord_error_iff (w : Word) : (∃ e, decodeWord w = .error e) ↔ ∀ i, decodeWord w ≠ .ok i := by
  cases decodeWord w <;> simp

/-- OP and D give no command in the first two cases of R54: OP in no row, or D not allowed by its row (512 cases). -/
theorem decodeOp_isOk_eq_false_iff : ∀ (op : BitVec 8) (d : BitVec 1),
    (decodeOp op d).isOk = false ↔
      (op ∉ ([0x00, 0x01, 0x02, 0x03, 0x10, 0x11, 0x12, 0x13, 0x20, 0x21, 0x22, 0x23, 0x30, 0x31, 0x3F] :
          List (BitVec 8))) ∨
      (op ∈ ([0x00, 0x30, 0x3F] : List (BitVec 8)) ∧ d = 1) ∨
      (op ∈ ([0x23, 0x31] : List (BitVec 8)) ∧ d = 0) := by decide +kernel

/-- A word is no command when a reserved bit is set or its OP and D give none (R54). -/
theorem decodeWord_error_iff_fields (w : Word) :
    (∃ e, decodeWord w = .error e) ↔
      (decodeOp (w.extractLsb' 0 8) (w.extractLsb' 8 1)).isOk = false ∨ w.extractLsb' 9 23 ≠ 0 := by
  rw [decodeWord_eq]
  by_cases hrsv : w.extractLsb' 9 23 = 0
  · rw [if_pos hrsv, or_iff_left (not_not_intro hrsv)]
    cases decodeOp (w.extractLsb' 0 8) (w.extractLsb' 8 1) <;> simp [Except.isOk, Except.toBool]
  · rw [if_neg hrsv]
    exact iff_of_true ⟨_, rfl⟩ (.inr hrsv)

/-- A step that issues a word that is no command raises ILLEGAL_CMD with the word (R54). -/
theorem step_illegal {s : State} {w : Word} {e : DecodeReject} {rest : List HostEvent}
    (h : s.pending = cmdEvent w :: rest) (hw : decodeWord w = .error e) :
    step s = .next (State.raise { s with pending := rest } (.illegalCmd w)) := by
  rw [step_event h]
  exact issue_of_illegal hw _

/-- Settles O3: the cases of R54 are those in which the decoder gives a reason, and then the step raises the error. -/
theorem wordsOutsideTheMapRaiseIllegalCmd : Obligations.WordsOutsideTheMapRaiseIllegalCmd := by
  intro s w op d rsv illegal
  have hreason : illegal ↔ ∃ e, decodeWord w = .error e := by
    rw [decodeWord_error_iff_fields, decodeOp_isOk_eq_false_iff, or_assoc, or_assoc]
  refine ⟨hreason.trans (decodeWord_error_iff w), fun h => ?_⟩
  obtain ⟨e, he⟩ := hreason.1 h
  exact step_illegal (s.withCommand_pending w) he

/-! ### One step of a host statement -/

/-- A command statement runs its command (R55). -/
theorem step_issueStmt {s : State} {i : Instr} {rest : List HostEvent} (h : s.pending = issueStmt i ++ rest) :
    step s = exec i { s with pending := rest } :=
  step_command h (decode_encode i)

theorem step_wr_arg0 {s : State} {v : Word} {rest : List HostEvent} (h : s.pending = wr 0x08 v ++ rest) :
    step s = .next { s with arg0 := v, pending := rest } :=
  step_regWrite h (by decide) (by decide) (by decide)

theorem step_wr_arg1 {s : State} {v : Word} {rest : List HostEvent} (h : s.pending = wr 0x0C v ++ rest) :
    step s = .next { s with arg1 := v, pending := rest } :=
  step_regWrite h (by decide) (by decide) (by decide)

theorem step_wr_arg2 {s : State} {v : Word} {rest : List HostEvent} (h : s.pending = wr 0x10 v ++ rest) :
    step s = .next { s with arg2 := v, pending := rest } :=
  step_regWrite h (by decide) (by decide) (by decide)

/-- A run of one step. -/
theorem run_one {s t : State} (h : step s = .next t) : Host.Core.run Sys2Proof.core 1 s = .next t :=
  run_succ h 0

/-! ### The pseudo-instructions (R56) -/

/-- `C_d` is one of the two cipher fields. -/
theorem State.cipher_congr {s t : State} (htx : t.txCipher = s.txCipher) (hrx : t.rxCipher = s.rxCipher) (d : Dir) :
    t.cipher d = s.cipher d := by
  cases d with
  | tx => exact htx
  | rx => exact hrx

theorem bodyOf_cpeek (d : Dir) : bodyOf (forDir d .cpeekTx .cpeekRx) = cpeekBody Config.chip d := by cases d <;> rfl

theorem bodyOf_cadv (d : Dir) : bodyOf (forDir d .cadvTx .cadvRx) = cadvBody Config.chip d := by cases d <;> rfl

/-- CPEEK.d with the instance present: RES takes the current key (R73). -/
theorem exec_cpeek_present {s : State} {d : Dir} {c : Cipher} (h : s.cipher d = some c) :
    exec (forDir d .cpeekTx .cpeekRx) s = .next { s with res := peek c, err := 0, errInfo := 0 } := by
  rw [exec_eq, bodyOf_cpeek, cpeekBody, h]
  rfl

/-- CADV.d with the instance present: the instance advances once (R74). -/
theorem exec_cadv_present {s : State} {d : Dir} {c : Cipher} (h : s.cipher d = some c) :
    exec (forDir d .cadvTx .cadvRx) s =
      .next (State.setCipher { s with err := 0, errInfo := 0 } d (some (advance c))) := by
  rw [exec_eq, bodyOf_cadv, cadvBody, h]
  cases d <;> rfl

/-- Settles O29: CPEEK.d leaves the instance as it is, so CADV.d consumes the key that CPEEK.d read. -/
theorem cnextTakesAndConsumesTheKey : Obligations.CnextTakesAndConsumesTheKey := by
  intro s d c rest hc hp
  exact ⟨_, (step_issueStmt hp).trans (exec_cpeek_present ((State.cipher_congr rfl rfl d).trans hc)),
    (step_issueStmt rfl).trans (exec_cadv_present ((State.cipher_congr rfl rfl d).trans hc))⟩

/-- A command with one operand: ARG0 takes it, then the command runs (R55). -/
theorem steps_one_operand {s : State} {i : Instr} {x : Word} {rest : List HostEvent}
    (h : s.pending = wr 0x08 x ++ issueStmt i ++ rest) :
    ∃ u, step s = .next u ∧ step u = exec i { s with arg0 := x, pending := rest } :=
  ⟨_, step_wr_arg0 h, step_issueStmt rfl⟩

/-- Settles O30: one step per operand, then the command's. -/
theorem pseudoInstructionsReachTheirOperands : Obligations.PseudoInstructionsReachTheirOperands := by
  intro s d x y z rest
  refine ⟨steps_one_operand, steps_one_operand, steps_one_operand, fun h => ?hash32, fun h => ?payhash⟩
  case hash32 =>
    exact ⟨_, (run_succ (step_wr_arg0 h) 1).trans (run_one (step_wr_arg1 rfl)), step_issueStmt rfl⟩
  case payhash =>
    exact ⟨_, (run_succ (step_wr_arg0 h) 2).trans ((run_succ (step_wr_arg1 rfl) 1).trans
      (run_one (step_wr_arg2 rfl))), step_issueStmt rfl⟩

/-! ### WB (R55, R38) -/

/-- The value written at every byte outside a write of a byte string stays. -/
theorem State.get_memWrite_outside {d e : Dir} {a x : Nat} {bs : List Byte}
    (h : e ≠ d ∨ x < a ∨ a + bs.length ≤ x) (s : State) :
    Memory.get ((s.memWrite d a bs).buf e) x = Memory.get (s.buf e) x := by
  by_cases hed : e = d
  · subst hed
    rw [State.buf_memWrite_same, Memory.get_write_outside (h.resolve_left (not_not_intro rfl))]
  · rw [State.buf_memWrite_other hed]

/-- The written byte number `k` stands `k` above the start. -/
theorem State.get_memWrite_inside (s : State) (d : Dir) (a : Nat) {bs : List Byte} {k : Nat} (h : k < bs.length) :
    Memory.get ((s.memWrite d a bs).buf d) (a + k) = some bs[k] := by
  rw [State.buf_memWrite_same, Memory.get_write, if_pos (by omega), Nat.add_sub_cancel_left,
    List.getElem?_eq_getElem h]

/-- The bytes of WB, one step each, leave one write of the whole byte string. -/
theorem run_wb {d : Dir} {rest : List HostEvent} (bs : List Byte) {s : State} {a : Nat}
    (hp : s.pending = wb d a bs ++ rest) (ha : a + bs.length ≤ Config.chip.bufSize) :
    Host.Core.run Sys2Proof.core bs.length s = .next (State.memWrite { s with pending := rest } d a bs) := by
  induction bs generalizing s a with
  | nil =>
    have hp : s.pending = rest := hp
    subst hp
    cases d <;> rfl
  | cons b bs ih =>
    rw [List.length_cons] at ha ⊢
    rw [run_succ (step_bufWrite hp (by omega)), ih (a := a + 1) (by cases d <;> rfl) (by omega)]
    cases d <;> rfl

/-- Settles O31: the run is one `memWrite`, whose bytes, other bytes and frame are the statement's clauses. -/
theorem wbWritesConsecutiveBytes : Obligations.WbWritesConsecutiveBytes := by
  intro s d a bs rest hp ha
  refine ⟨_, run_wb bs hp ha, fun k hk => State.get_memWrite_inside _ d a hk, fun e x hx => ?others,
    State.memWrite_frame { s with pending := rest } d a bs⟩
  rw [State.get_memWrite_outside hx]
  cases e <;> rfl

end Sys2Proof.Machine
end

section
/-! PROOFS. The keystream cipher (R67 to R69): what one scramble and one consumed key do, how the keys of the blocks are
numbered, and the cipher commands (R72 to R74) in both directions. -/
namespace Sys2Proof.Machine

/-! ### An instance with another index -/

theorem Cipher.b_with_idx (C : Cipher) (j : Fin 256) : ({ C with idx := j } : Cipher).b = C.b := rfl
theorem Cipher.idx_with_idx (C : Cipher) (j : Fin 256) : ({ C with idx := j } : Cipher).idx = j := rfl
@[simp] theorem peek_with_idx (C : Cipher) (j : Fin 256) : peek { C with idx := j } = C.rsl.get j := rfl

/-- The index alone does not influence a scramble, which keeps it (R67). -/
theorem scramble_with_idx (C : Cipher) (j : Fin 256) : scramble { C with idx := j } = { scramble C with idx := j } :=
  scramble_with C C.rsl j

/-- Consuming a key that is not the last of its block lowers the index (R69). -/
theorem advance_with_idx_of_pos {j : Fin 256} (h : 0 < j.val) (C : Cipher) :
    advance { C with idx := j } = { C with idx := cell (j.val - 1) } :=
  advance_of_pos (C := { C with idx := j }) h

/-- Consuming the last key of a block generates the next one (R69). -/
theorem advance_with_idx_zero (C : Cipher) : advance { C with idx := 0 } = { scramble C with idx := 255 } := by
  rw [advance_of_zero rfl, scramble_with_idx]

/-! ### Scramble and Init -/

/-- Settles O28: `scramble_with` says that only the index differs. -/
theorem scrambleDoesNotReadOldResults : Obligations.ScrambleDoesNotReadOldResults := by
  intro C old j
  rw [scramble_with]
  exact ⟨rfl, rfl, rfl, rfl, (Cipher.c_with_idx _ _).trans (scramble_c C)⟩

/-- An iteration writes its `b` into word `i` of the results (R67). -/
theorem get_rsl_scrambleStep (C : Cipher) (i : Nat) : (scrambleStep C i).rsl.get (cell i) = (scrambleStep C i).b := by
  rw [scrambleStep, get_putWord, if_pos rfl]

/-- The last iteration of a scramble leaves `b` in `rsl[255]` (R67). -/
theorem get_rsl_scramble_last (C : Cipher) : (scramble C).rsl.get 255 = (scramble C).b := by
  rw [scramble_eq_last]
  exact get_rsl_scrambleStep _ 255

theorem isaacInit_idx (seed : Word) : (isaacInit seed).idx = 255 := by
  rw [isaacInit_of_scramble rfl, Cipher.idx_with_idx]

/-- Settles O26: `Init` ends with a scramble, whose last word is `b`, and the index points at that word. -/
theorem firstKeyEqualsB : Obligations.FirstKeyEqualsB := by
  intro seed
  refine ⟨?index, isaacInit_c seed, ?key⟩
  case index => rw [isaacInit_idx]; rfl
  case key =>
    rw [isaacInit_of_scramble rfl, peek_with_idx, get_rsl_scramble_last, Cipher.b_with_idx]

/-! ### Advance -/

/-- A consumed key that is not the last of its block costs one index and nothing else (R69). -/
theorem advance_frame_of_pos {C : Cipher} (h : 0 < C.idx.val) :
    (advance C).idx.val = C.idx.val - 1 ∧ { advance C with idx := C.idx } = C := by
  rw [advance_of_pos h]
  refine ⟨?_, rfl⟩
  rw [cell_val]
  omega

/-- The last key of a block is followed by the next block from its word 255 (R69). -/
theorem advance_frame_of_zero {C : Cipher} (h : C.idx.val = 0) :
    (advance C).idx.val = 255 ∧ { advance C with idx := C.idx } = scramble C := by
  rw [advance_of_zero h]
  refine ⟨rfl, ?_⟩
  rw [← scramble_idx C]

/-! ### The numbering of the keys -/

theorem keyBlock_idx (seed : Word) (n : Nat) : (keyBlock seed n).idx = 255 := by
  induction n with
  | zero => exact isaacInit_idx seed
  | succ n ih => rw [keyBlock, scramble_idx, ih]

theorem cell_top_sub_val (k : Nat) : (cell (255 - k % 256)).val = 255 - k % 256 := by
  rw [cell_val]
  omega

/-- After `k` consumed keys the instance is block `k / 256` with its index `k % 256` words below the top (R69). -/
theorem advanced_eq_keyBlock (seed : Word) (k : Nat) :
    advanced seed k = { keyBlock seed (k / 256) with idx := cell (255 - k % 256) } := by
  induction k with
  | zero =>
    have hidx : cell (255 - 0 % 256) = (keyBlock seed 0).idx := (keyBlock_idx seed 0).symm
    rw [Nat.zero_div, hidx, advanced, keyBlock]
  | succ k ih =>
    rw [advanced, ih]
    by_cases hlast : k % 256 = 255
    · have hblock : (k + 1) / 256 = k / 256 + 1 := by omega
      have hword : (k + 1) % 256 = 0 := by omega
      have hzero : cell (255 - 255) = 0 := rfl
      have htop : cell (255 - 0) = 255 := rfl
      rw [hlast, hzero, advance_with_idx_zero, hblock, hword, htop, keyBlock]
    · have hblock : (k + 1) / 256 = k / 256 := by omega
      have hword : 255 - (k + 1) % 256 = 255 - k % 256 - 1 := by omega
      have hval := cell_top_sub_val k
      rw [advance_with_idx_of_pos (by omega), hval, hblock, hword]

/-- Settles O27: one consumed key by its two cases, and the key number by the block and index that
`advanced_eq_keyBlock` gives. -/
theorem keyNumbersFollowTheBlocks : Obligations.KeyNumbersFollowTheBlocks := by
  refine ⟨fun C => ⟨rfl, advance_frame_of_pos, advance_of_zero⟩, fun seed k => ?number⟩
  rw [advanced_eq_keyBlock, peek_with_idx, Vector.get_eq_getElem]
  simp only [cell_top_sub_val]

/-! ### The cipher commands (R72 to R74) -/

theorem raise_cipherPresent (s : State) (d : Dir) : s.raise (.cipherPresent d) =
    { s with err := 3, errInfo := dirWord d, errSticky := s.errSticky ||| 0x0008 } := rfl

theorem raise_cipherAbsent (s : State) (d : Dir) : s.raise (.cipherAbsent d) =
    { s with err := 2, errInfo := dirWord d, errSticky := s.errSticky ||| 0x0004 } := rfl

theorem bodyOf_cinit (d : Dir) : bodyOf (forDir d .cinitTx .cinitRx) = cinitBody Config.chip d := by cases d <;> rfl

/-- CINIT.d with the instance absent: it is `Init(ARG0)` (R72). -/
theorem exec_cinit_absent {s : State} {d : Dir} (h : s.cipher d = none) :
    exec (forDir d .cinitTx .cinitRx) s =
      .next (State.setCipher { s with err := 0, errInfo := 0 } d (some (isaacInit s.arg0))) := by
  rw [exec_eq, bodyOf_cinit, cinitBody, h]
  cases d <;> rfl

/-- CINIT.d with the instance present is refused (R72). -/
theorem exec_cinit_present {s : State} {d : Dir} {c : Cipher} (h : s.cipher d = some c) :
    exec (forDir d .cinitTx .cinitRx) s =
      .next { s with err := 3, errInfo := dirWord d, errSticky := s.errSticky ||| 0x0008 } := by
  rw [exec_eq, bodyOf_cinit, cinitBody, h, ← raise_cipherPresent]
  rfl

/-- CPEEK.d without the instance is refused (R73). -/
theorem exec_cpeek_absent {s : State} {d : Dir} (h : s.cipher d = none) :
    exec (forDir d .cpeekTx .cpeekRx) s =
      .next { s with err := 2, errInfo := dirWord d, errSticky := s.errSticky ||| 0x0004 } := by
  rw [exec_eq, bodyOf_cpeek, cpeekBody, h, ← raise_cipherAbsent]
  rfl

/-- CADV.d without the instance is refused (R74). -/
theorem exec_cadv_absent {s : State} {d : Dir} (h : s.cipher d = none) :
    exec (forDir d .cadvTx .cadvRx) s =
      .next { s with err := 2, errInfo := dirWord d, errSticky := s.errSticky ||| 0x0004 } := by
  rw [exec_eq, bodyOf_cadv, cadvBody, h, ← raise_cipherAbsent]
  rfl

/-- Settles O23: the two outcomes of CINIT.d, for both directions. -/
theorem cinitSeedsAnAbsentInstance : Obligations.CinitSeedsAnAbsentInstance :=
  fun _ => ⟨exec_cinit_absent (d := .tx), exec_cinit_absent (d := .rx),
    fun _ => exec_cinit_present (d := .tx), fun _ => exec_cinit_present (d := .rx)⟩

/-- Settles O24: the two outcomes of CPEEK.d, for both directions. -/
theorem cpeekReadsTheCurrentKey : Obligations.CpeekReadsTheCurrentKey :=
  fun _ => ⟨fun _ => exec_cpeek_present (d := .tx), fun _ => exec_cpeek_present (d := .rx),
    exec_cpeek_absent (d := .tx), exec_cpeek_absent (d := .rx)⟩

/-- Settles O25: the two outcomes of CADV.d, for both directions; the instance it leaves is `advance` of the old one. -/
theorem cadvConsumesOneKey : Obligations.CadvConsumesOneKey :=
  fun _ => ⟨fun c h => ⟨advance c, exec_cadv_present (d := .tx) h, advance_frame_of_pos, advance_frame_of_zero⟩,
    fun c h => ⟨advance c, exec_cadv_present (d := .rx) h, advance_frame_of_pos, advance_frame_of_zero⟩,
    exec_cadv_absent (d := .tx), exec_cadv_absent (d := .rx)⟩

end Sys2Proof.Machine
end

section
/-! PROOFS. The 32-bit hash (R75, R76) and the header hash (R77): the hash as sums over the indices of its rule, its
additivity after whole words, and the header hash as the hash of twenty bytes read from a string. -/
namespace Sys2Proof.Machine

/-! ### The hash by its indices (R75) -/

theorem hash32_eq_add (s : List Byte) : hash32 s = BitVec.ofNat 32 (s.length * 65536) + hashFrom 0 s :=
  hashFrom_eq_add s _

/-- The sum of the whole little-endian words of a string, at 0, 4, 8 and so on (R75). -/
def wholeWordSum (s : List Byte) : Word :=
  wordSum ((List.range (s.length / 4)).map fun i => readLe32 (fun o => s.getD o 0) (4 * i))

/-- The sum of the 1 to 3 bytes after the whole words, placed from bits [31:24] downward (R75). -/
def trailingByteSum (s : List Byte) : Word :=
  wordSum ((List.range (s.length % 4)).map fun t =>
    ((s.getD (4 * (s.length / 4) + t) 0).zeroExtend 32 : Word) <<< (8 * (3 - t)))

/-- Four bytes in front are the word at 0, and the words of the rest stand four addresses higher. -/
theorem wholeWordSum_word (a b c d : Byte) (s : List Byte) :
    wholeWordSum (a :: b :: c :: d :: s) = le32 a b c d + wholeWordSum s := by
  have hq : (a :: b :: c :: d :: s).length / 4 = s.length / 4 + 1 := by simp only [List.length_cons]; omega
  rw [wholeWordSum, hq, List.range_succ_eq_map, List.map_cons, List.map_map]
  rfl

/-- Four bytes in front change no trailing byte. -/
theorem trailingByteSum_word (a b c d : Byte) (s : List Byte) :
    trailingByteSum (a :: b :: c :: d :: s) = trailingByteSum s := by
  have hr : (a :: b :: c :: d :: s).length % 4 = s.length % 4 := by simp only [List.length_cons]; omega
  have hq (t : Nat) : 4 * ((a :: b :: c :: d :: s).length / 4) + t = 4 * (s.length / 4) + t + 4 := by
    simp only [List.length_cons]; omega
  simp only [trailingByteSum, hr, hq, List.getD_cons_succ]

/-- The loops of R75 add the whole words and then the trailing bytes. -/
theorem hashFrom_zero_eq_sums (s : List Byte) : hashFrom 0 s = wholeWordSum s + trailingByteSum s := by
  induction s using byWords with
  | h0 => rfl
  | h1 a => simp [hashFrom_one, wholeWordSum, trailingByteSum, wordSum]
  | h2 a b => simp [hashFrom_two, wholeWordSum, trailingByteSum, wordSum, List.range_succ]
  | h3 a b c => simp [hashFrom_three, wholeWordSum, trailingByteSum, wordSum, List.range_succ, add_assoc]
  | h4 a b c d s ih =>
    rw [hashFrom_word, zero_add, hashFrom_eq_add, ih, wholeWordSum_word, trailingByteSum_word, add_assoc]

/-- Settles O40: the length term apart, the hash is the two sums of `hashFrom_zero_eq_sums`. -/
theorem hash32MatchesItsIndexForm : Obligations.Hash32MatchesItsIndexForm := by
  intro s
  rw [hash32_eq_add, hashFrom_zero_eq_sums, ← add_assoc]
  rfl

/-! ### Additivity (R76) -/

/-- A first part of whole words leaves the alignment of the rest as it is, and the length terms add up (R76). -/
theorem hash32_append {s : List Byte} (hs : s.length % 4 = 0) (t : List Byte) :
    hash32 (s ++ t) = hash32 s + hash32 t := by
  have hlen : BitVec.ofNat 32 ((s ++ t).length * 65536) =
      BitVec.ofNat 32 (s.length * 65536) + BitVec.ofNat 32 (t.length * 65536) := by
    rw [List.length_append, Nat.add_mul, BitVec.ofNat_add]
  rw [hash32_eq_add, hash32_eq_add s, hash32_eq_add t, hlen, hashFrom_append hs, hashFrom_eq_add]
  ac_rfl

/-- After 1 to 3 zero bytes the byte 1 of `[0, 1]` stands at another place than in the string alone. -/
theorem hash32_zeros_append_ne {m : Nat} (hpos : m ≠ 0) (hlt : m < 4) :
    hash32 (List.replicate m 0 ++ [0, 1]) ≠ hash32 (List.replicate m 0) + hash32 [0, 1] := by
  match m with
  | 1 => decide
  | 2 => decide
  | 3 => decide

/-- Settles O41: `hash32_append` is the second clause, and it reduces the third, for a string of zeros, to its 1 to 3
bytes after the whole words; the length term of 65536 bytes is 2^32. -/
theorem hash32IsAdditiveOverWholeWords : Obligations.Hash32IsAdditiveOverWholeWords := by
  refine ⟨rfl, fun _ t hs => hash32_append hs t, fun r hr => ?notAdditive, fun s hlen => ?wraps⟩
  case notAdditive =>
    have hwords : (List.replicate (4 * (r / 4)) (0 : Byte)).length % 4 = 0 := by simp
    refine ⟨List.replicate (4 * (r / 4)) 0 ++ List.replicate (r % 4) 0, [0, 1], ?length, ?differ⟩
    case length =>
      rw [List.length_append, List.length_replicate, List.length_replicate]
      omega
    case differ =>
      rw [List.append_assoc, hash32_append hwords, hash32_append hwords, add_assoc, ne_eq, add_right_inj]
      exact hash32_zeros_append_ne hr (Nat.mod_lt r (by decide))
  case wraps =>
    have hterm : BitVec.ofNat 32 (s.length * 65536) = 0 := by rw [hlen]; rfl
    rw [hash32, hterm]

/-! ### The header hash (R77) -/

/-- A string is what a read of its own bytes from 0 gives. -/
theorem memRead_getD (s : List Byte) : memRead (fun o => s.getD o 0) 0 s.length = s := by
  apply List.ext_getElem (memRead_length _ _ _)
  intro k hk hk'
  rw [memRead_getElem, Nat.zero_add, List.getD_eq_getElem s 0 hk']

/-- Settles O42: the last eight of twenty bytes are all of the rest, and the closed form is that of twenty bytes read
from the string. -/
theorem headerHashHasItsClosedForm : Obligations.HeaderHashHasItsClosedForm := by
  intro hb hlen
  constructor
  · have hrest : (hb.drop 12).take 8 = hb.drop 12 := List.take_of_length_le (by rw [List.length_drop]; omega)
    rw [hdrHash, hrest]
    rfl
  · have hread := memRead_getD hb
    rw [hlen] at hread
    have hclosed := hdrHash_memRead (fun o => hb.getD o 0) 0
    rwa [hread] at hclosed

end Sys2Proof.Machine
end

section
/-! PROOFS. The header and fragment-header commands and the plain hash commands (R78 to R83): each command's next state
for both buffers, and the words of a header that is written and read back. -/
namespace Sys2Proof.Machine

/-! ### Words and headers in a buffer -/

/-- Where a little-endian word reads as `v`, byte `k` of it is byte `k` of `v` (R41). -/
theorem byte_of_readLe32 {rd : Nat → Byte} {o : Nat} {v : Word} (h : readLe32 rd o = v) (k : Nat) (hk : k < 4) :
    rd (o + k) = v.extractLsb' (8 * k) 8 := by
  rw [← h, readLe32_extract rd o hk]

/-- A written byte string is what its bytes read as. -/
theorem byteAt_memWrite_inside (s : State) (d : Dir) (a : Nat) {bs : List Byte} {k : Nat} (hk : k < bs.length) :
    (s.memWrite d a bs).byteAt d (a + k) = bs[k] := by
  rw [State.byteAt_memWrite_same, dif_pos (by omega)]
  simp only [Nat.add_sub_cancel_left]

/-- A header written at `a` is read back from there (R79). -/
theorem readHeader_memWrite (s : State) (d : Dir) (a : Nat) (h : HeaderRegs) :
    readHeader ((s.memWrite d a (headerBytes h)).byteAt d) a = h :=
  readHeader_of_bytes fun _ hk => byteAt_memWrite_inside s d a hk

/-- A fragment header written at `a` is read back from there (R81). -/
theorem readFragment_memWrite (s : State) (d : Dir) (a : Nat) (g : FragmentRegs) :
    readFragment ((s.memWrite d a (fragmentBytes g)).byteAt d) a = g :=
  readFragment_of_bytes fun _ hk => byteAt_memWrite_inside s d a hk

/-- Writing back the bytes that were read, in a state that reads like the old one, changes no byte. -/
theorem byteAt_memWrite_memRead {s t : State} (same : ∀ e x, t.byteAt e x = s.byteAt e x) (d : Dir) (a n : Nat)
    (e : Dir) (x : Nat) : (t.memWrite d a (memRead (s.byteAt d) a n)).byteAt e x = s.byteAt e x := by
  rcases t.byteAt_memWrite_or_inside d a (memRead (s.byteAt d) a n) e x with kept | ⟨rfl, hle, hlt⟩
  · exact kept.trans (same e x)
  · obtain ⟨k, rfl⟩ := Nat.exists_eq_add_of_le hle
    rw [byteAt_memWrite_inside t e a (by omega), memRead_getElem]

/-! ### The bodies and their outcomes, for both buffers -/

theorem bodyOf_hpack (d : Dir) : bodyOf (forDir d .hpackTx .hpackRx) = hpackBody d := by cases d <;> rfl

theorem bodyOf_hunpack (d : Dir) : bodyOf (forDir d .hunpackTx .hunpackRx) = hunpackBody d := by cases d <;> rfl

theorem bodyOf_fpack (d : Dir) : bodyOf (forDir d .fpackTx .fpackRx) = fpackBody Config.chip d := by cases d <;> rfl

theorem bodyOf_funpack (d : Dir) : bodyOf (forDir d .funpackTx .funpackRx) = funpackBody Config.chip d := by
  cases d <;> rfl

theorem bodyOf_hash32 (d : Dir) : bodyOf (forDir d .hash32Tx .hash32Rx) = hash32Body Config.chip d := by
  cases d <;> rfl

theorem bodyOf_hdrhash (d : Dir) : bodyOf (forDir d .hdrhashTx .hdrhashRx) = hdrhashBody Config.chip d := by
  cases d <;> rfl

theorem succeed_memWrite (s : State) (d : Dir) (a : Nat) (bs : List Byte) :
    (s.memWrite d a bs).succeed = s.succeed.memWrite d a bs := by cases d <;> rfl

theorem succeed_setRes (s : State) (w : Word) : (s.setRes w).succeed = { s with res := w, err := 0, errInfo := 0 } :=
  rfl

theorem raise_range (s : State) (w : Word) :
    s.raise (.range w) = { s with err := 6, errInfo := w, errSticky := s.errSticky ||| 0x0040 } := rfl

/-- HPACK.d writes the header registers at 0 (R78). -/
theorem exec_hpack (d : Dir) (s : State) :
    exec (forDir d .hpackTx .hpackRx) s = .next (s.succeed.memWrite d 0 (headerBytes s.hdr)) := by
  rw [exec_eq, bodyOf_hpack, hpackBody, finish_ok, succeed_memWrite]

/-- HUNPACK.d reads the header registers from 0 (R79). -/
theorem exec_hunpack (d : Dir) (s : State) :
    exec (forDir d .hunpackTx .hunpackRx) s = .next (s.setHdr (readHeader (s.byteAt d) 0)).succeed := by
  rw [exec_eq, bodyOf_hunpack, hunpackBody, finish_ok]

/-- FPACK.d whose range lies in the buffer writes the fragment registers there (R80). -/
theorem exec_fpack_fits {s : State} (d : Dir) (h : s.arg0.toNat + 16 ≤ 65555) :
    exec (forDir d .fpackTx .fpackRx) s =
      .next (s.succeed.memWrite d s.arg0.toNat (fragmentBytes s.frg)) := by
  rw [exec_eq, bodyOf_fpack, fpackBody_eq, chip_bufSize, if_pos h, finish_ok, succeed_memWrite]

/-- FPACK.d whose range leaves the buffer raises RANGE(ARG0) (R80). -/
theorem exec_fpack_range {s : State} (d : Dir) (h : 65555 < s.arg0.toNat + 16) :
    exec (forDir d .fpackTx .fpackRx) s = .next (s.raise (.range s.arg0)) := by
  rw [exec_eq, bodyOf_fpack, fpackBody_eq, chip_bufSize, if_neg (Nat.not_le_of_lt h), finish_error]

/-- FUNPACK.d whose range lies in the buffer reads the fragment registers from there (R81). -/
theorem exec_funpack_fits {s : State} (d : Dir) (h : s.arg0.toNat + 16 ≤ 65555) :
    exec (forDir d .funpackTx .funpackRx) s =
      .next (s.setFrg (readFragment (s.byteAt d) s.arg0.toNat)).succeed := by
  rw [exec_eq, bodyOf_funpack, funpackBody_eq, chip_bufSize, if_pos h, finish_ok]

/-- FUNPACK.d whose range leaves the buffer raises RANGE(ARG0) (R81). -/
theorem exec_funpack_range {s : State} (d : Dir) (h : 65555 < s.arg0.toNat + 16) :
    exec (forDir d .funpackTx .funpackRx) s = .next (s.raise (.range s.arg0)) := by
  rw [exec_eq, bodyOf_funpack, funpackBody_eq, chip_bufSize, if_neg (Nat.not_le_of_lt h), finish_error]

/-! ### HPACK and HUNPACK (R78, R79) -/

/-- Settles O32: a header read back from the next state is the one in the registers, so its words are theirs; the other
bytes and the frame are those of one `memWrite`. -/
theorem hpackWritesTheHeaderBytes : Obligations.HpackWritesTheHeaderBytes := by
  intro d s
  have hread := readHeader_memWrite s.succeed d 0 s.hdr
  refine ⟨_, exec_hpack d s, fun k hk => ?seq, byte_of_readLe32 (congrArg HeaderRegs.flags hread),
    byte_of_readLe32 (congrArg HeaderRegs.cksum hread), byte_of_readLe32 (congrArg HeaderRegs.w3 hread),
    byte_of_readLe32 (congrArg HeaderRegs.w4 hread), fun e a ha => ?others, State.memWrite_frame s.succeed d 0 _⟩
  case seq =>
    have hbyte := byte_of_readLe32 (congrArg HeaderRegs.seq hread) k hk
    rwa [Nat.zero_add] at hbyte
  case others =>
    rw [State.byteAt_memWrite_outside (ha.imp_right .inr), State.succeed_byteAt]

/-- Settles O33: the registers are the words that `readHeader` reads, byte by byte. -/
theorem hunpackReadsTheHeaderBytes : Obligations.HunpackReadsTheHeaderBytes := by
  intro d s
  refine ⟨readHeader (s.byteAt d) 0, exec_hunpack d s, fun k hk => ⟨?seq, readLe32_extract _ 4 hk,
    readLe32_extract _ 8 hk, readLe32_extract _ 12 hk, readLe32_extract _ 16 hk⟩⟩
  have hbyte := readLe32_extract (s.byteAt d) 0 hk
  rwa [Nat.zero_add] at hbyte

/-- Settles O34: a written header is read back as it was, and a header that was read is written back over its own
bytes. -/
theorem headerRoundTrips : Obligations.HeaderRoundTrips := by
  intro d s t u
  constructor
  · intro hpack hunpack
    rw [exec_hpack] at hpack
    cases hpack
    rw [exec_hunpack] at hunpack
    cases hunpack
    exact readHeader_memWrite s.succeed d 0 s.hdr
  · intro hunpack hpack e a
    rw [exec_hunpack] at hunpack
    cases hunpack
    rw [exec_hpack] at hpack
    cases hpack
    rw [State.succeed_hdr, State.setHdr_hdr, headerBytes_readHeader]
    exact byteAt_memWrite_memRead (fun e x => by simp) d 0 20 e a

/-! ### FPACK and FUNPACK (R80, R81) -/

/-- Settles O35: inside the buffer as for HPACK, at ARG0; outside it the command raises the error. -/
theorem fpackWritesTheFragmentHeader : Obligations.FpackWritesTheFragmentHeader := by
  intro d s
  refine ⟨fun hfits => ?fits, exec_fpack_range d⟩
  have hread := readFragment_memWrite s.succeed d s.arg0.toNat s.frg
  refine ⟨_, exec_fpack_fits d hfits, byte_of_readLe32 (congrArg FragmentRegs.seq hread),
    byte_of_readLe32 (congrArg FragmentRegs.id hread), byte_of_readLe32 (congrArg FragmentRegs.w2 hread),
    byte_of_readLe32 (congrArg FragmentRegs.w3 hread), fun e a ha => ?others,
    State.memWrite_frame s.succeed d s.arg0.toNat _⟩
  rw [State.byteAt_memWrite_outside ha, State.succeed_byteAt]

/-- Settles O36: the registers are the words that `readFragment` reads, byte by byte; outside the buffer the command
raises the error. -/
theorem funpackReadsTheFragmentHeader : Obligations.FunpackReadsTheFragmentHeader := by
  intro d s
  exact ⟨fun hfits => ⟨readFragment (s.byteAt d) s.arg0.toNat, exec_funpack_fits d hfits, fun k hk =>
    ⟨readLe32_extract _ _ hk, readLe32_extract _ _ hk, readLe32_extract _ _ hk, readLe32_extract _ _ hk⟩⟩,
    exec_funpack_range d⟩

/-- Settles O37: FPACK.d keeps ARG0, so both commands find the range inside the buffer, where the written registers are
read back, or both find it outside and change no register but the error ones. -/
theorem fragmentHeaderRoundTrips : Obligations.FragmentHeaderRoundTrips := by
  intro d s t u hpack hunpack
  rcases Nat.lt_or_ge 65555 (s.arg0.toNat + 16) with hout | hfits
  · rw [exec_fpack_range d hout] at hpack
    cases hpack
    rw [exec_funpack_range d (by rwa [State.raise_arg0])] at hunpack
    cases hunpack
    exact ⟨by simp, by simp⟩
  · rw [exec_fpack_fits d hfits] at hpack
    cases hpack
    rw [exec_funpack_fits d (by rwa [State.memWrite_arg0])] at hunpack
    cases hunpack
    refine ⟨?_, by simp⟩
    rw [State.succeed_frg, State.setFrg_frg, State.memWrite_arg0, State.succeed_arg0, readFragment_memWrite]

/-! ### HASH32 and HDRHASH (R82, R83) -/

/-- Settles O38: the two branches of the bounds check. -/
theorem hash32HashesTheRange : Obligations.Hash32HashesTheRange := by
  intro d s
  rw [exec_eq, bodyOf_hash32, hash32Body_eq, chip_bufSize]
  constructor
  · intro hfits
    rw [if_pos hfits, finish_ok, succeed_setRes]
    rfl
  · intro hout
    rw [if_neg (Nat.not_le_of_lt hout), finish_error, raise_range]

/-- Settles O39: RES takes the header hash of the twenty bytes, whose closed form is `hdrHash_memRead`. -/
theorem hdrhashIgnoresTheChecksumField : Obligations.HdrhashIgnoresTheChecksumField := by
  intro d s
  rw [exec_eq, bodyOf_hdrhash, hdrhashBody, hdrHash_memRead, finish_ok, succeed_setRes]

end Sys2Proof.Machine
end

section
/-! PROOFS. The walk over the payload's sections (R60, R84 to R86, R88): its equality with the pseudocode, line by line,
and what flags, bytes and hashes have to do with the sections it finds. -/
namespace Sys2Proof.Machine

/-! ### The walk and its pseudocode (R84, R85) -/

/-- The walk over the rows that are left, from the pseudocode's running address and behind its list so far. -/
def walkFrom (rd : Nat → Byte) (f : Word) (stop : Nat) (table : List (Word × SectionKind)) (w : WalkVars) :
    Except Nat (List Section) :=
  (walkTable rd f stop table w.at_).map (w.out ++ ·)

theorem flagSet_iff (f flag : Word) : flagSet f flag = true ↔ f &&& flag ≠ 0 := bne_iff_ne

/-- A list put in front after another section is the list with that section at its end, put in front. -/
theorem map_cons_append (e : Except Nat (List Section)) (out : List Section) (x : Section) :
    (e.map (x :: ·)).map (out ++ ·) = e.map (out ++ [x] ++ ·) := by
  cases e with
  | error o => rfl
  | ok secs => simp [Except.map]

section lines
variable {rd : Nat → Byte} {f : Word} {stop p : Nat} {table : List (Word × SectionKind)} {w : WalkVars}
  {k : WalkVars → Except Nat (List Section)}

/-- A row whose flag is clear is passed over. -/
theorem walkFrom_clear {flag : Word} (hf : ¬ f &&& flag ≠ 0) (kind : SectionKind) :
    walkFrom rd f stop ((flag, kind) :: table) w = walkFrom rd f stop table w := by
  rw [← flagSet_iff] at hf
  simp only [walkFrom, walkTable, if_neg hf]

/-- A row of fixed length is the line `Fixed(flag, n)` before the rows after it. -/
theorem walkFrom_fixed {flag : Word} {n : Nat} (hw : p ≤ w.at_)
    (hk : ∀ w', p ≤ w'.at_ → walkFrom rd f stop table w' = k w') :
    walkFrom rd f stop ((flag, .fixed n) :: table) w = fixedLine f stop flag n w >>= k := by
  unfold fixedLine
  by_cases hf : f &&& flag ≠ 0
  case neg => rw [walkFrom_clear hf, if_neg hf]; exact hk w hw
  rw [if_pos hf, walkFrom, walkTable, if_pos ((flagSet_iff f flag).2 hf)]
  by_cases hlong : w.at_ + n > stop
  · simp only [if_pos hlong]; rfl
  · simp only [if_neg hlong, map_cons_append]
    exact hk ⟨w.at_ + n, _⟩ (Nat.le_add_right_of_le hw)

/-- A row of counted words is the line `Retx(flag)` before the rows after it. -/
theorem walkFrom_counted {flag : Word} (hw : p ≤ w.at_)
    (hk : ∀ w', p ≤ w'.at_ → walkFrom rd f stop table w' = k w') :
    walkFrom rd f stop ((flag, .counted) :: table) w = retxLine f rd stop flag w >>= k := by
  unfold retxLine
  by_cases hf : f &&& flag ≠ 0
  case neg => rw [walkFrom_clear hf, if_neg hf]; exact hk w hw
  rw [if_pos hf, walkFrom, walkTable, if_pos ((flagSet_iff f flag).2 hf)]
  by_cases hcount : w.at_ + 4 > stop
  · simp only [if_pos hcount]; rfl
  by_cases hlong : w.at_ + (4 + 4 * (readLe32 rd w.at_).toNat) > stop
  · simp only [if_neg hcount, if_pos hlong]; rfl
  · simp only [if_neg hcount, if_neg hlong, map_cons_append]
    exact hk ⟨w.at_ + (4 + 4 * (readLe32 rd w.at_).toNat), _⟩ (Nat.le_add_right_of_le hw)

/-- The row that takes the rest of the payload ends the walk. -/
theorem walkFrom_rest {flag : Word} {r : Except Nat (List Section)} (hk : walkFrom rd f stop table w = r) :
    walkFrom rd f stop ((flag, .rest) :: table) w =
      if f &&& flag ≠ 0 then .ok (w.out ++ [⟨w.at_, stop - w.at_⟩]) else r := by
  by_cases hf : f &&& flag ≠ 0
  · rw [if_pos hf, walkFrom, walkTable, if_pos ((flagSet_iff f flag).2 hf)]; rfl
  · rw [walkFrom_clear hf, if_neg hf, hk]

/-- At the payload's end the loop of R85 stops, whatever its bound. -/
theorem fragmentLoop_end (hend : ¬ w.at_ < stop) (m : Nat) : fragmentLoop rd stop m w = .ok w.out := by
  cases m with
  | zero => rfl
  | succ m => exact if_neg hend

/-- At the payload's end no fragment block is left. -/
theorem walkFragments_end {a : Nat} (hend : ¬ a < stop) (n : Nat) : walkFragments rd stop n a = .ok [] := by
  cases n with
  | zero => rfl
  | succ n => exact if_neg hend

/-- With iterations for every byte left, the loop of R85 is the fragment recursion. -/
theorem fragmentLoop_eq {m n : Nat} (w : WalkVars) (hm : stop - w.at_ ≤ m) (hn : stop - w.at_ ≤ n) :
    fragmentLoop rd stop m w = (walkFragments rd stop n w.at_).map (w.out ++ ·) := by
  have atEnd (w : WalkVars) (m n : Nat) (hend : ¬ w.at_ < stop) :
      fragmentLoop rd stop m w = (walkFragments rd stop n w.at_).map (w.out ++ ·) := by
    rw [fragmentLoop_end hend, walkFragments_end hend, Except.map, List.append_nil]
  induction m generalizing n w with
  | zero => exact atEnd w 0 n (by omega)
  | succ m ih =>
    by_cases hend : w.at_ < stop
    case neg => exact atEnd w _ n hend
    cases n with
    | zero => omega
    | succ n =>
      simp only [fragmentLoop, walkFragments, if_pos hend]
      by_cases hshort : stop - w.at_ < 16
      · simp only [if_pos hshort]; rfl
      by_cases hsize : (readLe16 rd (w.at_ + 10)).toNat < 16 ∨ (readLe16 rd (w.at_ + 10)).toNat > stop - w.at_
      · simp only [if_neg hshort, if_pos hsize]; rfl
      · have hge := align4_ge (readLe16 rd (w.at_ + 10)).toNat
        simp only [if_neg hshort, if_neg hsize, map_cons_append]
        exact ih ⟨_, _⟩ (by simp only; omega) (by simp only; omega)

/-- The last row, of fragment blocks, is the last line of R84. -/
theorem walkFrom_fragments {flag : Word} {len : Nat} (hw : stop - len ≤ w.at_) :
    walkFrom rd f stop [(flag, .fragments)] w =
      if f &&& flag ≠ 0 then fragmentLoop rd stop (len + 1) w else .ok w.out := by
  by_cases hf : f &&& flag ≠ 0
  · rw [if_pos hf, walkFrom, walkTable, if_pos ((flagSet_iff f flag).2 hf)]
    exact (fragmentLoop_eq w (by omega) (Nat.le_refl _)).symm
  · rw [walkFrom_clear hf, if_neg hf, walkFrom, walkTable, Except.map, List.append_nil]

end lines

/-- Each row of the table is its line of the pseudocode, and the running address never falls below the payload's start,
so the loop's bound is enough (R84, R85). -/
theorem walk_eq_walkPseudocode (cfg : Config) (f : Word) (rd : Nat → Byte) (p len : Nat) :
    walk cfg f rd p len = walkPseudocode cfg f rd p len := by
  have hwalk : walk cfg f rd p len = walkFrom rd f (p + len) (sectionTable cfg) ⟨p, []⟩ := by
    rw [walk, walkFrom]
    cases walkTable rd f (p + len) (sectionTable cfg) p <;> rfl
  rw [hwalk]
  exact
    walkFrom_fixed (p := p) (Nat.le_refl p) fun _ h =>
    walkFrom_counted h fun _ h =>
    walkFrom_counted h fun _ h =>
    walkFrom_fixed h fun _ h =>
    walkFrom_fixed h fun _ h =>
    walkFrom_rest <|
    walkFrom_fixed h fun _ h =>
    walkFrom_fixed h fun _ h =>
    walkFrom_fixed h fun _ h =>
    walkFrom_fixed h fun _ h =>
    walkFrom_fixed h fun _ h =>
    walkFrom_fixed h fun _ h =>
    walkFrom_fragments (by omega)

/-- Settles O43: see `walk_eq_walkPseudocode`. -/
theorem walkFollowsThePseudocode : Obligations.WalkFollowsThePseudocode := walk_eq_walkPseudocode

/-! ### Where the sections lie -/

/-- Sections in order: each ends at or before the start of every later one. -/
theorem InOrder.pairwise {stop a : Nat} {secs : List Section} (h : InOrder stop a secs) :
    secs.Pairwise fun x y => x.addr + x.len ≤ y.addr := by
  induction secs generalizing a with
  | nil => exact .nil
  | cons x xs ih =>
    obtain ⟨-, hxs⟩ := h
    exact .cons (fun y hy => (hxs.mem hy).1) (ih hxs)

/-- The sections of a walk are in order inside the payload (R84, R85). -/
theorem walk_inOrder {cfg : Config} {f : Word} {rd : Nat → Byte} {p len : Nat} {secs : List Section}
    (h : walk cfg f rd p len = .ok secs) : InOrder (p + len) p secs :=
  walkTable_inOrder _ (Nat.le_add_right p len) h

/-- Settles O44: both clauses are about the order of the sections. -/
theorem sectionsLieInOrderInsideThePayload : Obligations.SectionsLieInOrderInsideThePayload := by
  intro cfg f rd p len secs h
  exact ⟨fun x hx => (walk_inOrder h).mem hx, (walk_inOrder h).pairwise⟩

/-! ### The flags that are tested (R59, R86) -/

/-- A table of sections tests no flag but its own. -/
theorem walkTable_flags_congr {f g : Word} (rd : Nat → Byte) (stop : Nat) (table : List (Word × SectionKind))
    (h : ∀ row ∈ table, flagSet f row.1 = flagSet g row.1) (a : Nat) :
    walkTable rd f stop table a = walkTable rd g stop table a := by
  induction table generalizing a with
  | nil => rfl
  | cons row table ih =>
    obtain ⟨flag, kind⟩ := row
    obtain ⟨hflag, htable⟩ := List.forall_mem_cons.1 h
    simp only [walkTable, hflag, ih htable]

/-- The test of a flag inside a mask depends on the masked flags word. -/
theorem flagSet_of_masked {f g flag mask : Word} (hm : mask &&& flag = flag) (h : f &&& mask = g &&& mask) :
    flagSet f flag = flagSet g flag := by
  rw [flagSet, flagSet, ← hm, ← BitVec.and_assoc, ← BitVec.and_assoc, h]

/-- The thirteen section flags make up the mask of R86. -/
theorem sectionTable_chip_flags : ∀ row ∈ sectionTable Config.chip, (0x0F4D7104 : Word) &&& row.1 = row.1 := by
  decide

/-- Settles O45: a table tests its own flags only, and the walk reads the payload only. -/
theorem untestedFlagsAndOuterBytesDoNotMatter : Obligations.UntestedFlagsAndOuterBytesDoNotMatter := by
  intro f g rd rd' p len hflags hbytes
  rw [walk_congr hbytes]
  exact walkTable_flags_congr rd' _ _ (fun row hrow => flagSet_of_masked (sectionTable_chip_flags row hrow) hflags) p

/-! ### Sections without gaps (R88) -/

/-- Sections one after another from `a` on without a gap, all but the last of whole words. -/
def Adjoining : Nat → List Section → Prop
  | _, [] => True
  | a, x :: xs => x.addr = a ∧ (xs = [] ∨ x.len % 4 = 0) ∧ Adjoining (a + x.len) xs

/-- The hashes of adjoining sections add up to the hash of the region they fill (R76, R88). -/
theorem Adjoining.sectionHashSum_eq {rd : Nat → Byte} {a : Nat} {secs : List Section} (h : Adjoining a secs) :
    sectionHashSum rd secs = hash32 (memRead rd a (totalLength secs)) := by
  induction secs generalizing a with
  | nil => simp [sectionHashSum, wordSum, totalLength, memRead, hash32, hashFrom_nil]
  | cons x xs ih =>
    obtain ⟨rfl, hwords, hxs⟩ := h
    have hsum : sectionHashSum rd (x :: xs) = hash32 (memRead rd x.addr x.len) + sectionHashSum rd xs := rfl
    rw [hsum]
    rcases hwords with rfl | hwords
    · exact add_zero _
    · rw [ih hxs, totalLength, memRead_append, hash32_append (by rwa [memRead_length])]

/-- The section of a row takes whole words, or no section comes after it (R60). -/
def SectionKind.keepsWords : SectionKind → Bool
  | .fixed n => n % 4 == 0
  | .counted => true
  | .rest => true
  | .fragments => false

/-- Rows that keep to whole words go before a table whose sections adjoin. -/
theorem walkTable_append_adjoining {rd : Nat → Byte} {f : Word} {stop : Nat} {tail : List (Word × SectionKind)}
    (htail : ∀ {a secs}, walkTable rd f stop tail a = .ok secs → Adjoining a secs) (rows : List (Word × SectionKind))
    (hrows : ∀ row ∈ rows, row.2.keepsWords = true) {a : Nat} {secs : List Section}
    (h : walkTable rd f stop (rows ++ tail) a = .ok secs) : Adjoining a secs := by
  induction rows generalizing a secs with
  | nil => exact htail h
  | cons row rows ih =>
    obtain ⟨flag, kind⟩ := row
    obtain ⟨hkind, hrest⟩ := List.forall_mem_cons.1 hrows
    simp only [List.cons_append, walkTable] at h
    split at h
    case isFalse => exact ih hrest h
    cases kind with
    | fixed n =>
      simp only at h
      split at h
      · cases h
      · obtain ⟨xs, hxs, rfl⟩ := Except.map_ok h
        exact ⟨rfl, .inr (beq_iff_eq.1 hkind), ih hrest hxs⟩
    | counted =>
      simp only at h
      split at h
      · cases h
      split at h
      · cases h
      · obtain ⟨xs, hxs, rfl⟩ := Except.map_ok h
        exact ⟨rfl, .inr (by simp only; omega), ih hrest hxs⟩
    | rest => cases h; exact ⟨rfl, .inl rfl, trivial⟩
    | fragments => cases hkind

/-- FLAG_FLOW's six bytes are the last section where no fragments follow. -/
theorem walkTable_flow_adjoining {rd : Nat → Byte} {f flow frag : Word} {stop n a : Nat} {secs : List Section}
    (hfrag : f &&& frag = 0)
    (h : walkTable rd f stop [(flow, .fixed n), (frag, .fragments)] a = .ok secs) : Adjoining a secs := by
  have hnone (b : Nat) : walkTable rd f stop [(frag, .fragments)] b = .ok [] := by
    rw [walkTable, if_neg (by rw [flagSet_iff, not_not, hfrag]), walkTable]
  rw [walkTable] at h
  split at h
  · simp only [hnone] at h
    split at h
    · cases h
    · cases h; exact ⟨rfl, .inl rfl, trivial⟩
  · rw [hnone] at h; cases h; trivial

/-- Settles O46: all rows before FLAG_FLOW keep to whole words, so the sections adjoin. -/
theorem sectionHashesSumToTheRegionHash : Obligations.SectionHashesSumToTheRegionHash := by
  intro f rd p len secs hfrag h
  have hadj : Adjoining p secs :=
    walkTable_append_adjoining (fun ht => walkTable_flow_adjoining hfrag ht) ((sectionTable Config.chip).take 11)
      (by decide) h
  rw [sumHashes_chip, hadj.sectionHashSum_eq]

end Sys2Proof.Machine
end

section
/-! PROOFS. PAYHASH, TXFRAME, RXFRAME and CRACCEPT (R91 to R94): each command's outcomes, one lemma per branch of its body
in the order of R103, with the walk of the pseudocode and the hashes word by word. -/
namespace Sys2Proof.Machine

/-! ### Errors and hashes -/

theorem raise_truncated (s : State) (w : Word) :
    s.raise (.truncated w) = { s with err := 4, errInfo := w, errSticky := s.errSticky ||| 0x0010 } := rfl

theorem raise_badChecksum (s : State) (w : Word) :
    s.raise (.badChecksum w) = { s with err := 5, errInfo := w, errSticky := s.errSticky ||| 0x0020 } := rfl

theorem raise_noSection (s : State) (w : Word) :
    s.raise (.noSection w) = { s with err := 7, errInfo := w, errSticky := s.errSticky ||| 0x0080 } := rfl

/-- Reporting success leaves a buffer's reader as it is. -/
theorem succeed_reader (s : State) (d : Dir) : s.succeed.byteAt d = s.byteAt d := funext (s.succeed_byteAt d)

/-- The header hash, word by word: the checksum field does not occur (R77). -/
theorem hdrHash_headerBytes (h : HeaderRegs) :
    hdrHash Config.chip (headerBytes h) = 0x00140000 + h.seq + h.flags + 0xBADD70DD + h.w3 + h.w4 := by
  have hread : readHeader (fun o => (headerBytes h).getD o 0) 0 = h := readHeader_of_bytes fun k hk => by
    rw [Nat.zero_add, List.getD_eq_getElem]
  have hbytes := memRead_getD (headerBytes h)
  rw [headerBytes_length] at hbytes
  rw [← hbytes, hdrHash_memRead, ← congrArg HeaderRegs.seq hread, ← congrArg HeaderRegs.flags hread,
    ← congrArg HeaderRegs.w3 hread, ← congrArg HeaderRegs.w4 hread]
  rfl

/-- A flag that was forced to `enc` tests as `enc` (R92). -/
theorem flagSet_forceFlag {flag : Word} (hne : flag ≠ 0) (f : Word) (enc : Bool) :
    flagSet (forceFlag f flag enc) flag = enc := by
  cases enc with
  | true =>
    have hkept : (f ||| flag) &&& flag = flag := by
      rw [BitVec.and_or_distrib_right, BitVec.and_self]
      ext i hi; simp
    rw [flagSet_iff, forceFlag, if_pos rfl, hkept]
    exact hne
  | false =>
    have hcleared : f &&& ~~~flag &&& flag = 0 := by ext i hi; simp
    rw [← Bool.not_eq_true, flagSet_iff, not_not, forceFlag, if_neg Bool.false_ne_true, hcleared]

/-! ### PAYHASH (R91) -/

theorem bodyOf_payhash (d : Dir) : bodyOf (forDir d .payhashTx .payhashRx) = payhashBody Config.chip d := by
  cases d <;> rfl

/-- Settles O47: the bounds check, then the two outcomes of the walk. -/
theorem payhashSumsTheSelectedSections : Obligations.PayhashSumsTheSelectedSections := by
  intro d s
  rw [exec_eq, bodyOf_payhash, payhashBody_eq, chip_bufSize, ← walk_eq_walkPseudocode]
  refine ⟨fun hfits => ⟨fun secs hwalk => ?found, fun o hwalk => ?fails⟩, fun hout => ?range⟩
  case found => rw [if_pos hfits, hwalk, finish_ok, sumHashes_chip, succeed_setRes]
  case fails => rw [if_pos hfits, hwalk, finish_error, raise_truncated, addressWord]
  case range => rw [if_neg (Nat.not_le_of_lt hout), finish_error, raise_range]

/-! ### TXFRAME (R92) -/

/-- The largest payload length still fits the buffer of the modelled chip (R25). -/
theorem txRange_chip (s : State) : 20 + s.txPlen.toNat ≤ Config.chip.bufSize := by
  have hplen := s.txPlen.isLt
  rw [chip_bufSize]
  omega

/-- TXFRAME of a payload that holds the selected sections (R92). -/
theorem exec_txframe_built {s : State} {secs : List Section}
    (hwalk : walk Config.chip (txFlags Config.chip s) (s.byteAt .tx) 20 s.txPlen.toNat = .ok secs) :
    exec .txframe s =
      .next (txCommit Config.chip s (txCksum Config.chip s (sectionHashSum (s.byteAt .tx) secs))).succeed := by
  rw [exec_eq, bodyOf, txframeBody_eq, if_pos (txRange_chip s), hwalk, finish_ok, sumHashes_chip]

/-- A TXFRAME that ends with code 0 found the sections and built the datagram. -/
theorem txframe_built_of_ok {s t : State} (h : exec .txframe s = .next t) (ht : t.err = 0) : ∃ secs,
    walk Config.chip (txFlags Config.chip s) (s.byteAt .tx) 20 s.txPlen.toNat = .ok secs ∧
    t = (txCommit Config.chip s (txCksum Config.chip s (sectionHashSum (s.byteAt .tx) secs))).succeed := by
  obtain ⟨u, ⟨secs, hwalk, rfl⟩, rfl⟩ := exec_leaves_of_ok h ht
  exact ⟨secs, hwalk, by rw [sumHashes_chip]⟩

/-- TXFRAME of a payload that does not hold them (R92). -/
theorem exec_txframe_truncated {s : State} {o : Nat}
    (hwalk : walk Config.chip (txFlags Config.chip s) (s.byteAt .tx) 20 s.txPlen.toNat = .error o) :
    exec .txframe s = .next (s.raise (.truncated (addressWord o))) := by
  rw [exec_eq, bodyOf, txframeBody_eq, if_pos (txRange_chip s), hwalk, finish_error]

/-- The rule's own reading of `enc_tx` (R90). -/
theorem encTx_chip {s : State} {f : Word} {enc : Bool}
    (henc : enc = true ↔ s.txCipher.isSome = true ∧ s.rxCipher.isSome = true ∧ f &&& 0x000D0000 = 0) :
    encTx Config.chip s f = enc := by
  have hmask : Config.chip.hsMask = 0x000D0000 := by decide
  rw [Bool.eq_iff_iff, henc, encTx, State.encActive, hmask, Bool.and_eq_true, Bool.and_eq_true, Bool.not_eq_true',
    ← Bool.not_eq_true, flagSet_iff, not_not, and_assoc]
  rfl

/-- The flags that TXFRAME transmits, with `enc_tx` known (R92). -/
theorem txFlags_chip {s : State} {enc : Bool} (henc : encTx Config.chip s s.hdr.flags = enc) :
    txFlags Config.chip s = if enc then s.hdr.flags ||| 0x00000002 else s.hdr.flags &&& ~~~0x00000002 := by
  rw [txFlags, henc]
  rfl

/-- The checksum that TXFRAME inserts, by the header's words (R77, R89, R92). -/
theorem txCksum_chip (s : State) (ph : Word) :
    txCksum Config.chip s ph =
      cksum (0x00140000 + s.txSeq + txFlags Config.chip s + 0xBADD70DD + packHalves s.clientId (hdrTime s.hdr)
        + packHalves s.txPlen (hdrIter s.hdr)) ph (encTx Config.chip s s.hdr.flags)
        (keyFor Config.chip (encTx Config.chip s s.hdr.flags) s.txCipher) := by
  rw [txCksum, hdrHash_headerBytes]
  rfl

/-- What TXFRAME leaves alone (R92). -/
theorem txCommit_frame (cfg : Config) (s : State) (ck : Word) :
    { (txCommit cfg s ck).succeed with
      txBuf := s.txBuf, txLen := s.txLen, hdr := s.hdr, txSeq := s.txSeq, lastTxEnc := s.lastTxEnc,
      txCipher := s.txCipher, res := s.res } = { s with err := 0, errInfo := 0 } := by
  cases s
  simp

/-- TXFRAME writes no byte from 20 on (R39). -/
theorem byteAt_txCommit_payload {cfg : Config} {s : State} {a : Nat} (ck : Word) (ha : 20 ≤ a) :
    (txCommit cfg s ck).byteAt .tx a = s.byteAt .tx a := by
  rw [byteAt_txCommit, State.byteAt_memWrite_outside (.inr (.inr (by rwa [headerBytes_length, Nat.zero_add])))]

/-- Settles O48: the datagram is `txCommit` with the checksum of `txCksum_chip`, whose key is that of the TX cipher when
`enc` says that there is one. -/
theorem txframeBuildsTheDatagram : Obligations.TxframeBuildsTheDatagram := by
  intro s enc f secs henc hf hwalk
  have henc' := encTx_chip henc
  have hflags : txFlags Config.chip s = f := (txFlags_chip henc').trans hf.symm
  rw [← walk_eq_walkPseudocode, ← hflags] at hwalk
  have hck := txCksum_chip s (sectionHashSum (s.byteAt .tx) secs)
  rw [henc', hflags] at hck
  refine ⟨_, txCksum Config.chip s (sectionHashSum (s.byteAt .tx) secs), exec_txframe_built hwalk, ⟨fun h => ?clear, fun h => ?keyed⟩, ?hdr, ?bytes, fun a ha => ?payload,
    ?length, ?seq, ?lastEnc, ?cipher, ?res, txCommit_frame _ _ _⟩
  case clear => rw [hck, h]; rfl
  case keyed =>
    obtain ⟨c, hc⟩ := Option.isSome_iff_exists.1 (henc.1 h).1
    exact ⟨c, hc, by rw [hck, h, hc]; rfl⟩
  case hdr => rw [State.succeed_hdr, txCommit_hdr, hflags]; rfl
  case bytes => rw [State.succeed_hdr, txCommit_hdr, succeed_reader, readHeader_txCommit]
  case payload => rw [State.succeed_byteAt, byteAt_txCommit_payload _ ha]
  case length => rw [State.succeed_txLen, txCommit_txLen, txLen_toNat]
  case seq => rw [State.succeed_txSeq, txCommit_txSeq]
  case lastEnc => rw [State.succeed_lastTxEnc, txCommit_lastTxEnc, henc']
  case cipher => rw [State.succeed_txCipher, txCommit_txCipher, henc']; rfl
  case res => rw [State.succeed_res, txCommit_res]

/-- Settles O49: the failing walk, and the bounds check of any legal configuration. -/
theorem txframeErrorsLeaveTheSession : Obligations.TxframeErrorsLeaveTheSession := by
  constructor
  · intro s enc f o henc hf hwalk
    rw [← walk_eq_walkPseudocode, hf, ← txFlags_chip (encTx_chip henc)] at hwalk
    rw [exec_txframe_truncated hwalk, raise_truncated, addressWord]
  · intro cfg s hwf hsmall
    rw [runCommand_of_wf hwf, txframeBody_eq, if_neg (Nat.not_le_of_lt hsmall), finish_error, raise_range]

/-! ### RXFRAME (R93) -/

/-- The length of the payload that the datagram in RXBUF claims (R58). -/
def State.rxSize (s : State) : Nat := (readLe16 (s.byteAt .rx) 16).toNat

/-- RX_LEN covers the header and the payload (R93, R94). -/
def State.RxHolds (s : State) : Prop := ¬ (s.rxLen.toNat < 20 ∨ s.rxLen.toNat < 20 + s.rxSize)

/-- The header of the datagram in RXBUF. -/
def State.rxHeader (s : State) : HeaderRegs := readHeader (s.byteAt .rx) 0

/-- A length that covers header and payload covers the header. -/
theorem State.rxHolds_of_le {s : State} (h : 20 + s.rxSize ≤ s.rxLen.toNat) : s.RxHolds := by
  rw [State.RxHolds]
  omega

/-- RXFRAME of a datagram that is shorter than its header or its payload (R93). -/
theorem exec_rxframe_short {s : State} (h : s.rxLen.toNat < 20 ∨ s.rxLen.toNat < 20 + s.rxSize) :
    exec .rxframe s = .next (s.raise (.truncated s.rxLen)) := by
  rw [State.rxSize] at h
  rw [exec_eq, bodyOf, rxframeBody_eq, if_pos h, finish_error]

/-- RXFRAME of a payload that does not hold the selected sections (R93). -/
theorem exec_rxframe_truncated {s : State} {o : Nat} (hlen : s.RxHolds)
    (hwalk : walk Config.chip s.rxHeader.flags (s.byteAt .rx) 20 s.rxSize = .error o) :
    exec .rxframe s = .next (s.raise (.truncated (addressWord o))) := by
  rw [State.RxHolds, State.rxSize] at hlen
  rw [State.rxHeader, State.rxSize] at hwalk
  rw [exec_eq, bodyOf, rxframeBody_eq, if_neg hlen, hwalk, finish_error]

section walked
variable {s : State} {secs : List Section} (hlen : s.RxHolds)
  (hwalk : walk Config.chip s.rxHeader.flags (s.byteAt .rx) 20 s.rxSize = .ok secs)
include hlen hwalk

/-- RXFRAME's decision on a datagram that holds its sections: the cipher, then the checksum (R93, R103). -/
theorem exec_rxframe_walked : exec .rxframe s = .next (finish s (
    if encRx Config.chip s.rxHeader.flags && !s.rxcPresent then .error (.cipherAbsent .rx)
    else if rxExpected Config.chip s s.rxHeader.flags (sectionHashSum (s.byteAt .rx) secs) ≠ s.rxHeader.cksum then
      .error (.badChecksum (rxExpected Config.chip s s.rxHeader.flags (sectionHashSum (s.byteAt .rx) secs)))
    else .ok (rxCommit Config.chip s s.rxHeader))) := by
  rw [State.RxHolds, State.rxSize] at hlen
  rw [State.rxHeader, State.rxSize] at hwalk
  rw [exec_eq, bodyOf, rxframeBody_eq, if_neg hlen, hwalk]
  simp only [sumHashes_chip]
  rfl

/-- RXFRAME of an encrypted datagram without the RX cipher (R93). -/
theorem exec_rxframe_absent (henc : encRx Config.chip s.rxHeader.flags = true) (hc : s.rxCipher = none) :
    exec .rxframe s = .next (s.raise (.cipherAbsent .rx)) := by
  rw [exec_rxframe_walked hlen hwalk, if_pos (by rw [henc, State.rxcPresent, hc]; rfl), finish_error]

/-- RXFRAME with the key it needs rejects or accepts by the expected checksum (R93). -/
theorem exec_rxframe_keyed (hkeyed : encRx Config.chip s.rxHeader.flags = true → s.rxCipher.isSome = true) {x : Word}
    (hx : rxExpected Config.chip s s.rxHeader.flags (sectionHashSum (s.byteAt .rx) secs) = x) :
    (x ≠ s.rxHeader.cksum → exec .rxframe s = .next (s.raise (.badChecksum x))) ∧
    (x = s.rxHeader.cksum → exec .rxframe s = .next (rxCommit Config.chip s s.rxHeader).succeed) := by
  have hpresent : ¬ (encRx Config.chip s.rxHeader.flags && !s.rxcPresent) = true := by
    simp only [Bool.and_eq_true, Bool.not_eq_true', not_and, Bool.not_eq_false]
    exact hkeyed
  rw [exec_rxframe_walked hlen hwalk, if_neg hpresent, hx]
  refine ⟨fun hne => ?_, fun heq => ?_⟩
  · rw [if_pos hne, finish_error]
  · rw [if_neg (not_not_intro heq), finish_ok]

end walked

/-- An RXFRAME that ends with code 0 found the datagram whole, its sections and the expected checksum. -/
theorem rxframe_accepted_of_ok {s t : State} (h : exec .rxframe s = .next t) (ht : t.err = 0) : s.RxHolds ∧ ∃ secs,
    walk Config.chip s.rxHeader.flags (s.byteAt .rx) 20 s.rxSize = .ok secs ∧
    rxExpected Config.chip s s.rxHeader.flags (sectionHashSum (s.byteAt .rx) secs) = s.rxHeader.cksum ∧
    t = (rxCommit Config.chip s s.rxHeader).succeed := by
  obtain ⟨u, ⟨hlen, secs, hwalk, -, hexpected, rfl⟩, rfl⟩ := exec_leaves_of_ok h ht
  rw [sumHashes_chip] at hexpected
  exact ⟨hlen, secs, hwalk, hexpected, rfl⟩

/-- The checksum that RXFRAME expects, by the header's words (R77, R89, R93). -/
theorem rxExpected_chip (s : State) (f ph : Word) :
    rxExpected Config.chip s f ph =
      cksum (0x00140000 + s.rxHeader.seq + s.rxHeader.flags + 0xBADD70DD + s.rxHeader.w3 + s.rxHeader.w4) ph
        (encRx Config.chip f) (keyFor Config.chip (encRx Config.chip f) s.rxCipher) := by
  rw [rxExpected, hdrHash_memRead]
  rfl

/-- Settles O50: the branches of RXFRAME in their order, the expected checksum being `rxExpected_chip`. -/
theorem rxframeDecidesInOrder : Obligations.RxframeDecidesInOrder := by
  intro s h size enc hh hsize henc
  have hsize' : size = s.rxSize := by rw [hsize, hh, hdrSize_readHeader]; rfl
  change h = s.rxHeader at hh
  subst hh hsize'
  have henc' : encRx Config.chip s.rxHeader.flags = enc := henc.symm
  simp only [← walk_eq_walkPseudocode]
  refine ⟨exec_rxframe_short, fun hle => ⟨fun o hwalk => exec_rxframe_truncated (s.rxHolds_of_le hle) hwalk,
    fun secs hwalk => ⟨fun he hc => exec_rxframe_absent (s.rxHolds_of_le hle) hwalk (henc'.trans he) hc,
    fun x hx => ?keyed⟩⟩⟩
  have hkeyed : enc = true → s.rxCipher.isSome = true := by
    rintro rfl
    obtain ⟨hf, -⟩ | ⟨-, c, hc, -⟩ := hx
    · cases hf
    · rw [hc]; rfl
  have hexpected : rxExpected Config.chip s s.rxHeader.flags (sectionHashSum (s.byteAt .rx) secs) = x := by
    rw [rxExpected_chip, henc']
    obtain ⟨rfl, rfl⟩ | ⟨rfl, c, hc, rfl⟩ := hx
    · rfl
    · rw [hc]; rfl
  rw [← henc'] at hkeyed ⊢
  exact exec_rxframe_keyed (s.rxHolds_of_le hle) hwalk hkeyed hexpected

/-! ### CRACCEPT (R94) -/

theorem preConnectFlags_chip : preConnectFlags Config.chip = 0x00007100 := by decide

/-- The state that CRACCEPT leaves, the seeds being variables here so that no seeded cipher is evaluated (R94). -/
theorem crCommit_chip (s : State) (cr : ConnectRegs) :
    (crCommit Config.chip s cr).succeed =
      { s with cr := cr, clientId := lowHalf cr.cid, txCipher := some (isaacInit cr.clientSeed),
               rxCipher := some (isaacInit cr.serverSeed), err := 0, errInfo := 0 } := rfl

/-- Settles O51: the branches of CRACCEPT in their order. -/
theorem cracceptDecidesInOrder : Obligations.CracceptDecidesInOrder := by
  intro s f size hf hsize
  subst hf hsize
  simp only [exec_eq, bodyOf, cracceptBody_eq, preConnectFlags_chip, ← walk_eq_walkPseudocode]
  have hflag : Config.chip.flags.connectRequest = 0x00040000 := rfl
  refine ⟨fun hshort => ?short, fun hle => ?received⟩
  case short => rw [if_pos hshort, finish_error, raise_truncated]
  rw [if_neg (by omega), hflag]
  refine ⟨fun hclear => ?noSection, fun hset => ⟨fun o hwalk => ?fails, fun secs at_ hwalk hat => ?walked⟩⟩
  case noSection =>
    rw [if_pos (by rw [flagSet, hclear]; rfl), finish_error, raise_noSection]
  all_goals rw [if_neg (by rwa [Bool.not_eq_false, flagSet_iff]), hwalk]
  case fails => rw [finish_error, raise_truncated, addressWord]
  case walked =>
    have hat' : connectAddress secs = at_ := hat.symm
    simp only [hat']
    refine ⟨fun hlong => ?long, fun hfits => ⟨fun htx => ?tx, fun htx hrx => ?rx, fun htx hrx => ?taken⟩⟩
    case long => rw [if_pos hlong, finish_error, raise_truncated, addressWord]
    all_goals rw [if_neg (Nat.not_lt_of_le hfits)]
    case tx => rw [if_pos (show s.txcPresent = true from htx), finish_error, raise_cipherPresent]; rfl
    all_goals rw [if_neg (by rw [State.txcPresent, htx]; exact Bool.false_ne_true)]
    case rx => rw [if_pos (show s.rxcPresent = true from hrx), finish_error, raise_cipherPresent]; rfl
    case taken =>
      rw [if_neg (by rw [State.rxcPresent, hrx]; exact Bool.false_ne_true), finish_ok, crCommit_chip, readConnect,
        lowHalf_readLe32]

end Sys2Proof.Machine
end

section
/-! PROOFS. Datagrams between blocks (R92, R93): what a sender built is accepted by its peer, a replay is rejected, and
what neither the bytes past the datagram nor the host's other header fields can change. -/
namespace Sys2Proof.Machine

/-! ### A datagram read from two places -/

/-- A header is its twenty bytes (R58). -/
theorem readHeader_congr {rd rd' : Nat → Byte} (h : ∀ a, a < 20 → rd a = rd' a) :
    readHeader rd 0 = readHeader rd' 0 := by
  have word (o : Nat) (ho : o + 4 ≤ 20) : readLe32 rd o = readLe32 rd' o :=
    readLe32_congr fun k hk => h _ (by omega)
  rw [readHeader, readHeader, word 0, word (0 + 4), word (0 + 8), word (0 + 12), word (0 + 16)] <;> omega

/-- Readers that agree on the payload give the sections of a walk the same hashes (R87). -/
theorem sectionHashSum_congr {cfg : Config} {f : Word} {rd rd' : Nat → Byte} {p len : Nat} {secs : List Section}
    (hwalk : walk cfg f rd p len = .ok secs) (h : ∀ x, p ≤ x → x < p + len → rd x = rd' x) :
    sectionHashSum rd secs = sectionHashSum rd' secs := by
  have hsec : ∀ x ∈ secs, hash32 (memRead rd x.addr x.len) = hash32 (memRead rd' x.addr x.len) := fun x hx => by
    obtain ⟨hlow, hhigh⟩ := (walk_inOrder hwalk).mem hx
    rw [memRead_congr fun a hle hlt => h a (by omega) (by omega)]
  rw [sectionHashSum, sectionHashSum, List.map_congr_left hsec]

/-- The payload's length is the size field of the header (R58). -/
theorem State.rxSize_eq (s : State) : s.rxSize = (hdrSize s.rxHeader).toNat := by
  rw [State.rxHeader, hdrSize_readHeader, State.rxSize]

/-! ### The peer (R92, R93, R70) -/

/-- The receiver takes a datagram for encrypted exactly when the sender encrypted it (R90). -/
theorem encRx_txFlags (s : State) : encRx Config.chip (txFlags Config.chip s) = encTx Config.chip s s.hdr.flags :=
  flagSet_forceFlag (by decide) _ _

section peer
variable {s r : State} {ck : Word}
  (hbytes : ∀ a, a < 20 + s.txPlen.toNat → r.byteAt .rx a = (txCommit Config.chip s ck).byteAt .tx a)
include hbytes

/-- The peer finds the header that the sender built. -/
theorem peer_rxHeader : r.rxHeader = txHeader s (txFlags Config.chip s) ck := by
  rw [← readHeader_txCommit, State.rxHeader]
  exact readHeader_congr fun a ha => hbytes a (by omega)

/-- The peer finds the length that the sender put into the header. -/
theorem peer_rxSize : r.rxSize = s.txPlen.toNat := by
  rw [State.rxSize_eq, peer_rxHeader hbytes, txHeader, hdrSize, lowHalf_packHalves]

/-- The peer finds the payload that the sender's host wrote. -/
theorem peer_payload (a : Nat) (hle : 20 ≤ a) (hlt : a < 20 + s.txPlen.toNat) : s.byteAt .tx a = r.byteAt .rx a := by
  rw [hbytes a hlt, byteAt_txCommit_payload ck hle]

/-- The peer takes the datagram for encrypted exactly when the sender encrypted it. -/
theorem peer_encRx : encRx Config.chip r.rxHeader.flags = encTx Config.chip s s.hdr.flags := by
  rw [peer_rxHeader hbytes, ← encRx_txFlags]
  rfl

variable {secs : List Section}
  (hwalk : walk Config.chip (txFlags Config.chip s) (s.byteAt .tx) 20 s.txPlen.toNat = .ok secs)
include hwalk

/-- The peer finds the sender's sections. -/
theorem peer_walk : walk Config.chip r.rxHeader.flags (r.byteAt .rx) 20 r.rxSize = .ok secs := by
  rw [peer_rxHeader hbytes, peer_rxSize hbytes, ← walk_congr (peer_payload hbytes)]
  exact hwalk

/-- With the sender's key the peer expects the checksum that the sender computed. -/
theorem peer_rxExpected (hkey : encTx Config.chip s s.hdr.flags = true → r.rxCipher = s.txCipher) :
    rxExpected Config.chip r r.rxHeader.flags (sectionHashSum (r.byteAt .rx) secs) =
      txCksum Config.chip s (sectionHashSum (s.byteAt .tx) secs) := by
  have hkeyFor : keyFor Config.chip (encTx Config.chip s s.hdr.flags) r.rxCipher =
      keyFor Config.chip (encTx Config.chip s s.hdr.flags) s.txCipher := by
    cases he : encTx Config.chip s s.hdr.flags with
    | false => rfl
    | true => rw [hkey he]
  rw [rxExpected_chip, txCksum_chip, peer_encRx hbytes, hkeyFor, peer_rxHeader hbytes,
    ← sectionHashSum_congr hwalk (peer_payload hbytes)]
  rfl

end peer

/-- Settles O52: the peer finds the sender's header and sections, and with the sender's key it expects the sender's
checksum. -/
theorem builtDatagramsAreAcceptedByThePeer : Obligations.BuiltDatagramsAreAcceptedByThePeer := by
  intro s t r hexec ht hlen hbytes hcipher
  obtain ⟨secs, hwalk, rfl⟩ := txframe_built_of_ok hexec ht
  clear hexec ht
  generalize hck : txCksum Config.chip s (sectionHashSum (s.byteAt .tx) secs) = ck at hlen hbytes hcipher ⊢
  simp only [State.succeed_txLen, txCommit_txLen, txLen_toNat, succeed_reader, State.succeed_lastTxEnc,
    txCommit_lastTxEnc] at hlen hbytes hcipher
  have hheader := peer_rxHeader hbytes
  have henc := peer_encRx hbytes
  have hholds : r.RxHolds := State.rxHolds_of_le (by rw [peer_rxSize hbytes, hlen, txLen_toNat])
  have hkeyed : encRx Config.chip r.rxHeader.flags = true → r.rxCipher.isSome = true := fun he => by
    rw [henc] at he
    rw [hcipher he]
    exact (present_of_encTx he).1
  have haccept := (exec_rxframe_keyed hholds (peer_walk hbytes hwalk) hkeyed
    ((peer_rxExpected hbytes hwalk hcipher).trans hck)).2 (congrArg HeaderRegs.cksum hheader).symm
  refine ⟨_, haccept, rfl, ?res, ?hdr, ?seq, ?seen, ?lastEnc, ?cipher⟩
  case res => rw [State.succeed_res, rxCommit_res, hheader, State.succeed_res, txCommit_res]; rfl
  case hdr => rw [State.succeed_hdr, rxCommit_hdr, hheader, State.succeed_hdr, txCommit_hdr]
  case seq => rw [State.succeed_lastRxSeq, rxCommit_lastRxSeq, hheader]; rfl
  case seen => rw [State.succeed_rxSeen, rxCommit_rxSeen]
  case lastEnc => rw [State.succeed_lastRxEnc, rxCommit_lastRxEnc, henc, State.succeed_lastTxEnc, txCommit_lastTxEnc]
  case cipher =>
    rw [State.succeed_rxCipher, rxCommit_rxCipher, henc, State.succeed_lastTxEnc, txCommit_lastTxEnc,
      State.succeed_txCipher, txCommit_txCipher]
    cases he : encTx Config.chip s s.hdr.flags with
    | false => rfl
    | true => rw [hcipher he]; rfl

/-! ### A replay (R93) -/

/-- An encrypted checksum tells two keys apart (R89). -/
theorem cksum_encrypted_inj (hh ph : Word) {k k' : Word} (h : cksum hh ph true k = cksum hh ph true k') : k = k' := by
  simpa [cksum] using h

/-- The key of an encrypted checksum with the cipher present (R89, R93). -/
theorem keyFor_chip_some (c : Cipher) : keyFor Config.chip true (some c) = peek c := rfl

/-- Settles O53: the accepted datagram is still in RXBUF, and the key it is checked with is the next one. -/
theorem replayedEncryptedDatagramIsRejected : Obligations.ReplayedEncryptedDatagramIsRejected := by
  intro s t c hc hkeys hexec ht hlast
  obtain ⟨hholds, secs, hwalk, hexpected, rfl⟩ := rxframe_accepted_of_ok hexec ht
  rw [State.succeed_lastRxEnc, rxCommit_lastRxEnc] at hlast
  clear hexec ht
  generalize htu : (rxCommit Config.chip s s.rxHeader).succeed = t
  have hreader : t.byteAt .rx = s.byteAt .rx := by
    funext a
    rw [← htu, State.succeed_byteAt, byteAt_rxCommit]
  have hheader : t.rxHeader = s.rxHeader := by rw [State.rxHeader, hreader, State.rxHeader]
  have hsize : t.rxSize = s.rxSize := by rw [State.rxSize_eq, hheader, State.rxSize_eq]
  have hlen : t.rxLen = s.rxLen := by rw [← htu, State.succeed_rxLen, rxCommit_rxLen]
  have hres : t.res = t.rxHeader.cksum := by rw [hheader, ← htu, State.succeed_res, rxCommit_res]
  have hnext : t.rxCipher = some (advance c) := by
    rw [← htu, State.succeed_rxCipher, rxCommit_rxCipher, hlast, hc]
    rfl
  have hholds' : t.RxHolds := by rwa [State.RxHolds, hlen, hsize]
  have hwalk' : walk Config.chip t.rxHeader.flags (t.byteAt .rx) 20 t.rxSize = .ok secs := by
    rw [hheader, hreader, hsize, hwalk]
  have hdiffers : rxExpected Config.chip t t.rxHeader.flags (sectionHashSum (t.byteAt .rx) secs) ≠
      t.rxHeader.cksum := by
    rw [hheader, ← hexpected, rxExpected_chip, rxExpected_chip, hheader, hreader, hlast, hnext, hc, keyFor_chip_some,
      keyFor_chip_some]
    exact fun heq => hkeys (cksum_encrypted_inj _ _ heq)
  have hreject := (exec_rxframe_keyed hholds' hwalk' (fun _ => by rw [hnext]; rfl) rfl).1 hdiffers
  rw [raise_badChecksum] at hreject
  exact ⟨_, by rwa [hres], hreject⟩

/-! ### What RXFRAME and TXFRAME do not read -/

/-- The state with another RXBUF and another RX_LEN. -/
def State.withRx (s : State) (m : Memory) (l : Word) : State := { s with rxBuf := m, rxLen := l }

/-- Settles O54: the header, the walk and the hashes read the datagram's own bytes, so the two blocks take the same
branch. -/
theorem surplusBytesDoNotInfluenceRxframe : Obligations.SurplusBytesDoNotInfluenceRxframe := by
  intro s t m l size hs hl hbytes hexec
  change ∀ a, a < 20 + s.rxSize → (s.withRx m l).byteAt .rx a = s.byteAt .rx a at hbytes
  change exec .rxframe (s.withRx m l) = .next (t.withRx m l)
  have hheader : (s.withRx m l).rxHeader = s.rxHeader := readHeader_congr fun a ha => hbytes a (by omega)
  have hsize : (s.withRx m l).rxSize = s.rxSize := by rw [State.rxSize_eq, hheader, ← State.rxSize_eq]
  have hholds : s.RxHolds := s.rxHolds_of_le hs
  have hholds' : (s.withRx m l).RxHolds := State.rxHolds_of_le (by rw [hsize]; exact hl)
  have hpayload (a : Nat) (_ : 20 ≤ a) (hlt : a < 20 + s.rxSize) :
      s.byteAt .rx a = (s.withRx m l).byteAt .rx a := (hbytes a hlt).symm
  have hsame : walk Config.chip (s.withRx m l).rxHeader.flags ((s.withRx m l).byteAt .rx) 20 (s.withRx m l).rxSize =
      walk Config.chip s.rxHeader.flags (s.byteAt .rx) 20 s.rxSize := by
    rw [hheader, hsize, walk_congr hpayload]
  cases hwalk : walk Config.chip s.rxHeader.flags (s.byteAt .rx) 20 s.rxSize with
  | error o =>
    rw [exec_rxframe_truncated hholds hwalk] at hexec
    cases hexec
    exact exec_rxframe_truncated hholds' (hsame.trans hwalk)
  | ok secs =>
    have hexpected (f ph : Word) : rxExpected Config.chip (s.withRx m l) f ph = rxExpected Config.chip s f ph := by
      rw [rxExpected_chip, rxExpected_chip, hheader]
      rfl
    rw [exec_rxframe_walked hholds hwalk] at hexec
    cases hexec
    rw [exec_rxframe_walked hholds' (hsame.trans hwalk), hheader, ← sectionHashSum_congr hwalk hpayload, hexpected]
    generalize rxExpected Config.chip s s.rxHeader.flags (sectionHashSum (s.byteAt .rx) secs) = x
    change Host.Outcome.next (finish _ (if (encRx _ _ && !s.rxcPresent) = true then _ else _)) = _
    split
    · rfl
    · split <;> rfl

section otherFields
variable {s : State} {h : HeaderRegs} (hflags : h.flags = s.hdr.flags) (htime : hdrTime h = hdrTime s.hdr)
  (hiter : hdrIter h = hdrIter s.hdr)

include hflags in
theorem encTx_setHdr (cfg : Config) : encTx cfg (s.setHdr h) h.flags = encTx cfg s s.hdr.flags := by rw [hflags]; rfl

include hflags in
theorem txFlags_setHdr (cfg : Config) : txFlags cfg (s.setHdr h) = txFlags cfg s := by
  rw [txFlags, State.setHdr_hdr, encTx_setHdr hflags, hflags, txFlags]

include htime hiter in
theorem txHeader_setHdr (f ck : Word) : txHeader (s.setHdr h) f ck = txHeader s f ck := by
  rw [txHeader, State.setHdr_hdr, htime, hiter]
  rfl

include hflags htime hiter

theorem txCksum_setHdr (cfg : Config) (ph : Word) : txCksum cfg (s.setHdr h) ph = txCksum cfg s ph := by
  rw [txCksum, txHeader_setHdr htime hiter, txFlags_setHdr hflags, State.setHdr_hdr, encTx_setHdr hflags,
    State.setHdr_txCipher, txCksum]

theorem txCommit_setHdr (cfg : Config) (ck : Word) : txCommit cfg (s.setHdr h) ck = txCommit cfg s ck := by
  rw [txCommit, txHeader_setHdr htime hiter, txFlags_setHdr hflags, State.setHdr_hdr, encTx_setHdr hflags, txCommit]
  rfl

/-- A header of the host that keeps the flags, the time and the iteration gives the same datagram and end state. -/
theorem exec_txframe_setHdr {t : State} (hexec : exec .txframe s = .next t) (ht : t.err = 0) :
    exec .txframe (s.setHdr h) = .next t := by
  obtain ⟨secs, hwalk, rfl⟩ := txframe_built_of_ok hexec ht
  have hreader : (s.setHdr h).byteAt .tx = s.byteAt .tx := funext (s.setHdr_byteAt h .tx)
  have hwalk' : walk Config.chip (txFlags Config.chip (s.setHdr h)) ((s.setHdr h).byteAt .tx) 20
      (s.setHdr h).txPlen.toNat = .ok secs := by
    rw [txFlags_setHdr hflags, hreader, State.setHdr_txPlen, hwalk]
  rw [exec_txframe_built hwalk', hreader, txCksum_setHdr hflags htime hiter, txCommit_setHdr hflags htime hiter]

end otherFields

/-- Settles O55: of the header registers TXFRAME reads the flags, the time and the iteration only, and it writes all
five. -/
theorem txframeIgnoresTheHostsOtherHeaderFields : Obligations.TxframeIgnoresTheHostsOtherHeaderFields := by
  intro s t seq ck cid size hexec ht
  exact exec_txframe_setHdr (s := s) (h := ⟨seq, s.hdr.flags, ck, packHalves cid (hdrTime s.hdr),
    packHalves size (hdrIter s.hdr)⟩) rfl (highHalf_packHalves _ _) (highHalf_packHalves _ _) hexec ht

end Sys2Proof.Machine
end

section
/-! PROOFS. The control commands NOP (R97) and SRESET (R98). -/
namespace Sys2Proof.Machine

/-- NOP succeeds with its own state (R97). -/
theorem exec_nop (s : State) : exec .nop s = .next s.succeed := by
  rw [exec_eq, bodyOf, nopBody, finish_ok]

/-- The error registers of a cleared state are 0 already, so reporting success leaves it as it is. -/
@[simp] theorem State.cleared_succeed (cfg : Config) (s : State) : (s.cleared cfg).succeed = s.cleared cfg := rfl

/-- SRESET succeeds with the cleared state (R98). -/
theorem exec_sreset (s : State) : exec .sreset s = .next (s.cleared Config.chip) := by
  rw [exec_eq, bodyOf, sresetBody, finish_ok, State.cleared_succeed]

/-- After SRESET every offset reads 0 (R35), from the registers at their reset values over the kept buffers. -/
theorem readOffset_cleared (s : State) (offset : Nat) : (s.cleared Config.chip).readOffset offset = 0 := by
  rw [cleared_eq_resetOver, readOffset_resetOver]

/-- Settles O57: SRESET answers the cleared state, whose registers read 0 by `readOffset_cleared` and whose buffers and
draws, and so the bytes, are those of the old state. -/
theorem sresetEndsTheSession : Obligations.SresetEndsTheSession := by
  refine ⟨decode_encode .sreset, rfl, fun s => ⟨s.cleared Config.chip, exec_sreset s, ?_⟩⟩
  exact ⟨readOffset_cleared s, s.cleared_txCipher _, s.cleared_rxCipher _, s.cleared_byteAt _, s.cleared_txBuf _,
    s.cleared_rxBuf _, s.cleared_pending _, s.cleared_answers _, s.cleared_draws _⟩

/-- Settles O56: reporting success is all that NOP does. -/
theorem nopClearsOnlyTheLastError : Obligations.NopClearsOnlyTheLastError :=
  ⟨decode_encode .nop, rfl, exec_nop⟩

end Sys2Proof.Machine
end

section
/-! PROOFS. Errors and progress (R99 to R102, R116): how a command reports its end, and that no legal event of the host
stops the block. -/
namespace Sys2Proof.Machine

/-! ### How a command ends -/

/-- Code 0 is no error's code (R99). -/
theorem CmdError.code_ne_zero (e : CmdError) : e.code ≠ 0 := by
  intro h
  have hpos := e.code_range.1
  rw [h] at hpos
  exact absurd hpos (by decide)

/-- Settles O12: a command that ends with a code other than 0 raised an error, and the error entry replaces the three
error registers only. -/
theorem failedCommandsChangeOnlyErrorRegisters : Obligations.FailedCommandsChangeOnlyErrorRegisters := by
  intro i s t h ht
  obtain ⟨e, rfl⟩ := exec_of_failed h ht
  rw [State.raise_err, State.raise_errInfo, State.raise_errSticky, State.raise]

/-- What a successful command does to ERR_STICKY: SRESET clears it, every other command leaves it (R21, R101). -/
theorem Effect.errSticky {i : Instr} {s u : State} (h : Effect s i u) :
    u.errSticky = if i = .sreset then 0 else s.errSticky := by
  cases h with
  | clear => rfl
  | none | connect | transmit | receive => simp
  | seed d | consume d | header d | fragment d => cases d <;> simp [forDir]
  | result i w hi =>
    have hne : i ≠ .sreset := by rintro rfl; exact absurd hi (by decide)
    rw [if_neg hne, State.setRes_errSticky]
  | bytes i d a bs hi =>
    have hne : i ≠ .sreset := by rintro rfl; exact absurd hi (by decide)
    rw [if_neg hne, State.memWrite_errSticky]

/-- Settles O13: the report of success over the effect's ERR_STICKY, and the error entry, whose code is not 0. -/
theorem errorRegistersFollowTheLastCommand : Obligations.ErrorRegistersFollowTheLastCommand := by
  intro i s t h
  rcases exec_effect h with ⟨u, hu, rfl⟩ | ⟨e, rfl⟩
  case inl => exact ⟨fun _ => ⟨u.succeed_errInfo, hu.errSticky⟩, fun hne => absurd u.succeed_err hne⟩
  case inr => exact ⟨fun h0 => absurd h0 e.code_ne_zero, fun _ => s.raise_errSticky e⟩

/-- Settles O14: the code is 0 after success, and one of the codes of `bodyOf_error` after an error. -/
theorem eachCommandRaisesOnlyItsErrors : Obligations.EachCommandRaisesOnlyItsErrors := by
  intro i s t h
  rcases exec_leaves h with ⟨u, -, rfl⟩ | ⟨e, he, rfl⟩
  case inl =>
    rw [State.succeed_err]
    cases i <;> exact List.mem_cons_self
  case inr =>
    have hcode := bodyOf_error he
    rw [State.raise_err]
    cases i <;> exact List.mem_cons_of_mem 0 hcode

/-! ### The host's list of events -/

/-- No command's effect touches the host's list (log 12 for SRESET). -/
theorem Effect.pending {i : Instr} {s u : State} (h : Effect s i u) : u.pending = s.pending := by
  cases h with
  | none | clear => rfl
  | seed | consume => exact State.setCipher_pending ..
  | result => exact State.setRes_pending ..
  | bytes => exact State.memWrite_pending ..
  | header => exact State.setHdr_pending ..
  | fragment => exact State.setFrg_pending ..
  | connect => exact crCommit_pending ..
  | transmit => exact txCommit_pending ..
  | receive => exact rxCommit_pending ..

theorem exec_pending {i : Instr} {s t : State} (h : exec i s = .next t) : t.pending = s.pending := by
  rcases exec_effect h with ⟨u, hu, rfl⟩ | ⟨e, rfl⟩
  · exact u.succeed_pending.trans hu.pending
  · exact s.raise_pending e

theorem writeOffset_pending (cfg : Config) (s : State) (offset : Nat) (v : Word) :
    (s.writeOffset cfg offset v).pending = s.pending := by
  obtain ⟨-, -, -, -, hpending, -⟩ := writeOffset_frame cfg s offset v
  exact hpending

/-- Performing an event leaves the events after it pending (R48). -/
theorem takeEvent_pending {e : HostEvent} {s t : State} (h : takeEvent e s = .next t) : t.pending = s.pending := by
  rcases takeEvent_next h with ⟨i, hi⟩ | ⟨w, rfl⟩ | ⟨offset, v, rfl⟩ | ⟨a, rfl⟩ | ⟨d, a, v, -, rfl⟩ | rfl
  · exact exec_pending hi
  · exact s.raise_pending _
  · exact writeOffset_pending Config.chip s offset v
  · exact s.answer_pending a
  · exact s.memWrite_pending d a [v]
  · exact s.afterReset_pending Config.chip

/-! ### Legal events -/

/-- The register accesses of the interface (R18, R36). -/
theorem legal_regWrite_iff {offset width : Nat} {v : Word} :
    (HostEvent.regWrite offset width v).legal = true ↔ width = 4 ∧ offset % 4 = 0 ∧ offset < 256 := by
  simp [HostEvent.legal, and_assoc]

theorem legal_regRead_iff {offset width : Nat} :
    (HostEvent.regRead offset width).legal = true ↔ width = 4 ∧ offset % 4 = 0 ∧ offset < 256 := by
  simp [HostEvent.legal, and_assoc]

/-- A write inside the register window ends in a next state, whether it issues a command or stores (R45, R102). -/
theorem hostWrite_answers (offset : Nat) (v : Word) (s : State) : ∃ t, hostWrite offset v s = .next t := by
  by_cases h0 : offset = 0
  · rw [h0, hostWrite_cmd]
    exact issue_next v s
  · exact ⟨_, hostWrite_store h0 v s⟩

/-- A legal event of the host ends in a next state, whatever the state of the block (R102). -/
theorem takeEvent_of_legal {e : HostEvent} (h : e.legal = true) (s : State) : ∃ t, takeEvent e s = .next t := by
  cases e with
  | regWrite offset width v =>
    obtain ⟨rfl, h4, hw⟩ := legal_regWrite_iff.1 h
    rw [takeEvent_regWrite_eq, badForm_false h4, if_neg Bool.false_ne_true, if_pos hw]
    exact hostWrite_answers offset v s
  | regRead offset width =>
    obtain ⟨rfl, h4, hw⟩ := legal_regRead_iff.1 h
    rw [takeEvent_regRead_eq, badForm_false h4, if_neg Bool.false_ne_true, if_pos hw]
    exact ⟨_, rfl⟩
  | bufWrite d a v => exact ⟨_, (takeEvent_bufWrite_eq d a v s).trans (if_pos (of_decide_eq_true h))⟩
  | bufRead d a => exact ⟨_, (takeEvent_bufRead_eq d a s).trans (if_pos (of_decide_eq_true h))⟩
  | reset => exact ⟨_, takeEvent_reset s⟩
  | concurrent => cases h

/-- Settles O10: an idle step has nothing to take; any other performs the oldest event, which is legal, and leaves the
rest of the list. -/
theorem legalAccessesNeverStopTheBlock : Obligations.LegalAccessesNeverStopTheBlock := by
  intro s hlegal
  cases hp : s.pending with
  | nil => exact ⟨s, step_idle hp, hp⟩
  | cons e rest =>
    rw [State.legalInput, hp, List.all_cons, Bool.and_eq_true] at hlegal
    obtain ⟨he, -⟩ := hlegal
    obtain ⟨t, ht⟩ := takeEvent_of_legal he (s.taken rest)
    exact ⟨t, (step_event hp).trans ht, takeEvent_pending ht⟩

end Sys2Proof.Machine
end

section
/-! PROOFS. Runs (R116): stepping along a list of legal host events reaches the end state. -/
namespace Sys2Proof.Machine

/-- What is pending after a step is legal if what was pending before it was. -/
theorem State.legalInput_of_pending_tail {s t : State} (hs : s.legalInput = true)
    (htail : t.pending = s.pending.tail) : t.legalInput = true := by
  rw [State.legalInput, htail]
  exact List.all_eq_true.2 fun e he => List.all_eq_true.1 hs e (List.mem_of_mem_tail he)

/-- Settles O11, by induction on the number of steps: legality of the pending events is kept by each step, so no step
of the run stops the block. -/
theorem legalRunsReachTheirEndState : Obligations.LegalRunsReachTheirEndState := by
  intro k
  induction k with
  | zero => exact fun s _ => ⟨s, rfl, rfl⟩
  | succ k ih =>
    intro s hs
    obtain ⟨u, hstep, htail⟩ := legalAccessesNeverStopTheBlock s hs
    obtain ⟨t, hrun, hdrop⟩ := ih u (State.legalInput_of_pending_tail hs htail)
    exact ⟨t, (run_succ hstep k).trans hrun, by rw [hdrop, htail, List.drop_tail]⟩

end Sys2Proof.Machine
end
